-- ==== Sys2Proof/Word.lean ====
section
/-! DEFINITION. The widths of the machine (00_scope.md R9): a byte and a 16-bit address value. -/

namespace Sys2Proof

/-- A byte, unsigned, 0 to 255 (00_scope.md R9). -/
abbrev Byte := BitVec 8

/-- A 16-bit unsigned value: the program counter and the operand `addr16` (00_scope.md R9). -/
abbrev Addr16 := BitVec 16

end Sys2Proof
end

