-- ==== Sys2Proof/Syntax.lean ====
section
/-! DEFINITION. Abstract syntax: the 46 mnemonics of the reference catalog (30_encoding.md R68), the three
formats (R61), and the instructions with their operand values (R62). -/

namespace Sys2Proof

/-- The three instruction formats (30_encoding.md R61). -/
inductive Format where
  /-- one byte: the opcode -/
  | f0
  /-- two bytes: the opcode and `imm8` -/
  | f1
  /-- three bytes: the opcode and the big-endian `addr16` -/
  | f2
  deriving DecidableEq, Repr

/-- The operand length `L` of a format, in bytes (30_encoding.md R60, R61). -/
def Format.operandLength : Format → Nat
  | .f0 => 0
  | .f1 => 1
  | .f2 => 2

/-- The mnemonics of spec/opcode_table.json, in the table's order. Each names the execution rule that R68's semantics
column gives it. -/
inductive Mnemonic where
  | hlt
  | ldai
  | ldam
  | ldaxy
  | ldao
  | stam
  | staxy
  | stao
  | ldxi
  | ldxm
  | stxm
  | ldyi
  | ldym
  | stym
  | tax
  | txa
  | tay
  | tya
  | addx
  | addy
  | addi
  | addm
  | subx
  | suby
  | subi
  | subm
  | inca
  | incx
  | incy
  | deca
  | decx
  | decy
  | shla
  | shra
  | jmp
  | jz
  | jnz
  | jn
  | jnn
  | jo
  | jno
  | jrf
  | jrb
  | fill
  | copy
  | bcmp
  deriving DecidableEq, Repr

/-- The format of each mnemonic (30_encoding.md R68, column "format"). -/
def Mnemonic.format : Mnemonic → Format
  | .hlt => .f0
  | .ldai => .f1
  | .ldam => .f2
  | .ldaxy => .f0
  | .ldao => .f2
  | .stam => .f2
  | .staxy => .f0
  | .stao => .f2
  | .ldxi => .f1
  | .ldxm => .f2
  | .stxm => .f2
  | .ldyi => .f1
  | .ldym => .f2
  | .stym => .f2
  | .tax => .f0
  | .txa => .f0
  | .tay => .f0
  | .tya => .f0
  | .addx => .f0
  | .addy => .f0
  | .addi => .f1
  | .addm => .f2
  | .subx => .f0
  | .suby => .f0
  | .subi => .f1
  | .subm => .f2
  | .inca => .f0
  | .incx => .f0
  | .incy => .f0
  | .deca => .f0
  | .decx => .f0
  | .decy => .f0
  | .shla => .f0
  | .shra => .f0
  | .jmp => .f2
  | .jz => .f2
  | .jnz => .f2
  | .jn => .f2
  | .jnn => .f2
  | .jo => .f2
  | .jno => .f2
  | .jrf => .f0
  | .jrb => .f0
  | .fill => .f1
  | .copy => .f2
  | .bcmp => .f2

/-- The operand length `L` of a mnemonic's instruction (30_encoding.md R60). -/
def Mnemonic.operandLength (m : Mnemonic) : Nat := m.format.operandLength

/-- A text, as a list of characters. -/
abbrev Text := List Char

/-- The mnemonic as the reference catalog spells it (30_encoding.md R68, R85). -/
def Mnemonic.name : Mnemonic → Text
  | .hlt => ['H', 'L', 'T']
  | .ldai => ['L', 'D', 'A', 'I']
  | .ldam => ['L', 'D', 'A', 'M']
  | .ldaxy => ['L', 'D', 'A', 'X', 'Y']
  | .ldao => ['L', 'D', 'A', 'O']
  | .stam => ['S', 'T', 'A', 'M']
  | .staxy => ['S', 'T', 'A', 'X', 'Y']
  | .stao => ['S', 'T', 'A', 'O']
  | .ldxi => ['L', 'D', 'X', 'I']
  | .ldxm => ['L', 'D', 'X', 'M']
  | .stxm => ['S', 'T', 'X', 'M']
  | .ldyi => ['L', 'D', 'Y', 'I']
  | .ldym => ['L', 'D', 'Y', 'M']
  | .stym => ['S', 'T', 'Y', 'M']
  | .tax => ['T', 'A', 'X']
  | .txa => ['T', 'X', 'A']
  | .tay => ['T', 'A', 'Y']
  | .tya => ['T', 'Y', 'A']
  | .addx => ['A', 'D', 'D', 'X']
  | .addy => ['A', 'D', 'D', 'Y']
  | .addi => ['A', 'D', 'D', 'I']
  | .addm => ['A', 'D', 'D', 'M']
  | .subx => ['S', 'U', 'B', 'X']
  | .suby => ['S', 'U', 'B', 'Y']
  | .subi => ['S', 'U', 'B', 'I']
  | .subm => ['S', 'U', 'B', 'M']
  | .inca => ['I', 'N', 'C', 'A']
  | .incx => ['I', 'N', 'C', 'X']
  | .incy => ['I', 'N', 'C', 'Y']
  | .deca => ['D', 'E', 'C', 'A']
  | .decx => ['D', 'E', 'C', 'X']
  | .decy => ['D', 'E', 'C', 'Y']
  | .shla => ['S', 'H', 'L', 'A']
  | .shra => ['S', 'H', 'R', 'A']
  | .jmp => ['J', 'M', 'P']
  | .jz => ['J', 'Z']
  | .jnz => ['J', 'N', 'Z']
  | .jn => ['J', 'N']
  | .jnn => ['J', 'N', 'N']
  | .jo => ['J', 'O']
  | .jno => ['J', 'N', 'O']
  | .jrf => ['J', 'R', 'F']
  | .jrb => ['J', 'R', 'B']
  | .fill => ['F', 'I', 'L', 'L']
  | .copy => ['C', 'O', 'P', 'Y']
  | .bcmp => ['B', 'C', 'M', 'P']

/-- The instructions: one constructor per row of spec/opcode_table.json, with its operand value. An `imm8` is a
byte "used literally", an `addr16` the unsigned 16-bit value `be16(hi, lo)` (30_encoding.md R61, R62). -/
inductive Instr where
  /-- halt the engine: 43_control.md R191 -/
  | hlt
  /-- load A with an immediate byte: 42_data_movement.md R141 -/
  | ldai (imm8 : Byte)
  /-- load A from a direct address: 42_data_movement.md R142 -/
  | ldam (addr16 : Addr16)
  /-- load A from the indexed address: 42_data_movement.md R143 -/
  | ldaxy
  /-- load A from an offset address: 42_data_movement.md R144 -/
  | ldao (addr16 : Addr16)
  /-- store A at a direct address: 42_data_movement.md R145 -/
  | stam (addr16 : Addr16)
  /-- store A at the indexed address: 42_data_movement.md R146 -/
  | staxy
  /-- store A at an offset address: 42_data_movement.md R147 -/
  | stao (addr16 : Addr16)
  /-- load X with an immediate byte: 42_data_movement.md R148 -/
  | ldxi (imm8 : Byte)
  /-- load X from a direct address: 42_data_movement.md R149 -/
  | ldxm (addr16 : Addr16)
  /-- store X at a direct address: 42_data_movement.md R150 -/
  | stxm (addr16 : Addr16)
  /-- load Y with an immediate byte: 42_data_movement.md R151 -/
  | ldyi (imm8 : Byte)
  /-- load Y from a direct address: 42_data_movement.md R152 -/
  | ldym (addr16 : Addr16)
  /-- store Y at a direct address: 42_data_movement.md R153 -/
  | stym (addr16 : Addr16)
  /-- copy A to X: 42_data_movement.md R154 -/
  | tax
  /-- copy X to A: 42_data_movement.md R155 -/
  | txa
  /-- copy A to Y: 42_data_movement.md R156 -/
  | tay
  /-- copy Y to A: 42_data_movement.md R157 -/
  | tya
  /-- add X to A: 41_arithmetic.md R110 -/
  | addx
  /-- add Y to A: 41_arithmetic.md R111 -/
  | addy
  /-- add an immediate byte to A: 41_arithmetic.md R112 -/
  | addi (imm8 : Byte)
  /-- add a memory byte to A: 41_arithmetic.md R113 -/
  | addm (addr16 : Addr16)
  /-- subtract X from A: 41_arithmetic.md R114 -/
  | subx
  /-- subtract Y from A: 41_arithmetic.md R115 -/
  | suby
  /-- subtract an immediate byte from A: 41_arithmetic.md R116 -/
  | subi (imm8 : Byte)
  /-- subtract a memory byte from A: 41_arithmetic.md R117 -/
  | subm (addr16 : Addr16)
  /-- increment A: 41_arithmetic.md R118 -/
  | inca
  /-- increment X: 41_arithmetic.md R119 -/
  | incx
  /-- increment Y: 41_arithmetic.md R120 -/
  | incy
  /-- decrement A: 41_arithmetic.md R121 -/
  | deca
  /-- decrement X: 41_arithmetic.md R122 -/
  | decx
  /-- decrement Y: 41_arithmetic.md R123 -/
  | decy
  /-- shift A left by one bit: 41_arithmetic.md R124 -/
  | shla
  /-- shift A right by one bit, unsigned: 41_arithmetic.md R125 -/
  | shra
  /-- absolute jump: 43_control.md R182 -/
  | jmp (addr16 : Addr16)
  /-- jump if Zero: 43_control.md R183 -/
  | jz (addr16 : Addr16)
  /-- jump if not Zero: 43_control.md R184 -/
  | jnz (addr16 : Addr16)
  /-- jump if Negative: 43_control.md R185 -/
  | jn (addr16 : Addr16)
  /-- jump if not Negative: 43_control.md R186 -/
  | jnn (addr16 : Addr16)
  /-- jump if Overflow: 43_control.md R187 -/
  | jo (addr16 : Addr16)
  /-- jump if not Overflow: 43_control.md R188 -/
  | jno (addr16 : Addr16)
  /-- relative jump forward by X: 43_control.md R189 -/
  | jrf
  /-- relative jump backward by X: 43_control.md R190 -/
  | jrb
  /-- write one byte value over the run: 44_block.md R211 -/
  | fill (imm8 : Byte)
  /-- copy the run to a direct address: 44_block.md R212 -/
  | copy (addr16 : Addr16)
  /-- compare the run with a second run: 44_block.md R213 -/
  | bcmp (addr16 : Addr16)
  deriving DecidableEq, Repr

/-- The mnemonic of an instruction. -/
def Instr.mnemonic : Instr → Mnemonic
  | .hlt => .hlt
  | .ldai _ => .ldai
  | .ldam _ => .ldam
  | .ldaxy => .ldaxy
  | .ldao _ => .ldao
  | .stam _ => .stam
  | .staxy => .staxy
  | .stao _ => .stao
  | .ldxi _ => .ldxi
  | .ldxm _ => .ldxm
  | .stxm _ => .stxm
  | .ldyi _ => .ldyi
  | .ldym _ => .ldym
  | .stym _ => .stym
  | .tax => .tax
  | .txa => .txa
  | .tay => .tay
  | .tya => .tya
  | .addx => .addx
  | .addy => .addy
  | .addi _ => .addi
  | .addm _ => .addm
  | .subx => .subx
  | .suby => .suby
  | .subi _ => .subi
  | .subm _ => .subm
  | .inca => .inca
  | .incx => .incx
  | .incy => .incy
  | .deca => .deca
  | .decx => .decx
  | .decy => .decy
  | .shla => .shla
  | .shra => .shra
  | .jmp _ => .jmp
  | .jz _ => .jz
  | .jnz _ => .jnz
  | .jn _ => .jn
  | .jnn _ => .jnn
  | .jo _ => .jo
  | .jno _ => .jno
  | .jrf => .jrf
  | .jrb => .jrb
  | .fill _ => .fill
  | .copy _ => .copy
  | .bcmp _ => .bcmp

end Sys2Proof
end

