-- ==== Sys2Proof/Config.lean ====
section
/-! DEFINITION. What an implementation fixes: the parameters `MEM_SIZE`, `CATALOG`, `COPY_OVERLAP` and
`PERIPH_RANGE` (00_scope.md R5 to R8) as plain data, so that the model quantifies over all of them (log 1). -/

namespace Sys2Proof

/-- A set of flags, a subset of Z, N, O, H: the "flags touched" of a descriptor (30_encoding.md R65). -/
structure FlagSet where
  z : Bool
  n : Bool
  o : Bool
  h : Bool
  deriving DecidableEq, Repr

/-- The empty flag set. -/
def FlagSet.empty : FlagSet := ⟨false, false, false, false⟩

/-- `f ⊆ g`, flag by flag. -/
def FlagSet.subset (f g : FlagSet) : Bool :=
  (!f.z || g.z) && (!f.n || g.n) && (!f.o || g.o) && (!f.h || g.h)

/-- A flag that a written rule may read and write. H is none: in a Running core it is false (10_state.md R31), only HLT
declares it, and HLT's rule gives it the one value true (30_encoding.md R66(d)). -/
inductive FlagName where
  | z
  | n
  | o
  deriving DecidableEq, Repr

/-- A register that a rule may write: A, X, Y and PC (30_encoding.md R65, R72). -/
inductive RuleRegister where
  | a
  | x
  | y
  | pc
  deriving DecidableEq, Repr

/-- An operation of a written rule on natural numbers; a comparison gives 1 or 0 (log 2). -/
inductive RuleOp where
  | add
  /-- 0 where the difference would be negative -/
  | monus
  | mul
  | div
  | mod
  | and
  | or
  | xor
  | eq
  | lt
  deriving DecidableEq, Repr

/-- An expression of a written rule: what R72 lets a rule see, but for memory, which a statement reads (log 2). -/
inductive RuleExpr where
  | num (n : Nat)
  /-- A, X, Y, or PC as advanced past the instruction (30_encoding.md R71) -/
  | register (r : RuleRegister)
  /-- 1 where the flag is true -/
  | flag (f : FlagName)
  /-- operand byte `k` (30_encoding.md R71) -/
  | operand (k : Nat)
  /-- `MEM_SIZE` -/
  | memSize
  /-- the local variable `t[index]`, 0 before it is set -/
  | local (index : RuleExpr)
  | apply (op : RuleOp) (left right : RuleExpr)
  deriving DecidableEq, Repr

/-- The pseudocode of a written rule (00_scope.md R12): assignments, `MemRead`, `MemWrite`, a condition, and a loop with a
count fixed at its start (log 2). -/
inductive RuleStmt where
  | skip
  | seq (first second : RuleStmt)
  /-- `t[index] <- value` -/
  | setLocal (index value : RuleExpr)
  /-- `A <- value` and so on, reduced to the register's range -/
  | setRegister (r : RuleRegister) (value : RuleExpr)
  /-- `Z <- value` and so on, any number but 0 being true -/
  | setFlag (f : FlagName) (value : RuleExpr)
  /-- `t[index] <- MemRead(addr, 1)` -/
  | read (index addr : RuleExpr)
  /-- `MemWrite(addr, 1, value)`, the value modulo 256 -/
  | write (addr value : RuleExpr)
  /-- the first where the condition is not 0, else the second -/
  | cond (condition : RuleExpr) (first second : RuleStmt)
  /-- the body `count` times -/
  | loop (count : RuleExpr) (body : RuleStmt)
  deriving DecidableEq, Repr

/-- The execution rule of a descriptor, "a function from the current registers, PC, flags, operand bytes and memory to
updated registers and PC, a value for each flag touched, and the memory writes made" (30_encoding.md R65), as plain
data: one of the 46 rules of 41_arithmetic.md to 44_block.md, or any other, written out (log 2). -/
inductive Rule where
  /-- the rule that R68 gives this mnemonic -/
  | reference (m : Mnemonic)
  /-- a rule of a catalog other than the reference one -/
  | written (body : RuleStmt)
  deriving DecidableEq, Repr

/-- The rule gives `H = true` (30_encoding.md R66(d)): the rule of 43_control.md R191 does, and so does every rule written
out, whose value for H is true where its descriptor declares H (log 2). -/
def Rule.givesHalt : Rule → Bool
  | .reference m => m == .hlt
  | .written _ => true

/-- The rule is the one R68 gives the mnemonic `m`. -/
def Rule.isReference (m : Mnemonic) : Rule → Bool
  | .reference m' => m' == m
  | .written _ => false

/-- An Instruction Descriptor, the record {mnemonic, opcode (unique, 0–255), operand length (0–2 bytes), execution rule, flags
touched} (30_encoding.md R65). -/
structure Descriptor where
  mnemonic : Text
  opcode : Byte
  length : Nat
  rule : Rule
  flags : FlagSet
  deriving DecidableEq, Repr

/-- The Instruction Catalog, the descriptors in the order they are registered (00_scope.md R6, 30_encoding.md
R65). -/
abbrev Catalog := List Descriptor

/-- What COPY does when its runs overlap (00_scope.md R7, 44_block.md R214). -/
inductive CopyOverlap where
  /-- the destination receives the source bytes as they stood before the step -/
  | snapshot
  /-- each write can change a source byte that a later iteration reads -/
  | forward
  deriving DecidableEq, Repr

/-- The peripheral's address range `[base, base + len)`, possibly empty (00_scope.md R8). -/
structure PeriphRange where
  base : Nat
  len : Nat
  deriving DecidableEq, Repr

/-- The address lies in the range. -/
def PeriphRange.contains (r : PeriphRange) (addr : Nat) : Bool :=
  decide (r.base ≤ addr) && decide (addr < r.base + r.len)

/-- The parameters of one instance, fixed for its life (00_scope.md R5 to R8; 70_reset_and_hazards.md R271). -/
structure Params where
  /-- `MEM_SIZE`, 4096 to 65536 (00_scope.md R5) -/
  memSize : Nat
  /-- `CATALOG` (00_scope.md R6) -/
  catalog : Catalog
  /-- `COPY_OVERLAP` (00_scope.md R7) -/
  copyOverlap : CopyOverlap
  /-- `PERIPH_RANGE` (00_scope.md R8) -/
  periph : PeriphRange
  deriving DecidableEq, Repr

/-- The flags each of the 46 rules yields a value for: Z and O of `AddOp` and `ShlOp`, Z and N of `SubOp`, Z of `ShrOp`,
Z of BCMP, H of HLT (41_arithmetic.md R100 to R103, 44_block.md R213, 43_control.md R191); and for an instruction that
is no subtraction and writes a byte to a register, N as bit 7 of it (R104) and Z as its being 0 (the general Zero law
R100 quotes). DEDUCED for the loads and transfers (log 3). -/
def Mnemonic.computedFlags : Mnemonic → FlagSet
  | .hlt => ⟨false, false, false, true⟩
  | .addx | .addy | .addi | .addm | .inca | .incx | .incy | .shla => ⟨true, true, true, false⟩
  | .subx | .suby | .subi | .subm | .deca | .decx | .decy | .shra => ⟨true, true, false, false⟩
  | .ldai | .ldam | .ldaxy | .ldao | .ldxi | .ldxm | .ldyi | .ldym => ⟨true, true, false, false⟩
  | .tax | .txa | .tay | .tya => ⟨true, true, false, false⟩
  | .stam | .staxy | .stao | .stxm | .stym => .empty
  | .jmp | .jz | .jnz | .jn | .jnn | .jo | .jno | .jrf | .jrb => .empty
  | .fill | .copy => .empty
  | .bcmp => ⟨true, false, false, false⟩

end Sys2Proof
end

