-- ==== Sys2Proof/WellFormed.lean ====
section
/-! DEFINITION. The checks on what an instance is built from: a well-formed catalog (30_encoding.md R65, R66), memory
size in range (00_scope.md R5), and an instruction that a catalog registers. Each is a Bool. -/

namespace Sys2Proof

/-- No two descriptors share an opcode: R66(a), violated by an `OpcodeCollision`. -/
def Catalog.opcodesUnique : Catalog → Bool
  | [] => true
  | d :: ds => ds.all (fun e => e.opcode != d.opcode) && Catalog.opcodesUnique ds

/-- No two descriptors share a mnemonic: R66(b). -/
def Catalog.mnemonicsUnique : Catalog → Bool
  | [] => true
  | d :: ds => ds.all (fun e => e.mnemonic != d.mnemonic) && Catalog.mnemonicsUnique ds

/-- Every length is 0, 1 or 2: R66(c). -/
def Catalog.lengthsLegal (c : Catalog) : Bool :=
  c.all fun d => decide (d.length ≤ 2)

/-- "`H` is in a descriptor's flags exactly when it is the halt instruction HLT, whose rule gives `H = true`": R66(d).
HLT is the descriptor of that mnemonic, of whatever length and with whatever other flags. -/
def Catalog.haltDeclared (c : Catalog) : Bool :=
  c.all fun d => (d.flags.h == (d.mnemonic == Mnemonic.hlt.name)) && (!d.flags.h || d.rule.givesHalt)

/-- The descriptor's rule is a function of its operand bytes that yields "a value for each flag touched" (R65). One of
the 46 rules reads the operand of its own format and yields the values of `Mnemonic.computedFlags` (log 3); a written
rule reads what it is given and yields a value for every flag. -/
def Descriptor.ruleFits (d : Descriptor) : Bool :=
  match d.rule with
  | .reference m => (d.length == m.operandLength) && d.flags.subset m.computedFlags
  | .written _ => true

/-- Every rule fits its descriptor (R65). -/
def Catalog.rulesFit (c : Catalog) : Bool := c.all Descriptor.ruleFits

/-- A well-formed catalog: checks (a) to (d) of R66, over descriptors that are the records R65 describes. -/
def Catalog.wf (c : Catalog) : Bool :=
  c.opcodesUnique && c.mnemonicsUnique && c.lengthsLegal && c.haltDeclared && c.rulesFit

/-- `MEM_SIZE` is an integer from 4096 to 65536, power of two or not (00_scope.md R5). -/
def Params.memSizeInRange (p : Params) : Bool :=
  decide (4096 ≤ p.memSize) && decide (p.memSize ≤ 65536)

/-- The parameters an instance can be built from (00_scope.md R5, R6). -/
def Params.wf (p : Params) : Bool :=
  p.memSizeInRange && p.catalog.wf

/-- An instruction is well-formed for a catalog that registers its rule. Its operands need no check: "every byte value
is legal in every operand position" (30_encoding.md R69). -/
def Instr.wf (c : Catalog) (i : Instr) : Bool :=
  c.any fun d => d.rule.isReference i.mnemonic

end Sys2Proof
end

