-- ==== Sys2Proof/Decode.lean ====
section
/-! DEFINITION. The reference catalog (30_encoding.md R68), the lookup (R67), the decoder from any bytes (R60 to R63,
R70), the encoder, and the host's `decodeTableWord`. -/

namespace Sys2Proof

/-- Declared flags {H} (30_encoding.md R68). -/
def touchesH : FlagSet := ⟨false, false, false, true⟩
/-- Declared flags {Z, O} (30_encoding.md R68). -/
def touchesZO : FlagSet := ⟨true, false, true, false⟩
/-- Declared flags {Z, N} (30_encoding.md R68). -/
def touchesZN : FlagSet := ⟨true, true, false, false⟩
/-- Declared flags {Z} (30_encoding.md R68). -/
def touchesZ : FlagSet := ⟨true, false, false, false⟩

/-- The descriptor of a row of R68: the opcode and the flags are the row's, the rest is the mnemonic's. -/
def Descriptor.ofRow (m : Mnemonic) (opcode : Byte) (flags : FlagSet) : Descriptor where
  mnemonic := m.name
  opcode := opcode
  length := m.operandLength
  rule := .reference m
  flags := flags

/-- Rows 0x01: halt (30_encoding.md R68). -/
def Catalog.haltRows : Catalog := [
  .ofRow .hlt 0x01 touchesH]

/-- Rows 0x10 to 0x23: data movement (30_encoding.md R68). -/
def Catalog.dataRows : Catalog := [
  .ofRow .ldai 0x10 .empty,
  .ofRow .ldam 0x11 .empty,
  .ofRow .ldaxy 0x12 .empty,
  .ofRow .ldao 0x13 .empty,
  .ofRow .stam 0x14 .empty,
  .ofRow .staxy 0x15 .empty,
  .ofRow .stao 0x16 .empty,
  .ofRow .ldxi 0x18 .empty,
  .ofRow .ldxm 0x19 .empty,
  .ofRow .stxm 0x1A .empty,
  .ofRow .ldyi 0x1C .empty,
  .ofRow .ldym 0x1D .empty,
  .ofRow .stym 0x1E .empty,
  .ofRow .tax 0x20 .empty,
  .ofRow .txa 0x21 .empty,
  .ofRow .tay 0x22 .empty,
  .ofRow .tya 0x23 .empty]

/-- Rows 0x30 to 0x3F: arithmetic and shifts (30_encoding.md R68). -/
def Catalog.arithRows : Catalog := [
  .ofRow .addx 0x30 touchesZO,
  .ofRow .addy 0x31 touchesZO,
  .ofRow .addi 0x32 touchesZO,
  .ofRow .addm 0x33 touchesZO,
  .ofRow .subx 0x34 touchesZN,
  .ofRow .suby 0x35 touchesZN,
  .ofRow .subi 0x36 touchesZN,
  .ofRow .subm 0x37 touchesZN,
  .ofRow .inca 0x38 touchesZO,
  .ofRow .incx 0x39 touchesZO,
  .ofRow .incy 0x3A touchesZO,
  .ofRow .deca 0x3B touchesZN,
  .ofRow .decx 0x3C touchesZN,
  .ofRow .decy 0x3D touchesZN,
  .ofRow .shla 0x3E touchesZO,
  .ofRow .shra 0x3F touchesZ]

/-- Rows 0x40 to 0x48: jumps (30_encoding.md R68). -/
def Catalog.jumpRows : Catalog := [
  .ofRow .jmp 0x40 .empty,
  .ofRow .jz 0x41 .empty,
  .ofRow .jnz 0x42 .empty,
  .ofRow .jn 0x43 .empty,
  .ofRow .jnn 0x44 .empty,
  .ofRow .jo 0x45 .empty,
  .ofRow .jno 0x46 .empty,
  .ofRow .jrf 0x47 .empty,
  .ofRow .jrb 0x48 .empty]

/-- Rows 0x50 to 0x52: block instructions (30_encoding.md R68). -/
def Catalog.blockRows : Catalog := [
  .ofRow .fill 0x50 .empty,
  .ofRow .copy 0x51 .empty,
  .ofRow .bcmp 0x52 touchesZ]

/-- The reference catalog of 46 instructions, this spec's own choice (30_encoding.md R68; UNVERIFIED of a real PyCPU,
log 16). -/
def Catalog.reference : Catalog :=
  Catalog.haltRows ++ Catalog.dataRows ++ Catalog.arithRows ++ Catalog.jumpRows ++ Catalog.blockRows

/-- `lookup(opcode)`: the descriptor registered for the opcode, if any (30_encoding.md R67). -/
def Catalog.lookup : Catalog → Byte → Option Descriptor
  | [], _ => none
  | d :: ds, op => if d.opcode = op then some d else Catalog.lookup ds op

/-- The first descriptor with the rule that R68 gives a mnemonic, if the catalog registers one. -/
def Catalog.descriptorOf : Catalog → Mnemonic → Option Descriptor
  | [], _ => none
  | d :: ds, m => if d.rule.isReference m then some d else Catalog.descriptorOf ds m

/-- `be16(hi, lo) = hi * 256 + lo`, high byte first (00_scope.md R12, 20_memory.md R44). -/
def be16 (hi lo : Byte) : Addr16 := hi ++ lo

/-- The high byte of a 16-bit value, bits 15 to 8 (30_encoding.md R61). -/
def hiByte (v : Addr16) : Byte := v.extractLsb' 8 8

/-- The low byte of a 16-bit value, bits 7 to 0 (30_encoding.md R61). -/
def loByte (v : Addr16) : Byte := v.extractLsb' 0 8

/-- Why the decoder reads no instruction. -/
inductive DecodeError where
  /-- there is no byte to decode: the caller gave none (never raised by a step, which always has bytes; safe) -/
  | noBytes
  /-- `lookup` fails: the exception UnknownOpcode of 30_encoding.md R67, R70 (safe: the spec's own outcome) -/
  | unknownOpcode (op : Byte)
  /-- fewer operand bytes than the descriptor's length follow (never raised by a step; safe) -/
  | missingOperand (mnemonic : Text)
  /-- the descriptor's rule is none of the 46 of R68, so no `Instr` stands for it; raised by `decodeWith` alone, and a
  step runs such an instruction all the same (safe) -/
  | writtenRule (mnemonic : Text)
  deriving DecidableEq, Repr

/-- What the fetch of an instruction yields: its descriptor and its operand bytes (30_encoding.md R70, R71). -/
structure Fetched where
  descriptor : Descriptor
  operands : List Byte
  deriving DecidableEq, Repr

/-- The bytes of a fetched instruction: its opcode, then its operand bytes (30_encoding.md R60). -/
def Fetched.bytes (f : Fetched) : List Byte := f.descriptor.opcode :: f.operands

/-- The instruction of a rule of R68 with its operand bytes: `imm8` is byte 1 "used literally", `addr16` is
`be16(byte 1, byte 2)` (30_encoding.md R61, R62). A byte beyond the operands given is taken as 0, which no descriptor
of a well-formed catalog needs. -/
def Mnemonic.instr (operands : List Byte) : Mnemonic → Instr
  | .hlt => .hlt
  | .ldai => .ldai (operands.getD 0 0)
  | .ldam => .ldam (be16 (operands.getD 0 0) (operands.getD 1 0))
  | .ldaxy => .ldaxy
  | .ldao => .ldao (be16 (operands.getD 0 0) (operands.getD 1 0))
  | .stam => .stam (be16 (operands.getD 0 0) (operands.getD 1 0))
  | .staxy => .staxy
  | .stao => .stao (be16 (operands.getD 0 0) (operands.getD 1 0))
  | .ldxi => .ldxi (operands.getD 0 0)
  | .ldxm => .ldxm (be16 (operands.getD 0 0) (operands.getD 1 0))
  | .stxm => .stxm (be16 (operands.getD 0 0) (operands.getD 1 0))
  | .ldyi => .ldyi (operands.getD 0 0)
  | .ldym => .ldym (be16 (operands.getD 0 0) (operands.getD 1 0))
  | .stym => .stym (be16 (operands.getD 0 0) (operands.getD 1 0))
  | .tax => .tax
  | .txa => .txa
  | .tay => .tay
  | .tya => .tya
  | .addx => .addx
  | .addy => .addy
  | .addi => .addi (operands.getD 0 0)
  | .addm => .addm (be16 (operands.getD 0 0) (operands.getD 1 0))
  | .subx => .subx
  | .suby => .suby
  | .subi => .subi (operands.getD 0 0)
  | .subm => .subm (be16 (operands.getD 0 0) (operands.getD 1 0))
  | .inca => .inca
  | .incx => .incx
  | .incy => .incy
  | .deca => .deca
  | .decx => .decx
  | .decy => .decy
  | .shla => .shla
  | .shra => .shra
  | .jmp => .jmp (be16 (operands.getD 0 0) (operands.getD 1 0))
  | .jz => .jz (be16 (operands.getD 0 0) (operands.getD 1 0))
  | .jnz => .jnz (be16 (operands.getD 0 0) (operands.getD 1 0))
  | .jn => .jn (be16 (operands.getD 0 0) (operands.getD 1 0))
  | .jnn => .jnn (be16 (operands.getD 0 0) (operands.getD 1 0))
  | .jo => .jo (be16 (operands.getD 0 0) (operands.getD 1 0))
  | .jno => .jno (be16 (operands.getD 0 0) (operands.getD 1 0))
  | .jrf => .jrf
  | .jrb => .jrb
  | .fill => .fill (operands.getD 0 0)
  | .copy => .copy (be16 (operands.getD 0 0) (operands.getD 1 0))
  | .bcmp => .bcmp (be16 (operands.getD 0 0) (operands.getD 1 0))

/-- The instruction of the table that a fetched instruction is, if its rule is one of the 46. -/
def Fetched.instr (f : Fetched) : Option Instr :=
  match f.descriptor.rule with
  | .reference m => some (m.instr f.operands)
  | .written _ => none

/-- The decoder of a catalog, total on any bytes: the first byte alone decides the descriptor and the length
(30_encoding.md R63). It answers the fetched instruction and the bytes after it. -/
def decodeFetched (c : Catalog) : List Byte → Except DecodeError (Fetched × List Byte)
  | [] => .error .noBytes
  | op :: rest =>
    match c.lookup op with
    | none => .error (.unknownOpcode op)
    | some d =>
      if rest.length < d.length then .error (.missingOperand d.mnemonic)
      else .ok (⟨d, rest.take d.length⟩, rest.drop d.length)

/-- The decoder of a catalog to the instructions of the table. -/
def decodeWith (c : Catalog) (bytes : List Byte) : Except DecodeError (Instr × List Byte) :=
  match decodeFetched c bytes with
  | .error e => .error e
  | .ok (f, rest) =>
    match f.instr with
    | some i => .ok (i, rest)
    | none => .error (.writtenRule f.descriptor.mnemonic)

/-- The decoder of the reference catalog. -/
def decode (bytes : List Byte) : Except DecodeError (Instr × List Byte) :=
  decodeWith Catalog.reference bytes

/-- The operand bytes of an instruction: none, `imm8`, or `hi` and `lo` in that order (30_encoding.md R61). -/
def Instr.operandBytes : Instr → List Byte
  | .hlt | .ldaxy | .staxy | .tax | .txa | .tay | .tya | .addx | .addy | .subx | .suby | .inca
  | .incx | .incy | .deca | .decx | .decy | .shla | .shra | .jrf | .jrb => []
  | .ldai imm8 | .ldxi imm8 | .ldyi imm8 | .addi imm8 | .subi imm8 | .fill imm8 => [imm8]
  | .ldam addr16 | .ldao addr16 | .stam addr16 | .stao addr16 | .ldxm addr16 | .stxm addr16
  | .ldym addr16 | .stym addr16 | .addm addr16 | .subm addr16 | .jmp addr16 | .jz addr16
  | .jnz addr16 | .jn addr16 | .jnn addr16 | .jo addr16 | .jno addr16 | .copy addr16 | .bcmp addr16 => [hiByte addr16, loByte addr16]

/-- The bytes of an instruction in a catalog: the opcode of the first descriptor with its rule, then its operand bytes;
none where the catalog registers none. -/
def encodeWith (c : Catalog) (i : Instr) : Option (List Byte) :=
  (c.descriptorOf i.mnemonic).map fun d => d.opcode :: i.operandBytes

/-- The bytes of an instruction in the reference catalog, which registers every mnemonic. -/
def encode (i : Instr) : List Byte :=
  (encodeWith Catalog.reference i).getD []

/-- Byte `k` of a number whose bits 7 to 0 are byte 0. -/
def byteOfNat (w k : Nat) : Byte := BitVec.ofNat 8 (w / 256 ^ k)

/-- The three bytes of an instruction written as one number, the first byte in bits 7 to 0, every bit from `nbits`
up taken as 0. -/
def bytesOfTableWord (nbits w : Nat) : List Byte :=
  let v := w % 2 ^ nbits
  [byteOfNat v 0, byteOfNat v 1, byteOfNat v 2]

/-- The instruction the decoder reads from an instruction whose bits are `w`, numbered as spec/opcode_table.json
numbers them. -/
def decodeTableWord (nbits w : Nat) : Option Instr :=
  match decode (bytesOfTableWord nbits w) with
  | .ok (i, _) => some i
  | .error _ => none

end Sys2Proof
end

