-- ==== Sys2Proof/Machine/State.lean ====
section
/-! DEFINITION. The machine's state as plain data (10_state.md R20), its value after reset (R37), and the reasons a
step can stop. -/

namespace Sys2Proof.Machine

/-- The four flags, "four independent booleans {Zero, Negative, Overflow, Halt}" (10_state.md R26). -/
structure Flags where
  z : Bool
  n : Bool
  o : Bool
  h : Bool
  deriving DecidableEq, Repr

/-- The engine status (10_state.md R31). -/
inductive Status where
  /-- steps may run; entered by reset -/
  | running
  /-- terminal; entered at step 5 of the cycle when H is set -/
  | halted
  /-- terminal, state inspectable; entered by UnknownOpcode -/
  | faulted
  deriving DecidableEq, Repr

/-- The memory `M` (20_memory.md R40) as address and byte pairs in one canonical form: addresses strictly rising, no
listed byte equal to what an unlisted address reads as, which is the reset value 0 (10_state.md R37; log 7). The
check is `Memory.wf`. -/
abbrev Memory := List Host.Cell

/-- The architectural state `(A, X, Y, PC, Z, N, O, H, M, status, steps)` of one core (10_state.md R20), and beside
it the parameters of the instance, which no step changes (70_reset_and_hazards.md R271; log 1). -/
structure State where
  /-- the parameters `MEM_SIZE`, `CATALOG`, `COPY_OVERLAP`, `PERIPH_RANGE` of the instance (log 1) -/
  params : Params
  /-- register A (10_state.md R21) -/
  a : Byte
  /-- register X (10_state.md R21) -/
  x : Byte
  /-- register Y (10_state.md R21) -/
  y : Byte
  /-- the program counter: between steps, the address of the next opcode to fetch (10_state.md R24) -/
  pc : Addr16
  /-- Z, N, O and H (10_state.md R26) -/
  flags : Flags
  /-- the memory M (20_memory.md R40) -/
  mem : Memory
  /-- the engine status (10_state.md R31) -/
  status : Status
  /-- the step counter, which has no width limit (10_state.md R32) -/
  steps : Nat
  deriving DecidableEq, Repr

/-- Why a step does not exist. Both are raised by `step` alone, on a status that has no successor
(30_encoding.md R77; log 5); both are safe: the spec has no step there either. -/
inductive Fault where
  /-- raised by `step` in Halted: "no further steps run" (30_encoding.md R74, R77); safe -/
  | halted
  /-- raised by `step` in Faulted, which has no successor step (60_exceptions.md R242); safe -/
  | faulted
  deriving DecidableEq, Repr

/-- Why an instruction has no meaning here. No arm of `exec` answers one: every instruction of the table has its
meaning. -/
inductive Refusal where
  /-- raised by an arm of `exec` whose instruction has no meaning yet; safe. No arm is left that raises it. -/
  | notModelled (mnemonic : String)
  deriving DecidableEq, Repr

/-- What one step or one instruction answers. -/
abbrev Result := Host.Outcome State Fault Refusal

/-- The flags after reset: all false (10_state.md R37). -/
def Flags.reset : Flags := ⟨false, false, false, false⟩

/-- The state of an instance right after reset: everything zero, status Running (10_state.md R37,
70_reset_and_hazards.md R270), for any parameters. -/
def State.init (p : Params) : State where
  params := p
  a := 0
  x := 0
  y := 0
  pc := 0
  flags := Flags.reset
  mem := []
  status := .running
  steps := 0

/-- The parameters of the instance `State.reset` names: `MEM_SIZE` 65536 as 95_test_vectors.md assumes unless it
says otherwise, the reference catalog and the reference value of `COPY_OVERLAP` (00_scope.md R6, R7), and no
peripheral. DESIGN CHOICE (log 1): the spec leaves all four open, and nothing but `State.reset` uses this choice. -/
def referenceParams : Params where
  memSize := 65536
  catalog := Catalog.reference
  copyOverlap := .snapshot
  periph := ⟨0, 0⟩

/-- The machine right after reset, for the reference parameters (10_state.md R37; log 1). -/
def State.reset : State := State.init referenceParams

end Sys2Proof.Machine
end

