-- ==== Sys2Proof/Machine/Flags.lean ====
section
/-! DEFINITION. The ALU operations and every flag computation (41_arithmetic.md R100 to R104), and the commit of the
declared flags (30_encoding.md R73). -/

namespace Sys2Proof.Machine

/-- The values an execution rule yields for the flags; `none` where the rule yields no value (30_encoding.md R72). -/
structure FlagValues where
  z : Option Bool
  n : Option Bool
  o : Option Bool
  h : Option Bool
  deriving DecidableEq, Repr

/-- A rule that yields no flag value: stores, jumps, FILL, COPY (10_state.md R28). -/
def FlagValues.none : FlagValues := ⟨.none, .none, .none, .none⟩

/-- The general law for N of an instruction that is not a subtraction: bit 7 of its 8-bit result, committed only
where a catalog other than the reference one declares N for it (41_arithmetic.md R104). -/
def highBit (res : Byte) : Bool := res.msb

/-- The Zero law: the wrapped 8-bit result equals 0 (41_arithmetic.md R100). -/
def isZero (res : Byte) : Bool := res == 0

/-- The result of an ALU operation with the flag values it yields. -/
structure AluResult where
  res : Byte
  values : FlagValues
  deriving DecidableEq, Repr

/-- `AddOp(a, b)`: the sum modulo 256, Z, and O when the unwrapped sum exceeds 255 (41_arithmetic.md R100, R105). -/
def addOp (a b : Byte) : AluResult :=
  let raw := a.toNat + b.toNat
  let res := BitVec.ofNat 8 raw
  { res := res
    values := { z := some (isZero res), n := some (highBit res), o := some (decide (255 < raw)), h := .none } }

/-- `SubOp(a, b)`: the difference modulo 256, Z, and N when the unwrapped difference is negative
(41_arithmetic.md R101, 90_conflicts.md C1). -/
def subOp (a b : Byte) : AluResult :=
  let raw : Int := (a.toNat : Int) - (b.toNat : Int)
  let res := BitVec.ofInt 8 raw
  { res := res
    values := { z := some (isZero res), n := some (decide (raw < 0)), o := .none, h := .none } }

/-- `ShlOp(a)`: double, modulo 256, Z, and O when doubling exceeds 255 (41_arithmetic.md R102). -/
def shlOp (a : Byte) : AluResult :=
  let raw := 2 * a.toNat
  let res := BitVec.ofNat 8 raw
  { res := res
    values := { z := some (isZero res), n := some (highBit res), o := some (decide (255 < raw)), h := .none } }

/-- `ShrOp(a)`: halve, unsigned, and Z (41_arithmetic.md R103). -/
def shrOp (a : Byte) : AluResult :=
  let res := BitVec.ofNat 8 (a.toNat / 2)
  { res := res
    values := { z := some (isZero res), n := some (highBit res), o := .none, h := .none } }

/-- The flag values of a load or transfer that puts `res` in a register: the reference catalog declares no flag for it
(42_data_movement.md R140); where another catalog does, Z is the general Zero law (41_arithmetic.md R100) and N the
general law of R104 (DEDUCED, log 3). -/
def movedValues (res : Byte) : FlagValues :=
  { z := some (isZero res), n := some (highBit res), o := .none, h := .none }

/-- The flag value of BCMP: Z (44_block.md R213). -/
def compareValues (eq : Bool) : FlagValues :=
  { z := some eq, n := .none, o := .none, h := .none }

/-- The flag value of HLT: H is true, "unconditionally" (43_control.md R191). -/
def haltValues : FlagValues :=
  { z := .none, n := .none, o := .none, h := some true }

/-- One flag after the commit: the rule's value where the descriptor declares the flag, else the prior value
(30_encoding.md R73). A declared flag without a value does not occur in a well-formed catalog (log 3). -/
def commitFlag (declared : Bool) (value : Option Bool) (prior : Bool) : Bool :=
  if declared then value.getD prior else prior

/-- The flags after the commit of step 4: "commit only the flags the descriptor declares" (30_encoding.md R73,
10_state.md R27). -/
def Flags.commit (declared : FlagSet) (v : FlagValues) (f : Flags) : Flags where
  z := commitFlag declared.z v.z f.z
  n := commitFlag declared.n v.n f.n
  o := commitFlag declared.o v.o f.o
  h := commitFlag declared.h v.h f.h

/-- The flags as the host port presents them, `Z*1 + N*2 + O*4 + H*8` (10_state.md R30). -/
def Flags.packed (f : Flags) : Nat :=
  f.z.toNat + f.n.toNat * 2 + f.o.toNat * 4 + f.h.toNat * 8

end Sys2Proof.Machine
end

