-- ==== Sys2Proof/Machine/Ops.lean ====
section
/-! DEFINITION. The operations over memory and registers, the engine's steps 1, 2, 4 and 5 (30_encoding.md R70 to R75),
and the exception UnknownOpcode (60_exceptions.md R241). -/

namespace Sys2Proof.Machine

/-- The byte at an address; an unlisted address reads as the reset value 0 (10_state.md R37; log 7). -/
def Memory.read : Memory → Nat → Byte
  | [], _ => 0#8
  | (b, v) :: m, addr => if b = addr then v else Memory.read m addr

/-- The memory with one byte stored, in canonical form: storing 0 removes the entry (20_memory.md R42; log 7). -/
def Memory.write : Memory → Nat → Byte → Memory
  | [], addr, v => if v = 0#8 then [] else [(addr, v)]
  | (b, w) :: m, addr, v =>
    if addr < b then
      if v = 0#8 then (b, w) :: m else (addr, v) :: (b, w) :: m
    else if addr = b then
      if v = 0#8 then m else (addr, v) :: m
    else (b, w) :: Memory.write m addr v

/-- The listed addresses are at least `lo` and strictly rising, and no listed byte is 0. -/
def Memory.wfFrom : Nat → Memory → Bool
  | _, [] => true
  | lo, (b, v) :: m => decide (lo ≤ b) && v != 0#8 && Memory.wfFrom (b + 1) m

/-- The canonical form: addresses strictly rising and no entry equal to what an unlisted address reads as. -/
def Memory.wf (m : Memory) : Bool := Memory.wfFrom 0 m

/-- Every listed address is an address of the memory, below `size` (20_memory.md R40). -/
def Memory.within (size : Nat) (m : Memory) : Bool := m.all fun c => decide (c.1 < size)

/-- `addr mod MEM_SIZE`: "all reads/writes wrap (address modulo size)" (20_memory.md R41). -/
def State.wrap (s : State) (addr : Nat) : Nat := addr % s.params.memSize

/-- `MemRead(addr, 1)` (20_memory.md R41). -/
def State.memRead (s : State) (addr : Nat) : Byte := Memory.read s.mem (s.wrap addr)

/-- `MemWrite(addr, 1, v)` (20_memory.md R42). -/
def State.memWrite (s : State) (addr : Nat) (v : Byte) : State :=
  { s with mem := Memory.write s.mem (s.wrap addr) v }

/-- `A <- v` (00_scope.md R12). -/
def State.setA (s : State) (v : Byte) : State := { s with a := v }

/-- `X <- v` (00_scope.md R12). -/
def State.setX (s : State) (v : Byte) : State := { s with x := v }

/-- `Y <- v` (00_scope.md R12). -/
def State.setY (s : State) (v : Byte) : State := { s with y := v }

/-- `pc <- target mod MEM_SIZE`: every write to PC is reduced (10_state.md R24, 43_control.md R181). -/
def State.setPc (s : State) (target : Nat) : State := { s with pc := BitVec.ofNat 16 (s.wrap target) }

/-- `pc <- target mod MEM_SIZE` for a target that may be negative (00_scope.md R11, 43_control.md R190). -/
def State.setPcInt (s : State) (target : Int) : State :=
  { s with pc := BitVec.ofNat 16 (target % (s.params.memSize : Int)).toNat }

/-- Step 2's advance: `PC <- (pc0 + 1 + L) mod MEM_SIZE`, before the body runs (30_encoding.md R71). -/
def State.advanceBy (s : State) (length : Nat) : State := s.setPc (s.pc.toNat + 1 + length)

/-- Step 2's advance past an instruction of the table (30_encoding.md R71). -/
def State.advance (s : State) (m : Mnemonic) : State := s.advanceBy m.operandLength

/-- The descriptor registered for the opcode byte at PC (30_encoding.md R67, R70). -/
def State.descriptorAtPc (s : State) : Option Descriptor := s.params.catalog.lookup (s.memRead s.pc.toNat)

/-- The descriptor by which an instruction of the table runs: the one the byte at PC looks up; and where that is not of
the instruction's rule, so that no step runs the instruction here, the first one of its rule (30_encoding.md R65, R70;
log 14). -/
def State.descriptorFor (s : State) (m : Mnemonic) : Option Descriptor :=
  match s.descriptorAtPc with
  | some d => if d.rule.isReference m then some d else s.params.catalog.descriptorOf m
  | none => s.params.catalog.descriptorOf m

/-- The flags that the descriptor of an instruction declares (10_state.md R27, 30_encoding.md R65). -/
def State.declared (s : State) (m : Mnemonic) : FlagSet :=
  match s.descriptorFor m with
  | some d => d.flags
  | none => .empty

/-- Step 4's commit of the declared flags: each of the others has its value from before the step (30_encoding.md
R73). -/
def State.commit (s : State) (declared : FlagSet) (prior : Flags) (v : FlagValues) : State :=
  { s with flags := prior.commit declared v }

/-- The step count: a step that reaches step 4 increases it by 1 (30_encoding.md R75). -/
def State.countStep (s : State) : State := { s with steps := s.steps + 1 }

/-- Step 5, the halt check: with H set the status becomes Halted (30_encoding.md R74). -/
def State.haltCheck (s : State) : State :=
  { s with status := if s.flags.h then .halted else s.status }

/-- Steps 4 and 5 after a body has run, leaving `body` and yielding the flag values `v` (30_encoding.md R73 to
R75). -/
def complete (declared : FlagSet) (prior : Flags) (v : FlagValues) (body : State) : Result :=
  .next ((body.commit declared prior v).countStep.haltCheck)

/-- Steps 4 and 5 after the body of `m` has run from `s`, leaving `body` and yielding the flag values `v`. -/
def finish (m : Mnemonic) (s body : State) (v : FlagValues) : Result :=
  complete (s.declared m) s.flags v body

/-- Taking the exception UnknownOpcode: the status becomes Faulted, nothing else changes, and there is no handler
and no return (60_exceptions.md R241, R242; log 4). -/
def raiseUnknownOpcode (s : State) : State := { s with status := .faulted }

/-- The fault record the host can read while the status is Faulted (10_state.md R33, 60_exceptions.md R245). -/
structure FaultRecord where
  /-- 1 for UnknownOpcode, the only cause (60_exceptions.md R240, R245) -/
  cause : Nat
  /-- the opcode byte that failed lookup -/
  opcode : Byte
  /-- its address, which equals PC -/
  pc : Addr16
  deriving DecidableEq, Repr

/-- The fault record, a function of the state: present only in Faulted (10_state.md R33, R37). -/
def State.faultRecord (s : State) : Option FaultRecord :=
  match s.status with
  | .faulted => some { cause := 1, opcode := s.memRead s.pc.toNat, pc := s.pc }
  | .running | .halted => none

/-- The status code at the host port (10_state.md R31). -/
def Status.code : Status → Nat
  | .running => 0
  | .halted => 1
  | .faulted => 2

/-- `len` bytes from an address on, in ascending order, wrapping at `MEM_SIZE` (20_memory.md R44, R45). -/
def State.bytesFrom (s : State) : Nat → Nat → List Byte
  | _, 0 => []
  | addr, len + 1 => s.memRead addr :: s.bytesFrom (addr + 1) len

/-- Steps 1 and 2: the descriptor registered for the byte at PC, with the operand bytes that follow it, or none where
`lookup` fails (30_encoding.md R70, R71; 20_memory.md R45). -/
def State.fetch (s : State) : Option Fetched :=
  s.descriptorAtPc.map fun d => { descriptor := d, operands := s.bytesFrom (s.pc.toNat + 1) d.length }

/-- One access of one byte (20_memory.md R43) at an address already reduced modulo `MEM_SIZE`. -/
inductive Access where
  /-- a read that returned `v` -/
  | read (addr : Nat) (v : Byte)
  /-- a write of `v` -/
  | write (addr : Nat) (v : Byte)
  deriving DecidableEq, Repr

/-- The access `MemRead(addr, 1)` makes (20_memory.md R41). -/
def State.readAccess (s : State) (addr : Nat) : Access := .read (s.wrap addr) (s.memRead addr)

/-- The access `MemWrite(addr, 1, v)` makes (20_memory.md R42). -/
def State.writeAccess (s : State) (addr : Nat) (v : Byte) : Access := .write (s.wrap addr) v

/-- Bytes stored one after another from an address on, wrapping at `MEM_SIZE`, in ascending order. -/
def State.storeBytes (s : State) (addr : Nat) : List Byte → State
  | [] => s
  | v :: vs => State.storeBytes (s.memWrite addr v) (addr + 1) vs

end Sys2Proof.Machine
end

