-- ==== Sys2Proof/Machine/Operands.lean ====
section
/-! DEFINITION. The effective addresses of the addressing modes (20_memory.md R50 to R53) and the jump targets
(43_control.md R181, R189, R190). Immediate mode has no effective address: the operand byte is the value (R50). -/

namespace Sys2Proof.Machine

/-- Direct mode: `be16(hi, lo) mod MEM_SIZE` (20_memory.md R51). -/
def State.eaDirect (s : State) (addr16 : Addr16) : Nat := addr16.toNat % s.params.memSize

/-- Indexed mode: `(X + 256 * Y) mod MEM_SIZE` (20_memory.md R52). -/
def State.eaIndexed (s : State) : Nat := (s.x.toNat + 256 * s.y.toNat) % s.params.memSize

/-- Offset mode: `(be16(hi, lo) + X) mod MEM_SIZE`, the sum at full width (20_memory.md R53). -/
def State.eaOffset (s : State) (addr16 : Addr16) : Nat := (addr16.toNat + s.x.toNat) % s.params.memSize

/-- A jump to a direct address (43_control.md R181, R182). -/
def State.jumpTo (s : State) (addr16 : Addr16) : State := s.setPc addr16.toNat

/-- A jump to a direct address when the condition holds; otherwise PC stays as advanced (43_control.md R180). -/
def State.jumpIf (s : State) (cond : Bool) (addr16 : Addr16) : State :=
  if cond then s.jumpTo addr16 else s

/-- `pc <- (pc + X) mod MEM_SIZE`, with `pc` already advanced (43_control.md R189). -/
def State.jumpForward (s : State) : State := s.setPc (s.pc.toNat + s.x.toNat)

/-- `pc <- (pc - X) mod MEM_SIZE`, with `pc` already advanced (43_control.md R190). -/
def State.jumpBackward (s : State) : State := s.setPcInt ((s.pc.toNat : Int) - (s.x.toNat : Int))

end Sys2Proof.Machine
end

