-- ==== Sys2Proof/Machine/Arithmetic.lean ====
section
/-! DEFINITION. The arithmetic and shift instructions (41_arithmetic.md R110 to R125). Each advances PC (30_encoding.md
R71), applies one ALU operation, writes one register and commits the declared flags. -/

namespace Sys2Proof.Machine

/-- PC advanced, an ALU result written to A, its flag values committed. -/
def aluToA (m : Mnemonic) (r : AluResult) (s : State) : Result :=
  finish m s ((s.advance m).setA r.res) r.values

/-- PC advanced, an ALU result written to X, its flag values committed. -/
def aluToX (m : Mnemonic) (r : AluResult) (s : State) : Result :=
  finish m s ((s.advance m).setX r.res) r.values

/-- PC advanced, an ALU result written to Y, its flag values committed. -/
def aluToY (m : Mnemonic) (r : AluResult) (s : State) : Result :=
  finish m s ((s.advance m).setY r.res) r.values

/-- `ADDX`: add X to A (41_arithmetic.md R110). -/
def execAddx (s : State) : Result := aluToA .addx (addOp s.a s.x) s

/-- `ADDY`: add Y to A (41_arithmetic.md R111). -/
def execAddy (s : State) : Result := aluToA .addy (addOp s.a s.y) s

/-- `ADDI imm8`: add an immediate byte to A (41_arithmetic.md R112). -/
def execAddi (imm8 : Byte) (s : State) : Result := aluToA .addi (addOp s.a imm8) s

/-- `ADDM addr16`: add a memory byte, direct-addressed, to A (41_arithmetic.md R113). -/
def execAddm (addr16 : Addr16) (s : State) : Result :=
  aluToA .addm (addOp s.a (s.memRead (s.eaDirect addr16))) s

/-- `SUBX`: subtract X from A (41_arithmetic.md R114). -/
def execSubx (s : State) : Result := aluToA .subx (subOp s.a s.x) s

/-- `SUBY`: subtract Y from A (41_arithmetic.md R115). -/
def execSuby (s : State) : Result := aluToA .suby (subOp s.a s.y) s

/-- `SUBI imm8`: subtract an immediate byte from A (41_arithmetic.md R116). -/
def execSubi (imm8 : Byte) (s : State) : Result := aluToA .subi (subOp s.a imm8) s

/-- `SUBM addr16`: subtract a memory byte, direct-addressed, from A (41_arithmetic.md R117). -/
def execSubm (addr16 : Addr16) (s : State) : Result :=
  aluToA .subm (subOp s.a (s.memRead (s.eaDirect addr16))) s

/-- `INCA`: increment A, `AddOp(A, 1)` (41_arithmetic.md R106, R118). -/
def execInca (s : State) : Result := aluToA .inca (addOp s.a 1) s

/-- `INCX`: increment X, `AddOp(X, 1)` (41_arithmetic.md R106, R119). -/
def execIncx (s : State) : Result := aluToX .incx (addOp s.x 1) s

/-- `INCY`: increment Y, `AddOp(Y, 1)` (41_arithmetic.md R106, R120). -/
def execIncy (s : State) : Result := aluToY .incy (addOp s.y 1) s

/-- `DECA`: decrement A, `SubOp(A, 1)` (41_arithmetic.md R106, R121). -/
def execDeca (s : State) : Result := aluToA .deca (subOp s.a 1) s

/-- `DECX`: decrement X, `SubOp(X, 1)` (41_arithmetic.md R106, R122). -/
def execDecx (s : State) : Result := aluToX .decx (subOp s.x 1) s

/-- `DECY`: decrement Y, `SubOp(Y, 1)` (41_arithmetic.md R106, R123). -/
def execDecy (s : State) : Result := aluToY .decy (subOp s.y 1) s

/-- `SHLA`: shift A left by one bit (41_arithmetic.md R124). -/
def execShla (s : State) : Result := aluToA .shla (shlOp s.a) s

/-- `SHRA`: shift A right by one bit, unsigned (41_arithmetic.md R125). -/
def execShra (s : State) : Result := aluToA .shra (shrOp s.a) s

end Sys2Proof.Machine
end

