-- ==== Sys2Proof/Machine/Block.lean ====
section
/-! DEFINITION. The block instructions (44_block.md R210 to R214): runs of A bytes from the indexed address, every
index reduced modulo `MEM_SIZE`, `i` ascending. -/

namespace Sys2Proof.Machine

/-- `for i in i0 .. i0+n-1: MemWrite(base + i, 1, v)` (44_block.md R211). -/
def fillRun (base : Nat) (v : Byte) : Nat → Nat → State → State
  | 0, _, s => s
  | n + 1, i, s => fillRun base v n (i + 1) (s.memWrite (base + i) v)

/-- `for i in i0 .. i0+n-1: t[i] <- MemRead(base + i, 1)` (44_block.md R212, snapshot). -/
def readRun (base : Nat) : Nat → Nat → State → List Byte
  | 0, _, _ => []
  | n + 1, i, s => s.memRead (base + i) :: readRun base n (i + 1) s

/-- `for i in i0 .. i0+n-1: MemWrite(dst + i, 1, MemRead(base + i, 1))` (44_block.md R212, forward). -/
def copyForward (base dst : Nat) : Nat → Nat → State → State
  | 0, _, s => s
  | n + 1, i, s => copyForward base dst n (i + 1) (s.memWrite (dst + i) (s.memRead (base + i)))

/-- COPY's body for each value of `COPY_OVERLAP` (44_block.md R212, R214). -/
def copyRun (mode : CopyOverlap) (base dst n : Nat) (s : State) : State :=
  match mode with
  | .snapshot => s.storeBytes dst (readRun base n 0 s)
  | .forward => copyForward base dst n 0 s

/-- Whether the two runs are equal byte for byte, `eq` starting as true (44_block.md R213). -/
def compareRun (base dst : Nat) : Nat → Nat → State → Bool
  | 0, _, _ => true
  | n + 1, i, s => (s.memRead (base + i) == s.memRead (dst + i)) && compareRun base dst n (i + 1) s

/-- `FILL imm8`: write one byte value over the run (44_block.md R211). -/
def execFill (imm8 : Byte) (s : State) : Result :=
  finish .fill s (fillRun s.eaIndexed imm8 s.a.toNat 0 (s.advance .fill)) .none

/-- `COPY addr16`: copy the run at the indexed address to a direct address (44_block.md R212). -/
def execCopy (addr16 : Addr16) (s : State) : Result :=
  finish .copy s
    (copyRun s.params.copyOverlap s.eaIndexed (s.eaDirect addr16) s.a.toNat (s.advance .copy)) .none

/-- `BCMP addr16`: compare the run at the indexed address with the run at a direct address (44_block.md R213). -/
def execBcmp (addr16 : Addr16) (s : State) : Result :=
  finish .bcmp s (s.advance .bcmp)
    (compareValues (compareRun s.eaIndexed (s.eaDirect addr16) s.a.toNat 0 s))

end Sys2Proof.Machine
end

