-- ==== Sys2Proof/Machine/Control.lean ====
section
/-! DEFINITION. The jumps and HLT (43_control.md R180 to R193). A jump's body runs after PC has been advanced past it
and overwrites PC when taken (R180); a condition reads the flag as it stands (R193, 90_conflicts.md C2). -/

namespace Sys2Proof.Machine

/-- `JMP addr16`: absolute jump (43_control.md R182). -/
def execJmp (addr16 : Addr16) (s : State) : Result := finish .jmp s ((s.advance .jmp).jumpTo addr16) .none

/-- `JZ addr16`: jump if Zero (43_control.md R183). -/
def execJz (addr16 : Addr16) (s : State) : Result :=
  finish .jz s ((s.advance .jz).jumpIf s.flags.z addr16) .none

/-- `JNZ addr16`: jump if not Zero (43_control.md R184). -/
def execJnz (addr16 : Addr16) (s : State) : Result :=
  finish .jnz s ((s.advance .jnz).jumpIf (!s.flags.z) addr16) .none

/-- `JN addr16`: jump if Negative (43_control.md R185). -/
def execJn (addr16 : Addr16) (s : State) : Result :=
  finish .jn s ((s.advance .jn).jumpIf s.flags.n addr16) .none

/-- `JNN addr16`: jump if not Negative (43_control.md R186). -/
def execJnn (addr16 : Addr16) (s : State) : Result :=
  finish .jnn s ((s.advance .jnn).jumpIf (!s.flags.n) addr16) .none

/-- `JO addr16`: jump if Overflow (43_control.md R187). -/
def execJo (addr16 : Addr16) (s : State) : Result :=
  finish .jo s ((s.advance .jo).jumpIf s.flags.o addr16) .none

/-- `JNO addr16`: jump if not Overflow (43_control.md R188). -/
def execJno (addr16 : Addr16) (s : State) : Result :=
  finish .jno s ((s.advance .jno).jumpIf (!s.flags.o) addr16) .none

/-- `JRF`: relative jump forward by X (43_control.md R189). -/
def execJrf (s : State) : Result := finish .jrf s (s.advance .jrf).jumpForward .none

/-- `JRB`: relative jump backward by X (43_control.md R190). -/
def execJrb (s : State) : Result := finish .jrb s (s.advance .jrb).jumpBackward .none

/-- `HLT`: H becomes true, and step 5 makes the status Halted (43_control.md R191). -/
def execHlt (s : State) : Result := finish .hlt s (s.advance .hlt) haltValues

end Sys2Proof.Machine
end

