-- ==== Sys2Proof/Machine/DataMovement.lean ====
section
/-! DEFINITION. The loads, stores and transfers (42_data_movement.md R140 to R157). In the reference catalog none
declares a flag (R140). -/

namespace Sys2Proof.Machine

/-- PC advanced, a byte put in A (42_data_movement.md R140). -/
def moveToA (m : Mnemonic) (v : Byte) (s : State) : Result :=
  finish m s ((s.advance m).setA v) (movedValues v)

/-- PC advanced, a byte put in X (42_data_movement.md R140). -/
def moveToX (m : Mnemonic) (v : Byte) (s : State) : Result :=
  finish m s ((s.advance m).setX v) (movedValues v)

/-- PC advanced, a byte put in Y (42_data_movement.md R140). -/
def moveToY (m : Mnemonic) (v : Byte) (s : State) : Result :=
  finish m s ((s.advance m).setY v) (movedValues v)

/-- PC advanced, a byte stored at an effective address (42_data_movement.md R140). -/
def storeAt (m : Mnemonic) (ea : Nat) (v : Byte) (s : State) : Result :=
  finish m s ((s.advance m).memWrite ea v) .none

/-- `LDAI imm8`: load A with an immediate byte (42_data_movement.md R141). -/
def execLdai (imm8 : Byte) (s : State) : Result := moveToA .ldai imm8 s

/-- `LDAM addr16`: load A from a direct address (42_data_movement.md R142). -/
def execLdam (addr16 : Addr16) (s : State) : Result :=
  moveToA .ldam (s.memRead (s.eaDirect addr16)) s

/-- `LDAXY`: load A from the indexed address (42_data_movement.md R143). -/
def execLdaxy (s : State) : Result := moveToA .ldaxy (s.memRead s.eaIndexed) s

/-- `LDAO addr16`: load A from an offset address (42_data_movement.md R144). -/
def execLdao (addr16 : Addr16) (s : State) : Result :=
  moveToA .ldao (s.memRead (s.eaOffset addr16)) s

/-- `STAM addr16`: store A at a direct address (42_data_movement.md R145). -/
def execStam (addr16 : Addr16) (s : State) : Result :=
  storeAt .stam (s.eaDirect addr16) s.a s

/-- `STAXY`: store A at the indexed address (42_data_movement.md R146). -/
def execStaxy (s : State) : Result := storeAt .staxy s.eaIndexed s.a s

/-- `STAO addr16`: store A at an offset address (42_data_movement.md R147). -/
def execStao (addr16 : Addr16) (s : State) : Result :=
  storeAt .stao (s.eaOffset addr16) s.a s

/-- `LDXI imm8`: load X with an immediate byte (42_data_movement.md R148). -/
def execLdxi (imm8 : Byte) (s : State) : Result := moveToX .ldxi imm8 s

/-- `LDXM addr16`: load X from a direct address (42_data_movement.md R149). -/
def execLdxm (addr16 : Addr16) (s : State) : Result :=
  moveToX .ldxm (s.memRead (s.eaDirect addr16)) s

/-- `STXM addr16`: store X at a direct address (42_data_movement.md R150). -/
def execStxm (addr16 : Addr16) (s : State) : Result :=
  storeAt .stxm (s.eaDirect addr16) s.x s

/-- `LDYI imm8`: load Y with an immediate byte (42_data_movement.md R151). -/
def execLdyi (imm8 : Byte) (s : State) : Result := moveToY .ldyi imm8 s

/-- `LDYM addr16`: load Y from a direct address (42_data_movement.md R152). -/
def execLdym (addr16 : Addr16) (s : State) : Result :=
  moveToY .ldym (s.memRead (s.eaDirect addr16)) s

/-- `STYM addr16`: store Y at a direct address (42_data_movement.md R153). -/
def execStym (addr16 : Addr16) (s : State) : Result :=
  storeAt .stym (s.eaDirect addr16) s.y s

/-- `TAX`: copy A to X (42_data_movement.md R154). -/
def execTax (s : State) : Result := moveToX .tax s.a s

/-- `TXA`: copy X to A (42_data_movement.md R155). -/
def execTxa (s : State) : Result := moveToA .txa s.x s

/-- `TAY`: copy A to Y (42_data_movement.md R156). -/
def execTay (s : State) : Result := moveToY .tay s.a s

/-- `TYA`: copy Y to A (42_data_movement.md R157). -/
def execTya (s : State) : Result := moveToA .tya s.y s

end Sys2Proof.Machine
end

