-- ==== Sys2Proof/Machine/Dispatch.lean ====
section
/-! DEFINITION. The dispatch: one arm per constructor of `Instr`, each one direct call of that instruction's meaning. -/

namespace Sys2Proof.Machine

/-- The meaning of an instruction: steps 2 to 5 of the execution cycle (30_encoding.md R71 to R75). It does not look
at the status; `step` does (log 14). -/
def exec (i : Instr) (s : State) : Host.Outcome State Fault Refusal :=
  match i with
  | .hlt => Sys2Proof.Machine.execHlt s
  | .ldai imm8 => Sys2Proof.Machine.execLdai imm8 s
  | .ldam addr16 => Sys2Proof.Machine.execLdam addr16 s
  | .ldaxy => Sys2Proof.Machine.execLdaxy s
  | .ldao addr16 => Sys2Proof.Machine.execLdao addr16 s
  | .stam addr16 => Sys2Proof.Machine.execStam addr16 s
  | .staxy => Sys2Proof.Machine.execStaxy s
  | .stao addr16 => Sys2Proof.Machine.execStao addr16 s
  | .ldxi imm8 => Sys2Proof.Machine.execLdxi imm8 s
  | .ldxm addr16 => Sys2Proof.Machine.execLdxm addr16 s
  | .stxm addr16 => Sys2Proof.Machine.execStxm addr16 s
  | .ldyi imm8 => Sys2Proof.Machine.execLdyi imm8 s
  | .ldym addr16 => Sys2Proof.Machine.execLdym addr16 s
  | .stym addr16 => Sys2Proof.Machine.execStym addr16 s
  | .tax => Sys2Proof.Machine.execTax s
  | .txa => Sys2Proof.Machine.execTxa s
  | .tay => Sys2Proof.Machine.execTay s
  | .tya => Sys2Proof.Machine.execTya s
  | .addx => Sys2Proof.Machine.execAddx s
  | .addy => Sys2Proof.Machine.execAddy s
  | .addi imm8 => Sys2Proof.Machine.execAddi imm8 s
  | .addm addr16 => Sys2Proof.Machine.execAddm addr16 s
  | .subx => Sys2Proof.Machine.execSubx s
  | .suby => Sys2Proof.Machine.execSuby s
  | .subi imm8 => Sys2Proof.Machine.execSubi imm8 s
  | .subm addr16 => Sys2Proof.Machine.execSubm addr16 s
  | .inca => Sys2Proof.Machine.execInca s
  | .incx => Sys2Proof.Machine.execIncx s
  | .incy => Sys2Proof.Machine.execIncy s
  | .deca => Sys2Proof.Machine.execDeca s
  | .decx => Sys2Proof.Machine.execDecx s
  | .decy => Sys2Proof.Machine.execDecy s
  | .shla => Sys2Proof.Machine.execShla s
  | .shra => Sys2Proof.Machine.execShra s
  | .jmp addr16 => Sys2Proof.Machine.execJmp addr16 s
  | .jz addr16 => Sys2Proof.Machine.execJz addr16 s
  | .jnz addr16 => Sys2Proof.Machine.execJnz addr16 s
  | .jn addr16 => Sys2Proof.Machine.execJn addr16 s
  | .jnn addr16 => Sys2Proof.Machine.execJnn addr16 s
  | .jo addr16 => Sys2Proof.Machine.execJo addr16 s
  | .jno addr16 => Sys2Proof.Machine.execJno addr16 s
  | .jrf => Sys2Proof.Machine.execJrf s
  | .jrb => Sys2Proof.Machine.execJrb s
  | .fill imm8 => Sys2Proof.Machine.execFill imm8 s
  | .copy addr16 => Sys2Proof.Machine.execCopy addr16 s
  | .bcmp addr16 => Sys2Proof.Machine.execBcmp addr16 s

end Sys2Proof.Machine
end

