-- ==== Sys2Proof/Machine/Rule.lean ====
section
/-! DEFINITION. The rules of a descriptor that is not of the table (30_encoding.md R65, 00_scope.md R6): what a written rule
does (00_scope.md R12; log 2), and the instruction that a fetch yields, of either kind. -/

namespace Sys2Proof.Machine

/-- What the pseudocode of a written rule works on. -/
structure RuleFrame where
  /-- the state so far: every write is visible to the later statements (70_reset_and_hazards.md R282) -/
  state : State
  /-- the operand bytes, read at step 2 (30_encoding.md R71) -/
  operands : List Byte
  /-- the local variables that have been set -/
  locals : List (Nat × Nat)
  /-- the memory accesses made, in order (20_memory.md R59) -/
  accesses : List Access
  deriving DecidableEq, Repr

/-- The value of a local variable, 0 before it is set. -/
def RuleFrame.getLocal (f : RuleFrame) (index : Nat) : Nat :=
  match f.locals.find? fun l => l.1 == index with
  | some l => l.2
  | none => 0

/-- A local variable set. -/
def RuleFrame.setLocal (f : RuleFrame) (index value : Nat) : RuleFrame :=
  { f with locals := (index, value) :: f.locals.filter fun l => l.1 != index }

/-- A register as a number (00_scope.md R10). -/
def State.ruleRegister (s : State) : RuleRegister → Nat
  | .a => s.a.toNat
  | .x => s.x.toNat
  | .y => s.y.toNat
  | .pc => s.pc.toNat

/-- A register written: A, X and Y modulo 256 (10_state.md R21), PC modulo `MEM_SIZE` (10_state.md R24). -/
def State.setRuleRegister (s : State) (value : Nat) : RuleRegister → State
  | .a => s.setA (BitVec.ofNat 8 value)
  | .x => s.setX (BitVec.ofNat 8 value)
  | .y => s.setY (BitVec.ofNat 8 value)
  | .pc => s.setPc value

/-- A flag. -/
def Flags.get (f : Flags) : FlagName → Bool
  | .z => f.z
  | .n => f.n
  | .o => f.o

/-- A flag written. -/
def Flags.set (f : Flags) (value : Bool) : FlagName → Flags
  | .z => { f with z := value }
  | .n => { f with n := value }
  | .o => { f with o := value }

/-- `t[index] <- MemRead(addr, 1)` (20_memory.md R41). -/
def RuleFrame.read (f : RuleFrame) (index addr : Nat) : RuleFrame :=
  { f.setLocal index (f.state.memRead addr).toNat with accesses := f.accesses ++ [f.state.readAccess addr] }

/-- `MemWrite(addr, 1, v)` (20_memory.md R42). -/
def RuleFrame.write (f : RuleFrame) (addr : Nat) (v : Byte) : RuleFrame :=
  { f with state := f.state.memWrite addr v, accesses := f.accesses ++ [f.state.writeAccess addr v] }

/-- A body done `n` times. -/
def RuleFrame.repeated (body : RuleFrame → RuleFrame) : Nat → RuleFrame → RuleFrame
  | 0, f => f
  | n + 1, f => RuleFrame.repeated body n (body f)

end Sys2Proof.Machine

namespace Sys2Proof

/-- The operations of a written rule. Division by 0 gives 0, and its remainder the dividend (log 2). -/
def RuleOp.apply (left right : Nat) : RuleOp → Nat
  | .add => left + right
  | .monus => left - right
  | .mul => left * right
  | .div => left / right
  | .mod => left % right
  | .and => left &&& right
  | .or => left ||| right
  | .xor => left ^^^ right
  | .eq => (decide (left = right)).toNat
  | .lt => (decide (left < right)).toNat

/-- The value of an expression: "the current registers, PC, flags, operand bytes" (30_encoding.md R65). -/
def RuleExpr.eval (f : Machine.RuleFrame) : RuleExpr → Nat
  | .num n => n
  | .register r => f.state.ruleRegister r
  | .flag name => (f.state.flags.get name).toNat
  | .operand k => (f.operands.getD k 0).toNat
  | .memSize => f.state.params.memSize
  | .local index => f.getLocal (index.eval f)
  | .apply op left right => op.apply (left.eval f) (right.eval f)

/-- The statements of a written rule, one after another (00_scope.md R12). -/
def RuleStmt.run : RuleStmt → Machine.RuleFrame → Machine.RuleFrame
  | .skip, f => f
  | .seq first second, f => second.run (first.run f)
  | .setLocal index value, f => f.setLocal (index.eval f) (value.eval f)
  | .setRegister r value, f => { f with state := f.state.setRuleRegister (value.eval f) r }
  | .setFlag name value, f =>
    { f with state := { f.state with flags := f.state.flags.set (value.eval f != 0) name } }
  | .read index addr, f => f.read (index.eval f) (addr.eval f)
  | .write addr value, f => f.write (addr.eval f) (BitVec.ofNat 8 (value.eval f))
  | .cond condition first second, f => if condition.eval f = 0 then second.run f else first.run f
  | .loop count body, f => Machine.RuleFrame.repeated body.run (count.eval f) f

end Sys2Proof

namespace Sys2Proof.Machine

/-- What a written rule starts from: the state with PC advanced past the instruction (30_encoding.md R71), and the operand
bytes. -/
def RuleFrame.start (fetched : Fetched) (s : State) : RuleFrame :=
  { state := s.advanceBy fetched.descriptor.length, operands := fetched.operands, locals := [], accesses := [] }

/-- The values a written rule yields: for Z, N and O what the flags stand at when it ends; for H true, "unconditionally",
which is committed for HLT alone, since no other descriptor declares H (30_encoding.md R66(d), R73; log 2). -/
def writtenValues (f : Flags) : FlagValues := { z := some f.z, n := some f.n, o := some f.o, h := some true }

/-- Steps 2 to 5 for an instruction whose rule is written out (30_encoding.md R71 to R75). -/
def execWritten (fetched : Fetched) (body : RuleStmt) (s : State) : Result :=
  let after := (body.run (RuleFrame.start fetched s)).state
  complete fetched.descriptor.flags s.flags (writtenValues after.flags) after

/-- The instruction that a fetch yields, by its descriptor's rule (30_encoding.md R65, R71, R72). -/
def execFetched (fetched : Fetched) (s : State) : Result :=
  match fetched.descriptor.rule with
  | .reference m => exec (m.instr fetched.operands) s
  | .written body => execWritten fetched body s

end Sys2Proof.Machine
end

