-- ==== Sys2Proof/Machine/Step.lean ====
section
/-! DEFINITION. One step of the engine (30_encoding.md R70 to R78), and the host's placement of one instruction. -/

namespace Sys2Proof.Machine

/-- One step, which exists only while the status is Running (30_encoding.md R77): fetch and decode at PC, then the
instruction's meaning, or the exception UnknownOpcode (R70, R78). -/
def step (s : State) : Host.Outcome State Fault Refusal :=
  match s.status with
  | .halted => .fault .halted
  | .faulted => .fault .faulted
  | .running =>
    match s.fetch with
    | some fetched => execFetched fetched s
    | none => .next (raiseUnknownOpcode s)

/-- The state with one instruction stored where `step` fetches next, from PC on and wrapping at `MEM_SIZE`. It stands
for the host's load (70_reset_and_hazards.md R272; log 8) and changes memory alone. -/
def State.withFetchWord (s : State) (nbits w : Nat) : State :=
  s.storeBytes s.pc.toNat (bytesOfTableWord nbits w)

end Sys2Proof.Machine
end

