-- ==== Sys2Proof/Machine/Assembler.lean ====
section
/-! DEFINITION. The two-pass assembler (30_encoding.md R80 to R92), as far as it fixes the assembly syntax and the byte
stream the core runs (00_scope.md R2(c)). Text is a list of characters. -/

namespace Sys2Proof.Machine

/-- Why the assembler rejects a program; the number is the offending line, counted from 1 (30_encoding.md R84 to R89,
60_exceptions.md R243). No partial byte stream is produced. -/
inductive AsmError where
  /-- a label name defined twice (R84) -/
  | duplicateLabel (line : Nat)
  /-- a mnemonic the catalog does not register (R85) -/
  | unknownMnemonic (line : Nat)
  /-- a label operand never defined in pass 1 (R86) -/
  | undefinedLabel (line : Nat)
  /-- operand widths that do not sum to the descriptor's length, or a literal with no width (R87, R88) -/
  | operandWidthMismatch (line : Nat)
  /-- an operand token that is no literal and no label name; the spec names no error for it (DESIGN CHOICE, log 11) -/
  | malformedOperand (line : Nat)
  deriving DecidableEq, Repr

/-- What a line is, once its comment is removed (30_encoding.md R80 to R82). -/
inductive Line where
  /-- a blank line or a comment, ignored in both passes (R81) -/
  | blank
  /-- a label definition `name:` (R82) -/
  | label (name : Text)
  /-- a mnemonic followed by operand tokens (R80) -/
  | instruction (mnemonic : Text) (operands : List Text)
  deriving DecidableEq, Repr

/-- A letter, `A-Z` or `a-z`. -/
def isLetter (c : Char) : Bool := ('a' ≤ c && c ≤ 'z') || ('A' ≤ c && c ≤ 'Z')

/-- The decimal digits `0-9`, each at the position of its value (30_encoding.md R82, R87). -/
def decimalDigits : Text := ['0', '1', '2', '3', '4', '5', '6', '7', '8', '9']

/-- A character that separates tokens: space, tab, carriage return (DESIGN CHOICE, log 12). -/
def isBlankChar (c : Char) : Bool := c == ' ' || c == '\t' || c == '\r'

/-- A label name: a letter or `_`, then letters, digits and `_` (30_encoding.md R82). -/
def isName : Text → Bool
  | [] => false
  | c :: cs => (isLetter c || c == '_') && cs.all fun d => isLetter d || decimalDigits.contains d || d == '_'

/-- The text before the first `;` (30_encoding.md R81). -/
def stripComment (l : Text) : Text := l.takeWhile fun c => c != ';'

/-- The tokens of a line: its runs of characters between separators (30_encoding.md R80). -/
def tokens : Text → List Text
  | [] => []
  | c :: cs =>
    if isBlankChar c then tokens cs
    else
      match cs, tokens cs with
      | [], _ => [[c]]
      | d :: _, ts => if isBlankChar d then [c] :: ts else
        match ts with
        | [] => [[c]]
        | t :: ts => (c :: t) :: ts

/-- The lines of a text, separated by line feeds (DESIGN CHOICE, log 12). -/
def splitLines : Text → List Text
  | [] => [[]]
  | c :: cs =>
    if c == '\n' then [] :: splitLines cs
    else
      match splitLines cs with
      | [] => [[c]]
      | l :: ls => (c :: l) :: ls

/-- The name a label-definition token defines: a name followed by `:` (30_encoding.md R82). -/
def labelOfToken (t : Text) : Option Text :=
  if t.getLast? = some ':' then
    if isName t.dropLast then some t.dropLast else none
  else none

/-- What a line is (30_encoding.md R80 to R82). A line whose only token is a label definition defines a label; any
other line with a token is a mnemonic with its operands. -/
def parseLine (l : Text) : Line :=
  match tokens (stripComment l) with
  | [] => .blank
  | t :: ops =>
    match ops, labelOfToken t with
    | [], some name => .label name
    | _, _ => .instruction t ops

/-- The value of a decimal digit. -/
def decimalDigit (c : Char) : Option Nat := decimalDigits.idxOf? c

/-- The value of a hexadecimal digit `0-9 A-F a-f`: past the decimal digits, ten and the place of the letter in either
row (30_encoding.md R87). -/
def hexDigit (c : Char) : Option Nat :=
  match (decimalDigits ++ ['A', 'B', 'C', 'D', 'E', 'F']).idxOf? c with
  | some v => some v
  | none => (['a', 'b', 'c', 'd', 'e', 'f'].idxOf? c).map (decimalDigits.length + ·)

/-- The value of a run of digits in a base, most significant first; none where a character is no digit. -/
def digitsValue (base : Nat) (digit : Char → Option Nat) : Nat → Text → Option Nat
  | acc, [] => some acc
  | acc, c :: cs =>
    match digit c with
    | some d => digitsValue base digit (acc * base + d) cs
    | none => none

/-- An operand token: a literal with its bytes, a literal with no width, a label name, or none of these. -/
inductive Operand where
  /-- a literal of one or two bytes, high byte first (30_encoding.md R87) -/
  | literal (bytes : List Byte)
  /-- a literal whose value or digit count has no width: an `OperandWidthMismatch` (R87) -/
  | tooWide
  /-- a label name, two bytes wide (R86) -/
  | label (name : Text)
  /-- no operand the syntax knows (log 11) -/
  | malformed
  deriving DecidableEq, Repr

/-- A value as two bytes, high byte first (20_memory.md R44). -/
def twoBytes (v : Nat) : List Byte :=
  [hiByte (BitVec.ofNat 16 v), loByte (BitVec.ofNat 16 v)]

/-- A decimal literal: one byte wide for 0 to 255, two for 256 to 65535, no width above (30_encoding.md R87). -/
def decimalOperand (v : Nat) : Operand :=
  if v ≤ 255 then .literal [BitVec.ofNat 8 v]
  else if v ≤ 65535 then .literal (twoBytes v)
  else .tooWide

/-- A hex literal: its width is the number of digits divided by 2 and rounded up, at most 4 digits
(30_encoding.md R87). -/
def hexOperand (digits v : Nat) : Operand :=
  if digits ≤ 2 then .literal [BitVec.ofNat 8 v]
  else if digits ≤ 4 then .literal (twoBytes v)
  else .tooWide

/-- A run of decimal digits (30_encoding.md R87), else a malformed token (log 11). -/
def parseDecimal (t : Text) : Operand :=
  match digitsValue 10 decimalDigit 0 t with
  | some v => decimalOperand v
  | none => .malformed

/-- What an operand token is (30_encoding.md R80, R82, R87): `0x` and hex digits, a run of decimal digits, or a label
name. -/
def parseOperand (t : Text) : Operand :=
  if isName t then .label t
  else
    match t with
    | [] => .malformed
    | '0' :: 'x' :: ds =>
      match ds, digitsValue 16 hexDigit 0 ds with
      | [], _ => .malformed
      | _ :: _, some v => hexOperand ds.length v
      | _ :: _, none => .malformed
    | c :: cs => parseDecimal (c :: cs)

/-- The descriptor a catalog registers under a mnemonic's spelling, matched exactly (30_encoding.md R85). -/
def findDescriptor (c : Catalog) (name : Text) : Option Descriptor :=
  c.find? fun d => d.mnemonic == name

/-- The defined labels with the offsets they stand for. -/
abbrev Labels := List (Text × Nat)

/-- The offset of a label. -/
def Labels.find : Labels → Text → Option Nat
  | [], _ => none
  | (n, off) :: ls, name => if n = name then some off else Labels.find ls name

/-- How far a mnemonic line moves the offset in pass 1: `1 + operand length` (30_encoding.md R83). A line with an unknown
mnemonic, which pass 2 reports, has no operand length: it counts as one byte. DESIGN CHOICE (log 18): the spec gives
no value, and the program is rejected whatever it is. -/
def lineLength (c : Catalog) (mnemonic : Text) : Nat :=
  match findDescriptor c mnemonic with
  | some d => 1 + d.length
  | none => 1

/-- Pass 1: the labels, each at the offset of the following instruction; `DuplicateLabel` if a name repeats
(30_encoding.md R83, R84). `line` and `offset` are those of the first line of the list, `ls` the labels so far. -/
def pass1 (c : Catalog) : Nat → Nat → Labels → List Line → Except AsmError Labels
  | _, _, ls, [] => .ok ls
  | line, offset, ls, .blank :: rest => pass1 c (line + 1) offset ls rest
  | line, offset, ls, .label name :: rest =>
    match ls.find name with
    | some _ => .error (.duplicateLabel line)
    | none => pass1 c (line + 1) offset ((name, offset) :: ls) rest
  | line, offset, ls, .instruction mn _ :: rest => pass1 c (line + 1) (offset + lineLength c mn) ls rest

/-- The width an operand contributes to its slot: a literal's bytes, two for a label (30_encoding.md R86, R88); none
where it has no width. -/
def Operand.width : Operand → Option Nat
  | .literal bytes => some bytes.length
  | .label _ => some 2
  | .tooWide => none
  | .malformed => none

/-- The sum of the operands' widths, none where one has no width (30_encoding.md R88). -/
def totalWidth : List Operand → Option Nat
  | [] => some 0
  | op :: ops =>
    match op.width, totalWidth ops with
    | some w, some ws => some (w + ws)
    | _, _ => none

/-- The bytes of the operands, in order; a label's are its offset, two bytes, high byte first (30_encoding.md R86). An
offset past 65535 has no two-byte form (log 13). -/
def operandsBytes (ls : Labels) (line : Nat) : List Operand → Except AsmError (List Byte)
  | [] => .ok []
  | op :: ops =>
    match op, operandsBytes ls line ops with
    | _, .error e => .error e
    | .literal bytes, .ok rest => .ok (bytes ++ rest)
    | .label name, .ok rest =>
      match ls.find name with
      | none => .error (.undefinedLabel line)
      | some off => if off ≤ 65535 then .ok (twoBytes off ++ rest) else .error (.operandWidthMismatch line)
    | .tooWide, .ok _ => .error (.operandWidthMismatch line)
    | .malformed, .ok _ => .error (.malformedOperand line)

/-- The bytes of one instruction line: the opcode byte, then the operand bytes, whose widths must sum to the
descriptor's length (30_encoding.md R85 to R88). Malformed tokens are reported first, then widths, then undefined
labels (log 11). -/
def emitLine (c : Catalog) (ls : Labels) (line : Nat) (mnemonic : Text) (operands : List Text) :
    Except AsmError (List Byte) :=
  match findDescriptor c mnemonic with
  | none => .error (.unknownMnemonic line)
  | some d =>
    let ops := operands.map parseOperand
    if ops.contains .malformed then .error (.malformedOperand line)
    else if totalWidth ops = some d.length then
      match operandsBytes ls line ops with
      | .ok bytes => .ok (d.opcode :: bytes)
      | .error e => .error e
    else .error (.operandWidthMismatch line)

/-- Pass 2: the concatenated bytes of the lines in program order (30_encoding.md R85, R89). -/
def pass2 (c : Catalog) (ls : Labels) : Nat → List Line → Except AsmError (List Byte)
  | _, [] => .ok []
  | line, .blank :: rest => pass2 c ls (line + 1) rest
  | line, .label _ :: rest => pass2 c ls (line + 1) rest
  | line, .instruction mn ops :: rest =>
    match emitLine c ls line mn ops with
    | .error e => .error e
    | .ok bytes =>
      match pass2 c ls (line + 1) rest with
      | .error e => .error e
      | .ok more => .ok (bytes ++ more)

/-- Both passes over the lines of a program (30_encoding.md R83, R85). -/
def assembleLines (c : Catalog) (lines : List Line) : Except AsmError (List Byte) :=
  match pass1 c 1 0 [] lines with
  | .error e => .error e
  | .ok ls => pass2 c ls 1 lines

/-- The assembler: the byte stream of a source text, "loadable at memory address 0", or the error that rejects the
whole program (30_encoding.md R80 to R89). -/
def assemble (c : Catalog) (source : Text) : Except AsmError (List Byte) :=
  assembleLines c ((splitLines source).map parseLine)

end Sys2Proof.Machine
end

