-- ==== Sys2Proof/Machine/History.lean ====
section
/-! DEFINITION. The history of the memory accesses of one step, in the order 20_memory.md R59 gives, and what the
peripheral sees of it (R42, R47). It is a function of the state before the step, not state (10_state.md R35). -/

namespace Sys2Proof.Machine

/-- The accesses of a fill (44_block.md R211). -/
def fillAccesses (s : State) (base : Nat) (v : Byte) : Nat → Nat → List Access
  | 0, _ => []
  | n + 1, i => s.writeAccess (base + i) v :: fillAccesses s base v n (i + 1)

/-- The reads of a run, ascending (44_block.md R210). -/
def readRunAccesses (s : State) (base : Nat) : Nat → Nat → List Access
  | 0, _ => []
  | n + 1, i => s.readAccess (base + i) :: readRunAccesses s base n (i + 1)

/-- The writes of a list of bytes from an address on, ascending. -/
def storeBytesAccesses (s : State) (addr : Nat) : List Byte → List Access
  | [] => []
  | v :: vs => s.writeAccess addr v :: storeBytesAccesses s (addr + 1) vs

/-- The accesses of a forward copy: each iteration reads and then writes (44_block.md R212). -/
def copyForwardAccesses (base dst : Nat) : Nat → Nat → State → List Access
  | 0, _, _ => []
  | n + 1, i, s =>
    s.readAccess (base + i) :: s.writeAccess (dst + i) (s.memRead (base + i)) ::
      copyForwardAccesses base dst n (i + 1) (s.memWrite (dst + i) (s.memRead (base + i)))

/-- The accesses of COPY for each value of `COPY_OVERLAP` (44_block.md R212). -/
def copyAccesses (mode : CopyOverlap) (base dst n : Nat) (s : State) : List Access :=
  match mode with
  | .snapshot => readRunAccesses s base n 0 ++ storeBytesAccesses s dst (readRun base n 0 s)
  | .forward => copyForwardAccesses base dst n 0 s

/-- The accesses of BCMP: every byte of both runs is read, even after a difference is found (44_block.md R213). -/
def compareAccesses (s : State) (base dst : Nat) : Nat → Nat → List Access
  | 0, _ => []
  | n + 1, i => s.readAccess (base + i) :: s.readAccess (dst + i) :: compareAccesses s base dst n (i + 1)

/-- The accesses of an instruction's body, from the state before the step (20_memory.md R59). -/
def bodyAccesses (i : Instr) (s : State) : List Access :=
  match i with
  | .hlt | .ldai _ | .ldxi _ | .ldyi _ | .tax | .txa | .tay | .tya | .addx | .addy | .addi _
  | .subx | .suby | .subi _ | .inca | .incx | .incy | .deca | .decx | .decy | .shla | .shra
  | .jmp _ | .jz _ | .jnz _ | .jn _ | .jnn _ | .jo _ | .jno _ | .jrf | .jrb => []
  | .ldam addr16 => [s.readAccess (s.eaDirect addr16)]
  | .ldaxy => [s.readAccess s.eaIndexed]
  | .ldao addr16 => [s.readAccess (s.eaOffset addr16)]
  | .stam addr16 => [s.writeAccess (s.eaDirect addr16) s.a]
  | .staxy => [s.writeAccess s.eaIndexed s.a]
  | .stao addr16 => [s.writeAccess (s.eaOffset addr16) s.a]
  | .ldxm addr16 => [s.readAccess (s.eaDirect addr16)]
  | .stxm addr16 => [s.writeAccess (s.eaDirect addr16) s.x]
  | .ldym addr16 => [s.readAccess (s.eaDirect addr16)]
  | .stym addr16 => [s.writeAccess (s.eaDirect addr16) s.y]
  | .addm addr16 => [s.readAccess (s.eaDirect addr16)]
  | .subm addr16 => [s.readAccess (s.eaDirect addr16)]
  | .fill imm8 => fillAccesses s s.eaIndexed imm8 s.a.toNat 0
  | .copy addr16 => copyAccesses s.params.copyOverlap s.eaIndexed (s.eaDirect addr16) s.a.toNat s
  | .bcmp addr16 => compareAccesses s s.eaIndexed (s.eaDirect addr16) s.a.toNat 0

/-- The fetch of an instruction of `k` bytes: the opcode at PC, then its operand bytes, ascending and
wrapping at `MEM_SIZE` (20_memory.md R59). -/
def fetchAccesses (s : State) (k : Nat) : List Access := readRunAccesses s s.pc.toNat k 0

/-- The accesses of a fetched instruction's body, from the state before the step (20_memory.md R59). -/
def fetchedAccesses (fetched : Fetched) (s : State) : List Access :=
  match fetched.descriptor.rule with
  | .reference m => bodyAccesses (m.instr fetched.operands) s
  | .written body => (body.run (RuleFrame.start fetched s)).accesses

/-- The accesses of one step, in order: the fetch, then the body's. An UnknownOpcode step reads the opcode alone, and
in Halted or Faulted there is no step (20_memory.md R59; 30_encoding.md R70, R77; log 9). -/
def stepAccesses (s : State) : List Access :=
  match s.status with
  | .halted | .faulted => []
  | .running =>
    match s.fetch with
    | some fetched => fetchAccesses s (1 + fetched.descriptor.length) ++ fetchedAccesses fetched s
    | none => fetchAccesses s 1

/-- The writes the peripheral observes in a step: those to `PERIPH_RANGE`, in order (20_memory.md R42, R47, R59). -/
def peripheralWrites (s : State) : List (Nat × Byte) :=
  (stepAccesses s).filterMap fun acc =>
    match acc with
    | .write addr v => if s.params.periph.contains addr then some (addr, v) else none
    | .read _ _ => none

/-- Running a history on a memory: a write stores, a read must return what the memory holds at that moment
("every read returns the byte of the most recent write", 20_memory.md R54). None where a read disagrees. -/
def replay : List Access → Memory → Option Memory
  | [], m => some m
  | .read addr v :: rest, m => if Memory.read m addr = v then replay rest m else none
  | .write addr v :: rest, m => replay rest (Memory.write m addr v)

end Sys2Proof.Machine
end

