-- ==== Sys2Proof/Machine/HostPort.lean ====
section
/-! DEFINITION. The host port: construction, reset, load, step, run and observation (70_reset_and_hazards.md R270 to
R278). -/

namespace Sys2Proof.Machine

/-- Why no instance is built (30_encoding.md R65, R66, 60_exceptions.md R243; 00_scope.md R5). -/
inductive ConstructionError where
  /-- two descriptors share an opcode: R66(a) -/
  | opcodeCollision
  /-- two descriptors share a mnemonic: R66(b) -/
  | duplicateMnemonic
  /-- a length above 2: R66(c) -/
  | lengthOutOfRange
  /-- H declared by another instruction than HLT, or not by HLT, or HLT with a rule that does not give it: R66(d) -/
  | haltFlagMisdeclared
  /-- a rule that is no function of the descriptor's operand bytes, or yields no value for a flag it declares: R65
  (log 3) -/
  | ruleMismatch
  /-- `MEM_SIZE` outside 4096 to 65536: R5 -/
  | memSizeOutOfRange
  deriving DecidableEq, Repr

/-- What is wrong with a catalog, if anything: "two instructions sharing an opcode is a construction-time
`OpcodeCollision`" comes first (30_encoding.md R66; the order, and the names of the others, are a DESIGN CHOICE,
log 17). -/
def catalogProblem (c : Catalog) : Option ConstructionError :=
  if c.opcodesUnique = false then some .opcodeCollision
  else if c.mnemonicsUnique = false then some .duplicateMnemonic
  else if c.lengthsLegal = false then some .lengthOutOfRange
  else if c.haltDeclared = false then some .haltFlagMisdeclared
  else if c.rulesFit = false then some .ruleMismatch
  else none

/-- Building an instance from its parameters: the reset state, or the construction-time error
(70_reset_and_hazards.md R270, R274; 60_exceptions.md R243). -/
def construct (p : Params) : Except ConstructionError State :=
  match catalogProblem p.catalog with
  | some e => .error e
  | none => if p.memSizeInRange then .ok (State.init p) else .error .memSizeOutOfRange

/-- The host's reset: every piece of state at its reset value, whatever the state before; the parameters stay
(70_reset_and_hazards.md R270, R271). -/
def hostReset (s : State) : State := State.init s.params

/-- Why the host port refuses an operation (70_reset_and_hazards.md R278). -/
inductive HostRefusal where
  /-- an image longer than `MEM_SIZE`: nothing is loaded (R272) -/
  | imageTooLong
  /-- a load after the first step (R272, R278) -/
  | loadAfterFirstStep
  /-- a step requested while the status is not Running (R278) -/
  | notRunning
  deriving DecidableEq, Repr

/-- No step has run since reset: the status is Running and no step was counted (log 8). -/
def State.beforeFirstStep (s : State) : Bool := (s.status == .running) && (s.steps == 0)

/-- Memory with every byte 0, as after reset (10_state.md R37). -/
def State.clearMemory (s : State) : State := { s with mem := [] }

/-- `load(b)`: `M[i] <- b[i]` for every byte of the image, every other byte 0 (so that a second load keeps no byte of the
first), after reset and before the first step; an image longer than `MEM_SIZE` is refused and nothing is loaded
(70_reset_and_hazards.md R272, R278; log 8). A load that is both too late and too long is refused as too late: DESIGN
CHOICE (log 19), since R278 says only "accepted or refused". -/
def load (image : List Byte) (s : State) : Except HostRefusal State :=
  if s.beforeFirstStep = false then .error .loadAfterFirstStep
  else if s.params.memSize < image.length then .error .imageTooLong
  else .ok (s.clearMemory.storeBytes 0 image)

/-- `step`: one step, only while the status is Running (70_reset_and_hazards.md R276, R278). -/
def hostStep (s : State) : Except HostRefusal State :=
  match step s with
  | .next t => .ok t
  | .fault _ => .error .notRunning
  | .refused _ => .error .notRunning

/-- What ended a run (70_reset_and_hazards.md R276, R278). -/
inductive RunEnd where
  /-- the status is no longer Running -/
  | notRunning
  /-- as many steps as the budget have run in this call -/
  | budget
  /-- the external stop signal was raised -/
  | stopSignal
  deriving DecidableEq, Repr

/-- What a run hands back: the state, and what ended it. The status is the state's. -/
structure RunReport where
  state : State
  ended : RunEnd
  deriving DecidableEq, Repr

/-- `run(budget, stop)`: repeats `step` while the status is Running, fewer than `budget` steps have run and the stop
signal is not raised. `stop` lists the signal as sampled before each step, not raised where the list has ended
(70_reset_and_hazards.md R276; log 10). -/
def run : Nat → List Bool → State → RunReport
  | budget, stop, s =>
    match s.status with
    | .halted | .faulted => ⟨s, .notRunning⟩
    | .running =>
      match budget with
      | 0 => ⟨s, .budget⟩
      | n + 1 =>
        if stop.headD false then ⟨s, .stopSignal⟩
        else
          match step s with
          | .next t => run n stop.tail t
          | .fault _ => ⟨s, .notRunning⟩
          | .refused _ => ⟨s, .notRunning⟩

/-- What the host reads between steps (70_reset_and_hazards.md R277, 10_state.md R30, R31, R33). -/
structure Observation where
  a : Byte
  x : Byte
  y : Byte
  pc : Addr16
  /-- the packed flag value (10_state.md R30) -/
  flags : Nat
  steps : Nat
  /-- the halted predicate, `status = Halted` -/
  halted : Bool
  /-- the status code (10_state.md R31) -/
  status : Nat
  faultRecord : Option FaultRecord
  deriving DecidableEq, Repr

/-- The host's read of everything but memory, whose bytes it reads by `State.memRead` (70_reset_and_hazards.md R277). -/
def observe (s : State) : Observation where
  a := s.a
  x := s.x
  y := s.y
  pc := s.pc
  flags := s.flags.packed
  steps := s.steps
  halted := s.status == .halted
  status := s.status.code
  faultRecord := s.faultRecord

end Sys2Proof.Machine
end

