-- ==== Sys2Proof/Safety.lean ====
section
/-! DEFINITION. The terms claims are stated in: the invariant of every reachable state, reachability, which instance
is the reference one, what an instruction of a given length leaves when its body writes nothing, and which
addresses an instruction stores to. -/

namespace Sys2Proof.Machine

/-- The invariant of every reachable state. -/
structure State.Inv (s : State) : Prop where
  /-- the instance was built from well-formed parameters (00_scope.md R5, 30_encoding.md R66) -/
  params_wf : s.params.wf = true
  /-- PC is always in 0 to `MEM_SIZE`-1 (10_state.md R24) -/
  pc_lt : s.pc.toNat < s.params.memSize
  /-- the memory is in canonical form (log 7) -/
  mem_wf : Memory.wf s.mem = true
  /-- the memory lists addresses below `MEM_SIZE` only (20_memory.md R40) -/
  mem_within : Memory.within s.params.memSize s.mem = true
  /-- "status = Halted exactly when H = true" (10_state.md R31) -/
  halted_iff : s.status = .halted ↔ s.flags.h = true
  /-- in Faulted, PC still holds the address of an unregistered opcode byte (60_exceptions.md R241) -/
  faulted_at : s.status = .faulted → s.params.catalog.lookup (s.memRead s.pc.toNat) = none

/-- The states an instance can be in: built, reset, loaded by the host, or reached by a step
(70_reset_and_hazards.md R278). -/
inductive Reachable (p : Params) : State → Prop where
  | built {s : State} : construct p = .ok s → Reachable p s
  | reset {s : State} : Reachable p s → Reachable p (hostReset s)
  | loaded {s t : State} {image : List Byte} : Reachable p s → load image s = .ok t → Reachable p t
  | stepped {s t : State} : Reachable p s → step s = .next t → Reachable p t

/-- The instance runs the reference catalog of 30_encoding.md R68. -/
def State.RunsReference (s : State) : Prop := s.params.catalog = Catalog.reference

/-- A run has ended: the status is Halted, "the only final state" (70_reset_and_hazards.md R279). -/
def State.Ended (s : State) : Prop := s.status = .halted

/-- A run has failed: the status is Faulted (70_reset_and_hazards.md R279). -/
def State.Failed (s : State) : Prop := s.status = .faulted

/-- A state a step can be taken from, or where the run has ended: not a failure. -/
def State.Safe (s : State) : Prop := ¬ s.Failed

/-- What an instruction with `len` operand bytes leaves when its body writes no register, no memory and no PC and the
flags become `f`: PC past the instruction (30_encoding.md R71), the step counted (R75), the halt check done (R74),
everything else as it was. -/
def State.past (s : State) (len : Nat) (f : Flags) : State :=
  { s with
    pc := BitVec.ofNat 16 ((s.pc.toNat + 1 + len) % s.params.memSize)
    flags := f
    steps := s.steps + 1
    status := if f.h then .halted else s.status }

end Sys2Proof.Machine

namespace Sys2Proof

/-- The addresses an instruction stores to, by the effective-address functions its meaning uses
(42_data_movement.md R145 to R147, R150, R153; 44_block.md R211, R212). -/
def Instr.storesTo (i : Instr) (s : Machine.State) (addr : Nat) : Prop :=
  match i with
  | .stam addr16 => addr = s.eaDirect addr16
  | .staxy => addr = s.eaIndexed
  | .stao addr16 => addr = s.eaOffset addr16
  | .stxm addr16 => addr = s.eaDirect addr16
  | .stym addr16 => addr = s.eaDirect addr16
  | .fill _ => ∃ k, k < s.a.toNat ∧ addr = s.wrap (s.eaIndexed + k)
  | .copy addr16 => ∃ k, k < s.a.toNat ∧ addr = s.wrap (s.eaDirect addr16 + k)
  | .hlt | .ldai _ | .ldam _ | .ldaxy | .ldao _ | .ldxi _ | .ldxm _ | .ldyi _ | .ldym _
  | .tax | .txa | .tay | .tya
  | .addx | .addy | .addi _ | .addm _ | .subx | .suby | .subi _ | .subm _
  | .inca | .incx | .incy | .deca | .decx | .decy | .shla | .shra
  | .jmp _ | .jz _ | .jnz _ | .jn _ | .jnn _ | .jo _ | .jno _ | .jrf | .jrb | .bcmp _ => False

/-- The mnemonics whose instructions write A (10_state.md R23). -/
def Mnemonic.writesA (m : Mnemonic) : Bool :=
  m ∈ [.addx, .addy, .addi, .addm, .subx, .suby, .subi, .subm, .inca, .deca, .shla, .shra,
    .ldai, .ldam, .ldaxy, .ldao, .txa, .tya]

/-- The mnemonics whose instructions write X (10_state.md R23). -/
def Mnemonic.writesX (m : Mnemonic) : Bool := m ∈ [.incx, .decx, .ldxi, .ldxm, .tax]

/-- The mnemonics whose instructions write Y (10_state.md R23). -/
def Mnemonic.writesY (m : Mnemonic) : Bool := m ∈ [.incy, .decy, .ldyi, .ldym, .tay]

/-- The mnemonics whose instructions write Z in the reference catalog (10_state.md R28). -/
def Mnemonic.writesZ (m : Mnemonic) : Bool :=
  m ∈ [.addx, .addy, .addi, .addm, .subx, .suby, .subi, .subm, .inca, .incx, .incy, .deca, .decx, .decy,
    .shla, .shra, .bcmp]

/-- The mnemonics whose instructions write N in the reference catalog (10_state.md R28). -/
def Mnemonic.writesN (m : Mnemonic) : Bool := m ∈ [.subx, .suby, .subi, .subm, .deca, .decx, .decy]

/-- The mnemonics whose instructions write O in the reference catalog (10_state.md R28). -/
def Mnemonic.writesO (m : Mnemonic) : Bool :=
  m ∈ [.addx, .addy, .addi, .addm, .inca, .incx, .incy, .shla]

/-- The jumps, "the only instructions that write PC from their bodies" (10_state.md R25). -/
def Mnemonic.isJump (m : Mnemonic) : Bool :=
  m ∈ [.jmp, .jz, .jnz, .jn, .jnn, .jo, .jno, .jrf, .jrb]

end Sys2Proof

namespace Sys2Proof.Machine

/-- The unassigned opcode bytes of the reference catalog, as 30_encoding.md R69 lists them. -/
def unassignedOpcode (b : Byte) : Bool :=
  let v := b.toNat
  v == 0x00 || (0x02 ≤ v && v ≤ 0x0F) || v == 0x17 || v == 0x1B || v == 0x1F ||
    (0x24 ≤ v && v ≤ 0x2F) || (0x49 ≤ v && v ≤ 0x4F) || (0x53 ≤ v && v ≤ 0xFF)

/-- The state of the same machine with the peripheral bound to another range (00_scope.md R8). -/
def State.withPeriph (s : State) (r : PeriphRange) : State :=
  { s with params := { s.params with periph := r } }

/-- The state of the same machine with another value of `COPY_OVERLAP` (00_scope.md R7). -/
def State.withCopyOverlap (s : State) (mode : CopyOverlap) : State :=
  { s with params := { s.params with copyOverlap := mode } }

/-- The instruction lines of a program, in order: each line's mnemonic and operand tokens (30_encoding.md R80). -/
def instructionLines (lines : List Line) : List (Text × List Text) :=
  lines.filterMap fun l =>
    match l with
    | .instruction mnemonic operands => some (mnemonic, operands)
    | .blank | .label _ => none

/-- The bytes that lines take up, `1 + operand length` for each instruction line (30_encoding.md R83; log 18 for an
unknown mnemonic, which no assembled program has). -/
def programSize (c : Catalog) (lines : List Line) : Nat :=
  ((instructionLines lines).map fun l => lineLength c l.1).sum

/-- The offset a label of a program stands for: the size of the lines before the first line that defines it, wherever
it is used (30_encoding.md R82, R83). -/
def labelOffset (c : Catalog) : List Line → Text → Option Nat
  | [], _ => none
  | line :: rest, name =>
    if line = .label name then some 0 else (labelOffset c rest name).map (programSize c [line] + ·)

/-- The bytes an operand token stands for in a program: a literal's own, a label's offset in two bytes, the high byte
first (30_encoding.md R86, R87). -/
def tokenBytes (c : Catalog) (lines : List Line) (token : Text) : Option (List Byte) :=
  match parseOperand token with
  | .literal bytes => some bytes
  | .label name => (labelOffset c lines name).map twoBytes
  | .tooWide | .malformed => none

/-- The bytes of the operand tokens of a line, one after another; none where one has none. -/
def tokensBytes (c : Catalog) (lines : List Line) : List Text → Option (List Byte)
  | [] => some []
  | t :: ts =>
    match tokenBytes c lines t, tokensBytes c lines ts with
    | some bytes, some more => some (bytes ++ more)
    | _, _ => none

/-- The instruction of the catalog that an instruction line of a program writes (30_encoding.md R85 to R88): the descriptor
of the line's mnemonic, with the bytes of the line's operand tokens, as many as its length. -/
def Written (c : Catalog) (lines : List Line) (line : Text × List Text) (f : Fetched) : Prop :=
  f.descriptor ∈ c ∧ f.descriptor.mnemonic = line.1 ∧ tokensBytes c lines line.2 = some f.operands ∧
    f.operands.length = f.descriptor.length

end Sys2Proof.Machine
end

