-- ==== Sys2Proof/Certificates/Slice0/Obligations.lean ====
section
/-! DEFINITION. The statements for the provers. OBLIGATIONS.json gives each its tier, basis and the rules it cites. -/

open Sys2Proof Sys2Proof.Machine

/-! ## Encoding and the catalog -/

/-- Decoding the encoding of any instruction a well-formed catalog registers gives the instruction back and leaves
the bytes after it; so does decoding the opcode and operand bytes of any descriptor, whatever its rule (30_encoding.md R60
to R63, R66, R67). -/
def Obligations.DecodeOfEncodeInEveryCatalog : Prop :=
  (∀ (c : Catalog) (i : Instr) (w rest : List Byte),
    c.wf = true → encodeWith c i = some w → decodeWith c (w ++ rest) = .ok (i, rest)) ∧
  ∀ (c : Catalog) (f : Fetched) (rest : List Byte),
    c.wf = true → f.descriptor ∈ c → f.operands.length = f.descriptor.length →
    decodeFetched c (f.bytes ++ rest) = .ok (f, rest)

/-- Every byte string a well-formed catalog decodes is the opcode of one of its descriptors, that descriptor's operand
bytes and the bytes left over: no bit of it is dropped; and where the rule is one of R68, the operand bytes are those of
the instruction it decodes to (30_encoding.md R61, R62, R66). -/
def Obligations.EncodeOfDecodeInEveryCatalog : Prop :=
  (∀ (c : Catalog) (f : Fetched) (bytes rest : List Byte), decodeFetched c bytes = .ok (f, rest) →
    f.descriptor ∈ c ∧ f.operands.length = f.descriptor.length ∧ bytes = f.bytes ++ rest) ∧
  ∀ (c : Catalog) (i : Instr) (bytes rest : List Byte), c.wf = true → decodeWith c bytes = .ok (i, rest) →
    ∃ d ∈ c, d.rule = .reference i.mnemonic ∧ bytes = d.opcode :: i.operandBytes ++ rest

/-- The reference catalog registers every instruction; its bytes are `encode i`, one byte and the operand bytes of
its format, at most three (30_encoding.md R60, R61, R68). -/
def Obligations.ReferenceCatalogEncodesEveryInstruction : Prop :=
  ∀ i : Instr, encodeWith Catalog.reference i = some (encode i) ∧
    (encode i).length = 1 + i.mnemonic.operandLength ∧ (encode i).length ≤ 3

/-- Words written out from the encodings of 30_encoding.md R68 decode to the instructions they stand for, one or more
of each family. -/
def Obligations.SampleWordsDecode : Prop :=
  decode [0x01] = .ok (.hlt, []) ∧ decode [0x10, 0x2A] = .ok (.ldai 42, []) ∧
  decode [0x14, 0x30, 0x00] = .ok (.stam 0x3000, []) ∧ decode [0x33, 0x01, 0x02] = .ok (.addm 0x0102, []) ∧
  decode [0x40, 0x12, 0x34] = .ok (.jmp 0x1234, []) ∧ decode [0x48, 0x99] = .ok (.jrb, [0x99]) ∧
  decode [0x50, 0xAA] = .ok (.fill 0xAA, []) ∧ decode [0x52, 0x20, 0x01] = .ok (.bcmp 0x2001, []) ∧
  decodeTableWord 24 0x000140 = some (.jmp 0x0100)

/-- `be16(hi, lo) = hi * 256 + lo`, and the two bytes of a 16-bit value give it back (00_scope.md R12, 20_memory.md
R44). -/
def Obligations.OperandIsBigEndian : Prop :=
  (∀ hi lo : Byte, (be16 hi lo).toNat = hi.toNat * 256 + lo.toNat) ∧
  (∀ v : Addr16, be16 (hiByte v) (loByte v) = v ∧ (hiByte v).toNat = v.toNat / 256 ∧ (loByte v).toNat = v.toNat % 256)

/-- The opcodes the reference catalog does not register are those 30_encoding.md R69 lists, 210 of them. -/
def Obligations.UnassignedOpcodesOfTheReferenceCatalog : Prop :=
  (∀ op : Byte, Catalog.reference.lookup op = none ↔ unassignedOpcode op = true) ∧
  ((List.range 256).filter fun v => unassignedOpcode (BitVec.ofNat 8 v)).length = 210

/-- "The reference catalog of rule R68 is well-formed" (30_encoding.md R66), and has 46 rows. -/
def Obligations.ReferenceCatalogIsWellFormed : Prop :=
  Catalog.reference.wf = true ∧ Catalog.reference.length = 46

/-- Two descriptors on one opcode are an `OpcodeCollision`: no instance is built (30_encoding.md R66(a),
60_exceptions.md R243). That it is the error reported whatever else is wrong with the parameters is the model's choice
(DESIGN CHOICE, log 17). -/
def Obligations.OpcodeCollisionBuildsNoInstance : Prop :=
  ∀ (p : Params) (before between after : List Descriptor) (d e : Descriptor),
    p.catalog = before ++ d :: between ++ e :: after → d.opcode = e.opcode →
    construct p = .error .opcodeCollision

/-- An instance is built exactly from well-formed parameters, and starts in the reset state (00_scope.md R5,
30_encoding.md R65, R66, 70_reset_and_hazards.md R270). Well-formed says the checks (a) to (d) of R66, and that every
descriptor is the record R65 describes, its rule yielding "a value for each flag touched": which flags the 46 rules
yield, and so which catalogs that last check refuses, is the model's reading (DEDUCED, log 3; rules as data, log 2). HLT
may have any length, rule and other flags, so long as its rule gives `H = true`: that of R191 does, and so does any
written out. -/
def Obligations.ConstructExactlyWellFormed : Prop :=
  (∀ (p : Params) (s : State), construct p = .ok s ↔ p.wf = true ∧ s = State.init p) ∧
  ∀ p : Params, p.wf = true ↔
    (4096 ≤ p.memSize ∧ p.memSize ≤ 65536) ∧
    (p.catalog.Pairwise fun d e => d.opcode ≠ e.opcode ∧ d.mnemonic ≠ e.mnemonic) ∧
    ∀ d ∈ p.catalog, d.length ≤ 2 ∧ (d.flags.h = true ↔ d.mnemonic = Mnemonic.hlt.name) ∧
      (d.flags.h = true → d.rule = .reference .hlt ∨ ∃ body, d.rule = .written body) ∧
      ∀ m, d.rule = .reference m → d.length = m.operandLength ∧ d.flags.subset m.computedFlags = true

/-! ## The step -/

/-- When the status is Running and the bytes from PC on, wrapping at `MEM_SIZE`, decode, the step runs what they decode
to: the meaning of an instruction of the table; and for a descriptor with a rule of its own that rule, run on the
state with PC past the instruction and on the operand bytes, its flags committed where the descriptor declares them (H
as true), the step counted, the halt check done (30_encoding.md R65, R66(d), R70 to R75, R78; 20_memory.md R45; written
rules are the model's form, log 2). -/
def Obligations.StepRunsTheDecodedInstruction : Prop :=
  ∀ s : State, s.status = .running →
    let window := [Memory.read s.mem (s.pc.toNat % s.params.memSize),
      Memory.read s.mem ((s.pc.toNat + 1) % s.params.memSize), Memory.read s.mem ((s.pc.toNat + 2) % s.params.memSize)]
    (∀ (i : Instr) (rest : List Byte), decodeWith s.params.catalog window = .ok (i, rest) → step s = exec i s) ∧
    ∀ (d : Descriptor) (operands rest : List Byte) (body : RuleStmt),
      decodeFetched s.params.catalog window = .ok (⟨d, operands⟩, rest) → d.rule = .written body →
      let start : State := { s with pc := BitVec.ofNat 16 ((s.pc.toNat + 1 + d.length) % s.params.memSize) }
      let u := (body.run { state := start, operands := operands, locals := [], accesses := [] }).state
      let flags : Flags :=
        { z := if d.flags.z then u.flags.z else s.flags.z
          n := if d.flags.n then u.flags.n else s.flags.n
          o := if d.flags.o then u.flags.o else s.flags.o
          h := if d.flags.h then true else s.flags.h }
      step s = .next { u with
        flags := flags, steps := s.steps + 1, status := if flags.h then .halted else .running }

/-- An opcode byte the catalog does not register makes the status Faulted and changes no register, flag, memory byte,
PC or step count; the host reads the cause, the byte and its address; H stays false (60_exceptions.md R241). -/
def Obligations.UnknownOpcodeFaults : Prop :=
  ∀ (s : State) (op : Byte), s.Inv → s.status = .running → Memory.read s.mem s.pc.toNat = op →
    s.params.catalog.lookup op = none →
    step s = .next { s with status := .faulted } ∧
    ({ s with status := .faulted } : State).faultRecord = some ⟨1, op, s.pc⟩ ∧ s.flags.h = false

/-- A step of a Running core faults only by UnknownOpcode at its fetch, and a step that does not fault counts one
step (60_exceptions.md R240; 30_encoding.md R75, R76). -/
def Obligations.OnlyAnUnknownOpcodeFaults : Prop :=
  ∀ s t : State, s.status = .running → step s = .next t →
    (t.status = .faulted ↔ s.params.catalog.lookup (s.memRead s.pc.toNat) = none) ∧
    (t.steps = if t.status = .faulted then s.steps else s.steps + 1)

/-- A Running core always has a next state: steps 2 to 5 cannot fail (30_encoding.md R76), and where the fetch fails the
exception makes the status Faulted, which is a state too (60_exceptions.md R241 as read in log 4, DEDUCED). -/
def Obligations.RunningCoreAlwaysSteps : Prop :=
  ∀ s : State, s.status = .running → ∃ t, step s = .next t

/-- "A step exists only while the status is Running" (30_encoding.md R77): Halted and Faulted have no successor, whatever
memory holds at PC; the host's `step` is refused (70_reset_and_hazards.md R278) and a `run` returns at once with nothing
changed (R276). That such a run reports `notRunning`, whatever its budget and stop signal, is the model's choice
(DESIGN CHOICE, log 10). -/
def Obligations.HaltedAndFaultedAreTerminal : Prop :=
  ∀ s : State, s.status ≠ .running →
    (∀ t, step s ≠ .next t) ∧ hostStep s = .error .notRunning ∧ ∀ budget stop, run budget stop s = ⟨s, .notRunning⟩

/-- The model's step answers a fault in Halted and in Faulted, each under its own name, and nowhere else, and it never
refuses: the two names are the model's choice for the spec's "no successor" (log 5; 30_encoding.md R77). -/
def Obligations.StepFaultsExactlyWhereNoStepExists : Prop :=
  ∀ s : State, (step s = .fault .halted ↔ s.status = .halted) ∧ (step s = .fault .faulted ↔ s.status = .faulted) ∧
    ∀ r, step s ≠ .refused r

/-! ## Arithmetic and shifts -/

/-- ADDX, ADDY, ADDI, ADDM (41_arithmetic.md R110 to R113): the opcode of each, and its whole effect. -/
def Obligations.AdditionInstructions : Prop :=
  (∀ (imm8 hi lo : Byte) (rest : List Byte),
    decode (0x30 :: rest) = .ok (.addx, rest) ∧ decode (0x31 :: rest) = .ok (.addy, rest) ∧
    decode (0x32 :: imm8 :: rest) = .ok (.addi imm8, rest) ∧
    decode (0x33 :: hi :: lo :: rest) = .ok (.addm (be16 hi lo), rest)) ∧
  ∀ (s : State) (imm8 : Byte) (addr16 : Addr16), s.RunsReference →
    let sum (len : Nat) (b : Byte) : State :=
      { s.past len { s.flags with
          z := decide ((s.a.toNat + b.toNat) % 256 = 0), o := decide (255 < s.a.toNat + b.toNat) } with
        a := BitVec.ofNat 8 ((s.a.toNat + b.toNat) % 256) }
    exec .addx s = .next (sum 0 s.x) ∧ exec .addy s = .next (sum 0 s.y) ∧
    exec (.addi imm8) s = .next (sum 1 imm8) ∧
    exec (.addm addr16) s = .next (sum 2 (Memory.read s.mem (addr16.toNat % s.params.memSize)))

/-- SUBX, SUBY, SUBI, SUBM (41_arithmetic.md R114 to R117): the opcode of each, and its whole effect; N is `a < b`
(90_conflicts.md C1). -/
def Obligations.SubtractionInstructions : Prop :=
  (∀ (imm8 hi lo : Byte) (rest : List Byte),
    decode (0x34 :: rest) = .ok (.subx, rest) ∧ decode (0x35 :: rest) = .ok (.suby, rest) ∧
    decode (0x36 :: imm8 :: rest) = .ok (.subi imm8, rest) ∧
    decode (0x37 :: hi :: lo :: rest) = .ok (.subm (be16 hi lo), rest)) ∧
  ∀ (s : State) (imm8 : Byte) (addr16 : Addr16), s.RunsReference →
    let diff (len : Nat) (b : Byte) : State :=
      { s.past len { s.flags with z := decide (s.a = b), n := decide (s.a.toNat < b.toNat) } with
        a := BitVec.ofNat 8 (((s.a.toNat : Int) - b.toNat) % 256).toNat }
    exec .subx s = .next (diff 0 s.x) ∧ exec .suby s = .next (diff 0 s.y) ∧
    exec (.subi imm8) s = .next (diff 1 imm8) ∧
    exec (.subm addr16) s = .next (diff 2 (Memory.read s.mem (addr16.toNat % s.params.memSize)))

/-- INCA, INCX, INCY (41_arithmetic.md R118 to R120): the opcode of each, and its whole effect. -/
def Obligations.IncrementInstructions : Prop :=
  (∀ rest : List Byte,
    decode (0x38 :: rest) = .ok (.inca, rest) ∧ decode (0x39 :: rest) = .ok (.incx, rest) ∧
    decode (0x3A :: rest) = .ok (.incy, rest)) ∧
  ∀ s : State, s.RunsReference →
    let flags (r : Byte) : Flags := { s.flags with z := decide (r = 255), o := decide (r = 255) }
    let res (r : Byte) : Byte := BitVec.ofNat 8 ((r.toNat + 1) % 256)
    exec .inca s = .next { s.past 0 (flags s.a) with a := res s.a } ∧
    exec .incx s = .next { s.past 0 (flags s.x) with x := res s.x } ∧
    exec .incy s = .next { s.past 0 (flags s.y) with y := res s.y }

/-- DECA, DECX, DECY (41_arithmetic.md R121 to R123): the opcode of each, and its whole effect. -/
def Obligations.DecrementInstructions : Prop :=
  (∀ rest : List Byte,
    decode (0x3B :: rest) = .ok (.deca, rest) ∧ decode (0x3C :: rest) = .ok (.decx, rest) ∧
    decode (0x3D :: rest) = .ok (.decy, rest)) ∧
  ∀ s : State, s.RunsReference →
    let flags (r : Byte) : Flags := { s.flags with z := decide (r = 1), n := decide (r = 0) }
    let res (r : Byte) : Byte := BitVec.ofNat 8 ((r.toNat + 255) % 256)
    exec .deca s = .next { s.past 0 (flags s.a) with a := res s.a } ∧
    exec .decx s = .next { s.past 0 (flags s.x) with x := res s.x } ∧
    exec .decy s = .next { s.past 0 (flags s.y) with y := res s.y }

/-- SHLA, SHRA (41_arithmetic.md R124, R125): the opcode of each, and its whole effect. -/
def Obligations.ShiftInstructions : Prop :=
  (∀ rest : List Byte, decode (0x3E :: rest) = .ok (.shla, rest) ∧ decode (0x3F :: rest) = .ok (.shra, rest)) ∧
  ∀ s : State, s.RunsReference →
    exec .shla s = .next { s.past 0 { s.flags with
        z := decide (2 * s.a.toNat % 256 = 0), o := decide (255 < 2 * s.a.toNat) } with
      a := BitVec.ofNat 8 (2 * s.a.toNat % 256) } ∧
    exec .shra s = .next { s.past 0 { s.flags with z := decide (s.a.toNat ≤ 1) } with
      a := BitVec.ofNat 8 (s.a.toNat / 2) }

/-- "A catalog other than the reference one that declares N for a non-subtracting instruction writes
`N = (res[7] = 1)`" (41_arithmetic.md R104): additions, increments, shifts. For the loads and transfers, whose byte
moved is taken as the result, the same is the model's reading (DEDUCED, log 3). N of a subtraction is another value (R101,
90_conflicts.md C1) and not spoken of here. A Z that is declared for an instruction that writes a register, a subtraction
among them, is the byte written being 0 (R100, R101; for loads and transfers DEDUCED, log 3). -/
def Obligations.HighBitLawOfOtherCatalogs : Prop :=
  ∀ (s t : State) (i : Instr), exec i s = .next t →
    ((s.declared i.mnemonic).n = true →
      (i.mnemonic ∈ [.addx, .addy, .addi, .addm, .inca, .shla, .shra, .ldai, .ldam, .ldaxy, .ldao, .txa, .tya] →
        t.flags.n = t.a.msb) ∧
      (i.mnemonic ∈ [.incx, .ldxi, .ldxm, .tax] → t.flags.n = t.x.msb) ∧
      (i.mnemonic ∈ [.incy, .ldyi, .ldym, .tay] → t.flags.n = t.y.msb)) ∧
    ((s.declared i.mnemonic).z = true →
      (i.mnemonic.writesA = true → (t.flags.z = true ↔ t.a = 0)) ∧
      (i.mnemonic.writesX = true → (t.flags.z = true ↔ t.x = 0)) ∧
      (i.mnemonic.writesY = true → (t.flags.z = true ↔ t.y = 0)))

/-! ## Data movement -/

/-- LDAI, LDAM, LDAXY, LDAO (42_data_movement.md R141 to R144): the opcode of each, and its whole effect. -/
def Obligations.AccumulatorLoads : Prop :=
  (∀ (imm8 hi lo : Byte) (rest : List Byte),
    decode (0x10 :: imm8 :: rest) = .ok (.ldai imm8, rest) ∧
    decode (0x11 :: hi :: lo :: rest) = .ok (.ldam (be16 hi lo), rest) ∧
    decode (0x12 :: rest) = .ok (.ldaxy, rest) ∧
    decode (0x13 :: hi :: lo :: rest) = .ok (.ldao (be16 hi lo), rest)) ∧
  ∀ (s : State) (imm8 : Byte) (addr16 : Addr16), s.RunsReference →
    let size := s.params.memSize
    exec (.ldai imm8) s = .next { s.past 1 s.flags with a := imm8 } ∧
    exec (.ldam addr16) s = .next { s.past 2 s.flags with a := Memory.read s.mem (addr16.toNat % size) } ∧
    exec .ldaxy s = .next { s.past 0 s.flags with
      a := Memory.read s.mem ((s.x.toNat + 256 * s.y.toNat) % size) } ∧
    exec (.ldao addr16) s = .next { s.past 2 s.flags with
      a := Memory.read s.mem ((addr16.toNat + s.x.toNat) % size) }

/-- LDXI, LDXM, LDYI, LDYM (42_data_movement.md R148, R149, R151, R152): the opcode of each, and its whole effect. -/
def Obligations.IndexRegisterLoads : Prop :=
  (∀ (imm8 hi lo : Byte) (rest : List Byte),
    decode (0x18 :: imm8 :: rest) = .ok (.ldxi imm8, rest) ∧
    decode (0x19 :: hi :: lo :: rest) = .ok (.ldxm (be16 hi lo), rest) ∧
    decode (0x1C :: imm8 :: rest) = .ok (.ldyi imm8, rest) ∧
    decode (0x1D :: hi :: lo :: rest) = .ok (.ldym (be16 hi lo), rest)) ∧
  ∀ (s : State) (imm8 : Byte) (addr16 : Addr16), s.RunsReference →
    let direct := Memory.read s.mem (addr16.toNat % s.params.memSize)
    exec (.ldxi imm8) s = .next { s.past 1 s.flags with x := imm8 } ∧
    exec (.ldxm addr16) s = .next { s.past 2 s.flags with x := direct } ∧
    exec (.ldyi imm8) s = .next { s.past 1 s.flags with y := imm8 } ∧
    exec (.ldym addr16) s = .next { s.past 2 s.flags with y := direct }

/-- STAM, STAXY, STAO, STXM, STYM (42_data_movement.md R145 to R147, R150, R153): the opcode of each, and its whole
effect: the byte at the effective address becomes the register's, every other byte and every other piece of state
but PC and the step count stays. -/
def Obligations.StoreInstructions : Prop :=
  (∀ (hi lo : Byte) (rest : List Byte),
    decode (0x14 :: hi :: lo :: rest) = .ok (.stam (be16 hi lo), rest) ∧
    decode (0x15 :: rest) = .ok (.staxy, rest) ∧
    decode (0x16 :: hi :: lo :: rest) = .ok (.stao (be16 hi lo), rest) ∧
    decode (0x1A :: hi :: lo :: rest) = .ok (.stxm (be16 hi lo), rest) ∧
    decode (0x1E :: hi :: lo :: rest) = .ok (.stym (be16 hi lo), rest)) ∧
  ∀ (s : State) (addr16 : Addr16), s.RunsReference → Memory.wf s.mem = true →
    let size := s.params.memSize
    let stores (i : Instr) (len ea : Nat) (v : Byte) : Prop :=
      ∃ mem : Memory, exec i s = .next { s.past len s.flags with mem := mem } ∧
        ∀ addr, Memory.read mem addr = if addr = ea then v else Memory.read s.mem addr
    stores (.stam addr16) 2 (addr16.toNat % size) s.a ∧
    stores .staxy 0 ((s.x.toNat + 256 * s.y.toNat) % size) s.a ∧
    stores (.stao addr16) 2 ((addr16.toNat + s.x.toNat) % size) s.a ∧
    stores (.stxm addr16) 2 (addr16.toNat % size) s.x ∧
    stores (.stym addr16) 2 (addr16.toNat % size) s.y

/-- TAX, TXA, TAY, TYA (42_data_movement.md R154 to R157): the opcode of each, and its whole effect. -/
def Obligations.TransferInstructions : Prop :=
  (∀ rest : List Byte,
    decode (0x20 :: rest) = .ok (.tax, rest) ∧ decode (0x21 :: rest) = .ok (.txa, rest) ∧
    decode (0x22 :: rest) = .ok (.tay, rest) ∧ decode (0x23 :: rest) = .ok (.tya, rest)) ∧
  ∀ s : State, s.RunsReference →
    exec .tax s = .next { s.past 0 s.flags with x := s.a } ∧
    exec .txa s = .next { s.past 0 s.flags with a := s.x } ∧
    exec .tay s = .next { s.past 0 s.flags with y := s.a } ∧
    exec .tya s = .next { s.past 0 s.flags with a := s.y }

/-- "an indexed write followed by an indexed read at the same coordinate pair returns the previously written byte"
(95_test_vectors.md E-06; 42_data_movement.md R143, R146; 20_memory.md R54): after `exec` of STAXY, whatever byte A is
given before it, `exec` of LDAXY puts the byte stored back in A and changes no memory. -/
def Obligations.IndexedWriteThenReadReturnsTheByte : Prop :=
  ∀ (s t u : State) (v : Byte), Memory.wf s.mem = true → exec .staxy s = .next t →
    exec .ldaxy { t with a := v } = .next u → u.a = s.a ∧ u.mem = t.mem

/-! ## Control transfer and halt -/

/-- JMP and the six conditional jumps (43_control.md R182 to R188): the opcode of each, its target and, when not
taken, the advanced PC; no register, flag or memory byte changes. -/
def Obligations.DirectJumps : Prop :=
  (∀ (hi lo : Byte) (rest : List Byte),
    decode (0x40 :: hi :: lo :: rest) = .ok (.jmp (be16 hi lo), rest) ∧
    decode (0x41 :: hi :: lo :: rest) = .ok (.jz (be16 hi lo), rest) ∧
    decode (0x42 :: hi :: lo :: rest) = .ok (.jnz (be16 hi lo), rest) ∧
    decode (0x43 :: hi :: lo :: rest) = .ok (.jn (be16 hi lo), rest) ∧
    decode (0x44 :: hi :: lo :: rest) = .ok (.jnn (be16 hi lo), rest) ∧
    decode (0x45 :: hi :: lo :: rest) = .ok (.jo (be16 hi lo), rest) ∧
    decode (0x46 :: hi :: lo :: rest) = .ok (.jno (be16 hi lo), rest)) ∧
  ∀ (s : State) (addr16 : Addr16), s.RunsReference →
    let taken : State := { s.past 2 s.flags with pc := BitVec.ofNat 16 (addr16.toNat % s.params.memSize) }
    let fallsThrough : State := s.past 2 s.flags
    exec (.jmp addr16) s = .next taken ∧
    exec (.jz addr16) s = .next (if s.flags.z = true then taken else fallsThrough) ∧
    exec (.jnz addr16) s = .next (if s.flags.z = true then fallsThrough else taken) ∧
    exec (.jn addr16) s = .next (if s.flags.n = true then taken else fallsThrough) ∧
    exec (.jnn addr16) s = .next (if s.flags.n = true then fallsThrough else taken) ∧
    exec (.jo addr16) s = .next (if s.flags.o = true then taken else fallsThrough) ∧
    exec (.jno addr16) s = .next (if s.flags.o = true then fallsThrough else taken)

/-- JRF and JRB (43_control.md R189, R190): the opcode of each; the target counts from the byte after the jump and
wraps at `MEM_SIZE` both ways; no register, flag or memory byte changes. -/
def Obligations.RelativeJumps : Prop :=
  (∀ rest : List Byte, decode (0x47 :: rest) = .ok (.jrf, rest) ∧ decode (0x48 :: rest) = .ok (.jrb, rest)) ∧
  ∀ s : State, s.RunsReference → s.Inv →
    ∃ forward backward : Addr16,
      exec .jrf s = .next { s.past 0 s.flags with pc := forward } ∧
      exec .jrb s = .next { s.past 0 s.flags with pc := backward } ∧
      (forward.toNat : Int) = ((s.pc.toNat : Int) + 1 + s.x.toNat) % s.params.memSize ∧
      (backward.toNat : Int) = ((s.pc.toNat : Int) + 1 - s.x.toNat) % s.params.memSize

/-- HLT (43_control.md R191): its opcode; H becomes true and the status Halted, PC is past the HLT, the step is counted,
Z, N, O, the registers and memory stay; and nothing runs after it. -/
def Obligations.HltHaltsTheEngine : Prop :=
  (∀ rest : List Byte, decode (0x01 :: rest) = .ok (.hlt, rest)) ∧
  ∀ s : State, s.RunsReference →
    let t : State := { s with
      pc := BitVec.ofNat 16 ((s.pc.toNat + 1) % s.params.memSize), flags := { s.flags with h := true },
      status := .halted, steps := s.steps + 1 }
    exec .hlt s = .next t ∧ ∀ u, step t ≠ .next u

/-! ## Block instructions -/

/-- FILL (44_block.md R211): its opcode; the A bytes from the indexed address on, wrapping, become `imm8`, every other
byte and every register and flag stays. -/
def Obligations.FillWritesTheRun : Prop :=
  (∀ (imm8 : Byte) (rest : List Byte), decode (0x50 :: imm8 :: rest) = .ok (.fill imm8, rest)) ∧
  ∀ (s : State) (imm8 : Byte), s.RunsReference → s.Inv →
    let base := (s.x.toNat + 256 * s.y.toNat) % s.params.memSize
    ∃ mem : Memory, exec (.fill imm8) s = .next { s.past 1 s.flags with mem := mem } ∧
      (∀ i, i < s.a.toNat → Memory.read mem ((base + i) % s.params.memSize) = imm8) ∧
      ∀ addr, (∀ i, i < s.a.toNat → addr ≠ (base + i) % s.params.memSize) →
        Memory.read mem addr = Memory.read s.mem addr

/-- COPY under `snapshot` (44_block.md R212): its opcode; byte `i` of the destination run becomes byte `i` of the source
run as it stood before the step, every other byte and every register and flag stays. -/
def Obligations.CopySnapshotCopiesTheRun : Prop :=
  (∀ (hi lo : Byte) (rest : List Byte), decode (0x51 :: hi :: lo :: rest) = .ok (.copy (be16 hi lo), rest)) ∧
  ∀ (s : State) (addr16 : Addr16), s.RunsReference → s.Inv → s.params.copyOverlap = .snapshot →
    let base := (s.x.toNat + 256 * s.y.toNat) % s.params.memSize
    let dst := addr16.toNat % s.params.memSize
    ∃ mem : Memory, exec (.copy addr16) s = .next { s.past 2 s.flags with mem := mem } ∧
      (∀ i, i < s.a.toNat → Memory.read mem ((dst + i) % s.params.memSize) =
        Memory.read s.mem ((base + i) % s.params.memSize)) ∧
      ∀ addr, (∀ i, i < s.a.toNat → addr ≠ (dst + i) % s.params.memSize) →
        Memory.read mem addr = Memory.read s.mem addr

/-- COPY under `forward` when the destination starts `k` bytes inside the source run: "the first `k` source bytes repeat
through the destination" (44_block.md R214); every byte outside the destination run and every register and flag
stays. -/
def Obligations.CopyForwardRepeatsTheFirstBytes : Prop :=
  ∀ (s : State) (addr16 : Addr16) (k : Nat), s.RunsReference → s.Inv → s.params.copyOverlap = .forward →
    let base := (s.x.toNat + 256 * s.y.toNat) % s.params.memSize
    let dst := addr16.toNat % s.params.memSize
    0 < k → k < s.a.toNat → dst = (base + k) % s.params.memSize →
    ∃ mem : Memory, exec (.copy addr16) s = .next { s.past 2 s.flags with mem := mem } ∧
      (∀ i, i < s.a.toNat → Memory.read mem ((dst + i) % s.params.memSize) =
        Memory.read s.mem ((base + i % k) % s.params.memSize)) ∧
      ∀ addr, (∀ i, i < s.a.toNat → addr ≠ (dst + i) % s.params.memSize) →
        Memory.read mem addr = Memory.read s.mem addr

/-- "When the destination starts before the source run or outside it, the two values agree" (44_block.md R214): unless
the destination starts inside the source run past its first byte, COPY leaves the same memory under `snapshot` and
under `forward`. -/
def Obligations.CopyModesAgreeWithoutOverlap : Prop :=
  ∀ (s : State) (addr16 : Addr16), s.Inv →
    let base := (s.x.toNat + 256 * s.y.toNat) % s.params.memSize
    let dst := addr16.toNat % s.params.memSize
    (∀ k, 0 < k → k < s.a.toNat → dst ≠ (base + k) % s.params.memSize) →
    ∃ t u : State, exec (.copy addr16) (s.withCopyOverlap .snapshot) = .next t ∧
      exec (.copy addr16) (s.withCopyOverlap .forward) = .next u ∧
      t.mem = u.mem ∧ u = t.withCopyOverlap .forward

/-- BCMP (44_block.md R213): its opcode; Z becomes true exactly when the two runs are equal byte for byte, everything
else but PC and the step count stays. -/
def Obligations.BcmpComparesTheRuns : Prop :=
  (∀ (hi lo : Byte) (rest : List Byte), decode (0x52 :: hi :: lo :: rest) = .ok (.bcmp (be16 hi lo), rest)) ∧
  ∀ (s : State) (addr16 : Addr16), s.RunsReference →
    let base := (s.x.toNat + 256 * s.y.toNat) % s.params.memSize
    let dst := addr16.toNat % s.params.memSize
    ∃ eq : Bool, exec (.bcmp addr16) s = .next (s.past 2 { s.flags with z := eq }) ∧
      (eq = true ↔ ∀ i, i < s.a.toNat →
        Memory.read s.mem ((base + i) % s.params.memSize) = Memory.read s.mem ((dst + i) % s.params.memSize))

/-! ## What an instruction leaves unchanged -/

/-- Every byte of memory outside the addresses the instruction stores to reads as before, for every instruction and
every catalog (20_memory.md R42; 42_data_movement.md R140; 44_block.md R210). -/
def Obligations.OnlyStoredBytesChange : Prop :=
  ∀ (i : Instr) (s t : State), exec i s = .next t →
    ∀ addr, ¬ i.storesTo s addr → Memory.read t.mem addr = Memory.read s.mem addr

/-- "the only writers of A, X and Y are the instruction rules": a register changes only by an instruction that
10_state.md R23 lists as its writer (R22). -/
def Obligations.OnlyWritersChangeRegisters : Prop :=
  ∀ (i : Instr) (s t : State), exec i s = .next t →
    (i.mnemonic.writesA = false → t.a = s.a) ∧ (i.mnemonic.writesX = false → t.x = s.x) ∧
    (i.mnemonic.writesY = false → t.y = s.y)

/-- "undeclared flags retain their prior value" (10_state.md R27, 30_encoding.md R73), in every catalog: for every
instruction of the table, and for every step whose opcode looks up a descriptor, whatever its rule. -/
def Obligations.UndeclaredFlagsAreKept : Prop :=
  let kept (d : FlagSet) (s t : State) : Prop :=
    (d.z = false → t.flags.z = s.flags.z) ∧ (d.n = false → t.flags.n = s.flags.n) ∧
    (d.o = false → t.flags.o = s.flags.o) ∧ (d.h = false → t.flags.h = s.flags.h)
  (∀ (i : Instr) (s t : State), exec i s = .next t → kept (s.declared i.mnemonic) s t) ∧
  ∀ (s t : State) (d : Descriptor), s.params.catalog.lookup (s.memRead s.pc.toNat) = some d → step s = .next t →
    kept d.flags s t

/-- Which instructions write each flag in the reference catalog (10_state.md R28): no other instruction changes it. -/
def Obligations.ReferenceFlagWriters : Prop :=
  ∀ (i : Instr) (s t : State), s.RunsReference → exec i s = .next t →
    (i.mnemonic.writesZ = false → t.flags.z = s.flags.z) ∧ (i.mnemonic.writesN = false → t.flags.n = s.flags.n) ∧
    (i.mnemonic.writesO = false → t.flags.o = s.flags.o) ∧ (i.mnemonic ≠ .hlt → t.flags.h = s.flags.h)

/-- "Only the jump instructions … write PC from their bodies; every other instruction leaves PC at the advanced value"
(10_state.md R25, R24). -/
def Obligations.OnlyJumpsLeaveTheAdvancedPc : Prop :=
  ∀ (i : Instr) (s t : State), s.Inv → exec i s = .next t → i.mnemonic.isJump = false →
    t.pc.toNat = (s.pc.toNat + 1 + i.mnemonic.operandLength) % s.params.memSize

/-- HLT alone sets H, and so alone makes the status Halted, and it always does: "Halt state: terminal engine state reached
only via the halt instruction" (10_state.md R28, 43_control.md R191, 30_encoding.md R66(d)). In every catalog a step of a
Running core halts exactly when the descriptor of its opcode is HLT, whatever rule that catalog gives it (a rule written
out gives H as true by its form, log 2); and of the instructions of the table HLT alone, where a descriptor of its rule
declares H, as in the reference catalog. -/
def Obligations.OnlyHltHalts : Prop :=
  (∀ (s t : State) (d : Descriptor), s.Inv → s.status = .running →
    s.params.catalog.lookup (s.memRead s.pc.toNat) = some d → step s = .next t →
    (t.status = .halted ↔ d.mnemonic = Mnemonic.hlt.name) ∧ (t.flags.h = true ↔ d.mnemonic = Mnemonic.hlt.name)) ∧
  (∀ (i : Instr) (s t : State), s.Inv → s.status = .running → exec i s = .next t →
    (t.status = .halted ↔ i = .hlt ∧ (s.declared .hlt).h = true) ∧
    (t.flags.h = true ↔ i = .hlt ∧ (s.declared .hlt).h = true)) ∧
  ∀ s : State, s.RunsReference → (s.declared .hlt).h = true

/-- "`MEM_SIZE`, `CATALOG`, `COPY_OVERLAP` and `PERIPH_RANGE` … are not changed by reset or by any step"
(70_reset_and_hazards.md R271). -/
def Obligations.ParametersNeverChange : Prop :=
  (∀ s t : State, step s = .next t → t.params = s.params) ∧ (∀ s : State, (hostReset s).params = s.params)

/-! ## Memory -/

/-- A read of the byte just written gives it back and a read elsewhere is unchanged, addresses taken modulo `MEM_SIZE`
(20_memory.md R41, R42). -/
def Obligations.ReadAfterWrite : Prop :=
  ∀ (s : State) (addr addr' : Nat) (v : Byte), Memory.wf s.mem = true →
    (s.memWrite addr v).memRead addr' =
      if addr' % s.params.memSize = addr % s.params.memSize then v else s.memRead addr'

/-- Two memories in canonical form that read alike at every address are equal as data: the model's form of memory
(log 7) adds no state to the spec's `M`. -/
def Obligations.CanonicalMemoriesThatReadAlikeAreEqual : Prop :=
  ∀ m m' : Memory, Memory.wf m = true → Memory.wf m' = true →
    (∀ addr, Memory.read m addr = Memory.read m' addr) → m = m'

/-- The history of a step's accesses (20_memory.md R59; the model's `stepAccesses`, log 9): run on the memory before it, it
gives every read the byte it returned and ends in the memory after it (R54). It begins with the reads at `pc0`, `pc0+1`,
`pc0+2` modulo `MEM_SIZE`, as many as the instruction has bytes, and is the opcode read alone where the lookup fails; then
come the accesses of the body, in the order of its pseudocode, here for a direct load and store and for the block
instructions (44_block.md R210 to R213). -/
def Obligations.HistoryReplaysToTheNewMemory : Prop :=
  (∀ s t : State, step s = .next t → replay (stepAccesses s) s.mem = some t.mem) ∧
  ∀ s : State,
    let size := s.params.memSize
    let reads (addr : Nat) : Access := .read (addr % size) (Memory.read s.mem (addr % size))
    let base := (s.x.toNat + 256 * s.y.toNat) % size
    (s.status = .running →
      (s.params.catalog.lookup (Memory.read s.mem (s.pc.toNat % size)) = none →
        stepAccesses s = [reads s.pc.toNat]) ∧
      ∀ d, s.params.catalog.lookup (Memory.read s.mem (s.pc.toNat % size)) = some d →
        let operands := (List.range d.length).map fun k => Memory.read s.mem ((s.pc.toNat + 1 + k) % size)
        stepAccesses s =
          ((List.range (1 + d.length)).map fun k => reads (s.pc.toNat + k)) ++ fetchedAccesses ⟨d, operands⟩ s ∧
        ∀ m, d.rule = .reference m → fetchedAccesses ⟨d, operands⟩ s = bodyAccesses (m.instr operands) s) ∧
    ∀ (imm8 : Byte) (addr16 : Addr16),
      let ea := addr16.toNat % size
      bodyAccesses (.ldam addr16) s = [reads ea] ∧ bodyAccesses (.stam addr16) s = [.write ea s.a] ∧
      bodyAccesses (.fill imm8) s = ((List.range s.a.toNat).map fun i => .write ((base + i) % size) imm8) ∧
      bodyAccesses (.bcmp addr16) s = ((List.range s.a.toNat).flatMap fun i => [reads (base + i), reads (ea + i)]) ∧
      (s.params.copyOverlap = .snapshot → bodyAccesses (.copy addr16) s =
        ((List.range s.a.toNat).map fun i => reads (base + i)) ++
        ((List.range s.a.toNat).map fun i => .write ((ea + i) % size) (Memory.read s.mem ((base + i) % size))))

/-- "Each write is also an event the external peripheral may observe" (20_memory.md R42, R47). The writes observed are exactly
the write accesses of the step's history to addresses of `PERIPH_RANGE`, whatever the rule that made them and whatever
byte was there, and no read is reported. So a byte of the range that a step changes is among them, with its new
value, and so is a byte there that the instruction at PC stores to, even where the byte stored is the one already there. -/
def Obligations.PeripheralSeesEveryChange : Prop :=
  (∀ (s : State) (addr : Nat) (v : Byte), (addr, v) ∈ peripheralWrites s ↔
    Access.write addr v ∈ stepAccesses s ∧ s.params.periph.contains addr = true) ∧
  ∀ (s t : State) (addr : Nat), s.Inv → step s = .next t → s.params.periph.contains addr = true →
    (Memory.read t.mem addr ≠ Memory.read s.mem addr → (addr, Memory.read t.mem addr) ∈ peripheralWrites s) ∧
    (∀ (d : Descriptor) (m : Mnemonic), s.params.catalog.lookup (s.memRead s.pc.toNat) = some d →
      d.rule = .reference m →
      (m.instr (s.bytesFrom (s.pc.toNat + 1) d.length)).storesTo s addr →
      (addr, Memory.read t.mem addr) ∈ peripheralWrites s)

/-- "the core performs no special-casing": binding the peripheral to another range changes no step
(20_memory.md R47, 00_scope.md R8). -/
def Obligations.StepIgnoresThePeripheral : Prop :=
  ∀ (s t : State) (r : PeriphRange), step s = .next t → step (s.withPeriph r) = .next (t.withPeriph r)

/-! ## The invariant -/

/-- Every step of every state that meets the invariant leads to a state that meets it: PC stays below `MEM_SIZE`
(10_state.md R24), the status is Halted exactly when H is set (R31), a Faulted core stands at an unregistered opcode
(60_exceptions.md R241), and the memory keeps its form. -/
def Obligations.StepKeepsTheInvariant : Prop :=
  ∀ s t : State, s.Inv → step s = .next t → t.Inv

/-- The reset state of every well-formed instance meets the invariant, `State.reset` among them. -/
def Obligations.ResetMeetsTheInvariant : Prop :=
  (∀ p : Params, p.wf = true → (State.init p).Inv) ∧ State.reset.Inv

/-- Loading an image keeps the invariant (70_reset_and_hazards.md R272). -/
def Obligations.LoadKeepsTheInvariant : Prop :=
  ∀ (s t : State) (image : List Byte), s.Inv → load image s = .ok t → t.Inv

/-- Every state an instance can be in, by construction, reset, load and steps, meets the invariant and keeps the
instance's parameters (70_reset_and_hazards.md R271, R278). -/
def Obligations.ReachableStatesMeetTheInvariant : Prop :=
  ∀ (p : Params) (s : State), Reachable p s → s.Inv ∧ s.params = p

/-! ## Reset, load, run -/

/-- Reset sets every piece of state to the value of 10_state.md R37, "whatever the state before"
(70_reset_and_hazards.md R270). -/
def Obligations.ResetValues : Prop :=
  ∀ s : State,
    let r := hostReset s
    r.a = 0 ∧ r.x = 0 ∧ r.y = 0 ∧ r.pc = 0 ∧
    r.flags.z = false ∧ r.flags.n = false ∧ r.flags.o = false ∧ r.flags.h = false ∧
    (∀ addr, Memory.read r.mem addr = 0) ∧ r.status = .running ∧ r.steps = 0 ∧ r.faultRecord = none ∧
    r.params = s.params

/-- `load(b)` before the first step sets `M[i]` to `b[i]`, "leaves every other byte 0", whatever an earlier load left there,
and changes nothing else; an image longer than `MEM_SIZE` is refused (70_reset_and_hazards.md R272, R278; log 8); and no load
is accepted once a step has run. That a load both too late and too long is refused as too late is the model's choice
(DESIGN CHOICE, log 19). -/
def Obligations.LoadPlacesTheImage : Prop :=
  (∀ (s : State) (image : List Byte), s.Inv → s.status = .running → s.steps = 0 → image.length ≤ s.params.memSize →
    ∃ mem : Memory, load image s = .ok { s with mem := mem } ∧ ∀ addr, Memory.read mem addr = image.getD addr 0) ∧
  (∀ (s : State) (image : List Byte), s.status = .running → s.steps = 0 → s.params.memSize < image.length →
    load image s = .error .imageTooLong) ∧
  ∀ (s t : State) (image : List Byte), step s = .next t → load image t = .error .loadAfterFirstStep

/-- "a core started with no image … raises UnknownOpcode at address 0 on its first step" (70_reset_and_hazards.md R273),
with the reference catalog. -/
def Obligations.EmptyMemoryFaultsAtOnce : Prop :=
  ∀ p : Params, p.catalog = Catalog.reference →
    step (State.init p) = .next { State.init p with status := .faulted } ∧
    ({ State.init p with status := .faulted } : State).faultRecord = some ⟨1, 0x00, 0⟩

/-- `run` repeats `step` while the status is Running and the budget lasts, and continues where it stopped
(70_reset_and_hazards.md R276): a budget of 0 leaves a Running core as it is and reports the budget; a budget of `n + 1`
takes the next step and goes on with `n`; and running `m` steps and then `n` is running `m + n`. The reports equated are
in the model's form (log 10). -/
def Obligations.RunResumesWhereItStopped : Prop :=
  (∀ s : State, s.status = .running → run 0 [] s = ⟨s, .budget⟩) ∧
  (∀ (n : Nat) (s t : State), s.status = .running → step s = .next t → run (n + 1) [] s = run n [] t) ∧
  ∀ (m n : Nat) (s : State), run (m + n) [] s = run n [] (run m [] s).state

/-- "Step budgets and stop signals change only where a run pauses, never the state it reaches at a given step count"
(70_reset_and_hazards.md R280, R276): whatever the budget and the stop signal, a run from any state takes some number `k` of
steps of the machine, no sample of the stop signal before the `k`-th being raised, and says truly what ended it: a
status that is no longer Running, the budget after as many steps, or a stop signal raised at the `k`-th sample with
budget left. The signal's form, and that the status is looked at first and the budget second, are the model's (log 10). -/
def Obligations.StopSignalOnlyPauses : Prop :=
  ∀ (budget : Nat) (stop : List Bool) (s : State),
    let report := run budget stop s
    ∃ k, k ≤ budget ∧ Host.Core.run Sys2Proof.core k s = .next report.state ∧
      (∀ j, j < k → stop.getD j false = false) ∧
      (report.ended = .notRunning ↔ report.state.status ≠ .running) ∧
      (report.ended = .budget → k = budget) ∧
      (report.ended = .stopSignal → k < budget ∧ stop.getD k false = true)

/-- The host's view (70_reset_and_hazards.md R277): A, X, Y, PC and the step count as they are; the packed flags are
`Z*1 + N*2 + O*4 + H*8` and determine the four flags; the status codes are 0, 1 and 2; the halted predicate is `status =
Halted`; and a fault record exists exactly in Faulted (10_state.md R30, R31, R33). -/
def Obligations.ObservationShowsTheState : Prop :=
  ∀ s t : State,
    (observe s).a = s.a ∧ (observe s).x = s.x ∧ (observe s).y = s.y ∧ (observe s).pc = s.pc ∧
    (observe s).steps = s.steps ∧
    (observe s).flags = (if s.flags.z then 1 else 0) + (if s.flags.n then 2 else 0) +
      (if s.flags.o then 4 else 0) + (if s.flags.h then 8 else 0) ∧
    ((observe s).flags = (observe t).flags → s.flags = t.flags) ∧
    (observe s).status = (match s.status with | .running => 0 | .halted => 1 | .faulted => 2) ∧
    ((observe s).halted = true ↔ s.Ended) ∧ ((observe s).faultRecord.isSome = true ↔ s.Failed) ∧
    (s.Failed → (observe s).faultRecord = some ⟨1, Memory.read s.mem (s.pc.toNat % s.params.memSize), s.pc⟩)

/-! ## The assembler -/

/-- Whatever the assembler produces from a source text is the bytes of its instruction lines, in order (30_encoding.md R85
to R89): line `k` gives the opcode of the descriptor with the line's mnemonic and the bytes of the line's operand tokens,
as many as the descriptor's length, and they decode back to that instruction. -/
def Obligations.AssembledStreamIsAProgram : Prop :=
  ∀ (c : Catalog) (source : Text) (bytes : List Byte), c.wf = true → assemble c source = .ok bytes →
    let lines := (splitLines source).map parseLine
    ∃ prog : List Fetched, bytes = prog.flatMap Fetched.bytes ∧
      List.Forall₂ (Written c lines) (instructionLines lines) prog ∧
      ∀ f ∈ prog, ∀ rest, decodeFetched c (f.bytes ++ rest) = .ok (f, rest)

/-- "a byte stream independent of label declaration order" (30_encoding.md R90): two labels declared one after the other
may be declared in either order. -/
def Obligations.LabelOrderDoesNotMatter : Prop :=
  ∀ (c : Catalog) (before after : List Line) (l l' : Text) (bytes : List Byte),
    assembleLines c (before ++ .label l :: .label l' :: after) = .ok bytes →
    assembleLines c (before ++ .label l' :: .label l :: after) = .ok bytes

/-- `DuplicateLabel` is raised when a label name is defined twice, and rejects the whole program (30_encoding.md R83 to R85).
That it is the error reported whatever the other lines hold is the model's order of errors (DESIGN CHOICE, log 11). -/
def Obligations.DuplicateLabelIsRejected : Prop :=
  ∀ (c : Catalog) (before between after : List Line) (l : Text),
    ∃ line, assembleLines c (before ++ .label l :: between ++ .label l :: after) = .error (.duplicateLabel line)

/-- "label operands substitute the two-byte big-endian resolved address" (30_encoding.md R86), whether the label is defined
on a line before or after the one that uses it (R90): the line's bytes stand at the size of the lines before it, and the
operand is the size of the lines before the label's definition (R83). -/
def Obligations.LabelOperandEmitsItsOffset : Prop :=
  ∀ (c : Catalog) (lines beforeUse afterUse beforeLabel afterLabel : List Line) (mnemonic l : Text) (bytes : List Byte),
    lines = beforeUse ++ .instruction mnemonic [l] :: afterUse → lines = beforeLabel ++ .label l :: afterLabel →
    isName l = true → assembleLines c lines = .ok bytes →
    ∃ (d : Descriptor) (head tail : List Byte) (offset : Addr16),
      d ∈ c ∧ d.mnemonic = mnemonic ∧ bytes = head ++ d.opcode :: hiByte offset :: loByte offset :: tail ∧
      head.length = programSize c beforeUse ∧ offset.toNat = programSize c beforeLabel
end

