-- ==== Sys2Proof/Laws/State.lean ====
section
/-! SUPPORT. One lemma per field of State and per update, so that no later proof unfolds a record update. -/

namespace Sys2Proof.Machine

@[simp] theorem State.setA_params (s : State) (v : Byte) : (s.setA v).params = s.params := rfl
@[simp] theorem State.setA_a (s : State) (v : Byte) : (s.setA v).a = v := rfl
@[simp] theorem State.setA_x (s : State) (v : Byte) : (s.setA v).x = s.x := rfl
@[simp] theorem State.setA_y (s : State) (v : Byte) : (s.setA v).y = s.y := rfl
@[simp] theorem State.setA_pc (s : State) (v : Byte) : (s.setA v).pc = s.pc := rfl
@[simp] theorem State.setA_flags (s : State) (v : Byte) : (s.setA v).flags = s.flags := rfl
@[simp] theorem State.setA_mem (s : State) (v : Byte) : (s.setA v).mem = s.mem := rfl
@[simp] theorem State.setA_status (s : State) (v : Byte) : (s.setA v).status = s.status := rfl
@[simp] theorem State.setA_steps (s : State) (v : Byte) : (s.setA v).steps = s.steps := rfl

@[simp] theorem State.setX_params (s : State) (v : Byte) : (s.setX v).params = s.params := rfl
@[simp] theorem State.setX_a (s : State) (v : Byte) : (s.setX v).a = s.a := rfl
@[simp] theorem State.setX_x (s : State) (v : Byte) : (s.setX v).x = v := rfl
@[simp] theorem State.setX_y (s : State) (v : Byte) : (s.setX v).y = s.y := rfl
@[simp] theorem State.setX_pc (s : State) (v : Byte) : (s.setX v).pc = s.pc := rfl
@[simp] theorem State.setX_flags (s : State) (v : Byte) : (s.setX v).flags = s.flags := rfl
@[simp] theorem State.setX_mem (s : State) (v : Byte) : (s.setX v).mem = s.mem := rfl
@[simp] theorem State.setX_status (s : State) (v : Byte) : (s.setX v).status = s.status := rfl
@[simp] theorem State.setX_steps (s : State) (v : Byte) : (s.setX v).steps = s.steps := rfl

@[simp] theorem State.setY_params (s : State) (v : Byte) : (s.setY v).params = s.params := rfl
@[simp] theorem State.setY_a (s : State) (v : Byte) : (s.setY v).a = s.a := rfl
@[simp] theorem State.setY_x (s : State) (v : Byte) : (s.setY v).x = s.x := rfl
@[simp] theorem State.setY_y (s : State) (v : Byte) : (s.setY v).y = v := rfl
@[simp] theorem State.setY_pc (s : State) (v : Byte) : (s.setY v).pc = s.pc := rfl
@[simp] theorem State.setY_flags (s : State) (v : Byte) : (s.setY v).flags = s.flags := rfl
@[simp] theorem State.setY_mem (s : State) (v : Byte) : (s.setY v).mem = s.mem := rfl
@[simp] theorem State.setY_status (s : State) (v : Byte) : (s.setY v).status = s.status := rfl
@[simp] theorem State.setY_steps (s : State) (v : Byte) : (s.setY v).steps = s.steps := rfl

@[simp] theorem State.setPc_params (s : State) (target : Nat) : (s.setPc target).params = s.params := rfl
@[simp] theorem State.setPc_a (s : State) (target : Nat) : (s.setPc target).a = s.a := rfl
@[simp] theorem State.setPc_x (s : State) (target : Nat) : (s.setPc target).x = s.x := rfl
@[simp] theorem State.setPc_y (s : State) (target : Nat) : (s.setPc target).y = s.y := rfl
@[simp] theorem State.setPc_pc (s : State) (target : Nat) : (s.setPc target).pc = BitVec.ofNat 16 (target % s.params.memSize) := rfl
@[simp] theorem State.setPc_flags (s : State) (target : Nat) : (s.setPc target).flags = s.flags := rfl
@[simp] theorem State.setPc_mem (s : State) (target : Nat) : (s.setPc target).mem = s.mem := rfl
@[simp] theorem State.setPc_status (s : State) (target : Nat) : (s.setPc target).status = s.status := rfl
@[simp] theorem State.setPc_steps (s : State) (target : Nat) : (s.setPc target).steps = s.steps := rfl

@[simp] theorem State.setPcInt_params (s : State) (target : Int) : (s.setPcInt target).params = s.params := rfl
@[simp] theorem State.setPcInt_a (s : State) (target : Int) : (s.setPcInt target).a = s.a := rfl
@[simp] theorem State.setPcInt_x (s : State) (target : Int) : (s.setPcInt target).x = s.x := rfl
@[simp] theorem State.setPcInt_y (s : State) (target : Int) : (s.setPcInt target).y = s.y := rfl
@[simp] theorem State.setPcInt_pc (s : State) (target : Int) : (s.setPcInt target).pc = BitVec.ofNat 16 (target % (s.params.memSize : Int)).toNat := rfl
@[simp] theorem State.setPcInt_flags (s : State) (target : Int) : (s.setPcInt target).flags = s.flags := rfl
@[simp] theorem State.setPcInt_mem (s : State) (target : Int) : (s.setPcInt target).mem = s.mem := rfl
@[simp] theorem State.setPcInt_status (s : State) (target : Int) : (s.setPcInt target).status = s.status := rfl
@[simp] theorem State.setPcInt_steps (s : State) (target : Int) : (s.setPcInt target).steps = s.steps := rfl

@[simp] theorem State.advanceBy_params (s : State) (length : Nat) : (s.advanceBy length).params = s.params := rfl
@[simp] theorem State.advanceBy_a (s : State) (length : Nat) : (s.advanceBy length).a = s.a := rfl
@[simp] theorem State.advanceBy_x (s : State) (length : Nat) : (s.advanceBy length).x = s.x := rfl
@[simp] theorem State.advanceBy_y (s : State) (length : Nat) : (s.advanceBy length).y = s.y := rfl
@[simp] theorem State.advanceBy_pc (s : State) (length : Nat) : (s.advanceBy length).pc = BitVec.ofNat 16 ((s.pc.toNat + 1 + length) % s.params.memSize) := rfl
@[simp] theorem State.advanceBy_flags (s : State) (length : Nat) : (s.advanceBy length).flags = s.flags := rfl
@[simp] theorem State.advanceBy_mem (s : State) (length : Nat) : (s.advanceBy length).mem = s.mem := rfl
@[simp] theorem State.advanceBy_status (s : State) (length : Nat) : (s.advanceBy length).status = s.status := rfl
@[simp] theorem State.advanceBy_steps (s : State) (length : Nat) : (s.advanceBy length).steps = s.steps := rfl

@[simp] theorem State.advance_params (s : State) (m : Mnemonic) : (s.advance m).params = s.params := rfl
@[simp] theorem State.advance_a (s : State) (m : Mnemonic) : (s.advance m).a = s.a := rfl
@[simp] theorem State.advance_x (s : State) (m : Mnemonic) : (s.advance m).x = s.x := rfl
@[simp] theorem State.advance_y (s : State) (m : Mnemonic) : (s.advance m).y = s.y := rfl
@[simp] theorem State.advance_pc (s : State) (m : Mnemonic) : (s.advance m).pc = BitVec.ofNat 16 ((s.pc.toNat + 1 + m.operandLength) % s.params.memSize) := rfl
@[simp] theorem State.advance_flags (s : State) (m : Mnemonic) : (s.advance m).flags = s.flags := rfl
@[simp] theorem State.advance_mem (s : State) (m : Mnemonic) : (s.advance m).mem = s.mem := rfl
@[simp] theorem State.advance_status (s : State) (m : Mnemonic) : (s.advance m).status = s.status := rfl
@[simp] theorem State.advance_steps (s : State) (m : Mnemonic) : (s.advance m).steps = s.steps := rfl

@[simp] theorem State.memWrite_params (s : State) (addr : Nat) (v : Byte) : (s.memWrite addr v).params = s.params := rfl
@[simp] theorem State.memWrite_a (s : State) (addr : Nat) (v : Byte) : (s.memWrite addr v).a = s.a := rfl
@[simp] theorem State.memWrite_x (s : State) (addr : Nat) (v : Byte) : (s.memWrite addr v).x = s.x := rfl
@[simp] theorem State.memWrite_y (s : State) (addr : Nat) (v : Byte) : (s.memWrite addr v).y = s.y := rfl
@[simp] theorem State.memWrite_pc (s : State) (addr : Nat) (v : Byte) : (s.memWrite addr v).pc = s.pc := rfl
@[simp] theorem State.memWrite_flags (s : State) (addr : Nat) (v : Byte) : (s.memWrite addr v).flags = s.flags := rfl
@[simp] theorem State.memWrite_mem (s : State) (addr : Nat) (v : Byte) : (s.memWrite addr v).mem = Memory.write s.mem (addr % s.params.memSize) v := rfl
@[simp] theorem State.memWrite_status (s : State) (addr : Nat) (v : Byte) : (s.memWrite addr v).status = s.status := rfl
@[simp] theorem State.memWrite_steps (s : State) (addr : Nat) (v : Byte) : (s.memWrite addr v).steps = s.steps := rfl

@[simp] theorem State.commit_params (s : State) (d : FlagSet) (f : Flags) (v : FlagValues) : (s.commit d f v).params = s.params := rfl
@[simp] theorem State.commit_a (s : State) (d : FlagSet) (f : Flags) (v : FlagValues) : (s.commit d f v).a = s.a := rfl
@[simp] theorem State.commit_x (s : State) (d : FlagSet) (f : Flags) (v : FlagValues) : (s.commit d f v).x = s.x := rfl
@[simp] theorem State.commit_y (s : State) (d : FlagSet) (f : Flags) (v : FlagValues) : (s.commit d f v).y = s.y := rfl
@[simp] theorem State.commit_pc (s : State) (d : FlagSet) (f : Flags) (v : FlagValues) : (s.commit d f v).pc = s.pc := rfl
@[simp] theorem State.commit_flags (s : State) (d : FlagSet) (f : Flags) (v : FlagValues) : (s.commit d f v).flags = f.commit d v := rfl
@[simp] theorem State.commit_mem (s : State) (d : FlagSet) (f : Flags) (v : FlagValues) : (s.commit d f v).mem = s.mem := rfl
@[simp] theorem State.commit_status (s : State) (d : FlagSet) (f : Flags) (v : FlagValues) : (s.commit d f v).status = s.status := rfl
@[simp] theorem State.commit_steps (s : State) (d : FlagSet) (f : Flags) (v : FlagValues) : (s.commit d f v).steps = s.steps := rfl

@[simp] theorem State.clearMemory_params (s : State) : s.clearMemory.params = s.params := rfl
@[simp] theorem State.clearMemory_a (s : State) : s.clearMemory.a = s.a := rfl
@[simp] theorem State.clearMemory_x (s : State) : s.clearMemory.x = s.x := rfl
@[simp] theorem State.clearMemory_y (s : State) : s.clearMemory.y = s.y := rfl
@[simp] theorem State.clearMemory_pc (s : State) : s.clearMemory.pc = s.pc := rfl
@[simp] theorem State.clearMemory_flags (s : State) : s.clearMemory.flags = s.flags := rfl
@[simp] theorem State.clearMemory_mem (s : State) : s.clearMemory.mem = [] := rfl
@[simp] theorem State.clearMemory_status (s : State) : s.clearMemory.status = s.status := rfl
@[simp] theorem State.clearMemory_steps (s : State) : s.clearMemory.steps = s.steps := rfl

@[simp] theorem State.countStep_params (s : State) : s.countStep.params = s.params := rfl
@[simp] theorem State.countStep_a (s : State) : s.countStep.a = s.a := rfl
@[simp] theorem State.countStep_x (s : State) : s.countStep.x = s.x := rfl
@[simp] theorem State.countStep_y (s : State) : s.countStep.y = s.y := rfl
@[simp] theorem State.countStep_pc (s : State) : s.countStep.pc = s.pc := rfl
@[simp] theorem State.countStep_flags (s : State) : s.countStep.flags = s.flags := rfl
@[simp] theorem State.countStep_mem (s : State) : s.countStep.mem = s.mem := rfl
@[simp] theorem State.countStep_status (s : State) : s.countStep.status = s.status := rfl
@[simp] theorem State.countStep_steps (s : State) : s.countStep.steps = s.steps + 1 := rfl

@[simp] theorem State.haltCheck_params (s : State) : s.haltCheck.params = s.params := rfl
@[simp] theorem State.haltCheck_a (s : State) : s.haltCheck.a = s.a := rfl
@[simp] theorem State.haltCheck_x (s : State) : s.haltCheck.x = s.x := rfl
@[simp] theorem State.haltCheck_y (s : State) : s.haltCheck.y = s.y := rfl
@[simp] theorem State.haltCheck_pc (s : State) : s.haltCheck.pc = s.pc := rfl
@[simp] theorem State.haltCheck_flags (s : State) : s.haltCheck.flags = s.flags := rfl
@[simp] theorem State.haltCheck_mem (s : State) : s.haltCheck.mem = s.mem := rfl
@[simp] theorem State.haltCheck_status (s : State) : s.haltCheck.status = if s.flags.h then .halted else s.status := rfl
@[simp] theorem State.haltCheck_steps (s : State) : s.haltCheck.steps = s.steps := rfl

@[simp] theorem State.jumpTo_params (s : State) (addr16 : Addr16) : (s.jumpTo addr16).params = s.params := rfl
@[simp] theorem State.jumpTo_a (s : State) (addr16 : Addr16) : (s.jumpTo addr16).a = s.a := rfl
@[simp] theorem State.jumpTo_x (s : State) (addr16 : Addr16) : (s.jumpTo addr16).x = s.x := rfl
@[simp] theorem State.jumpTo_y (s : State) (addr16 : Addr16) : (s.jumpTo addr16).y = s.y := rfl
@[simp] theorem State.jumpTo_pc (s : State) (addr16 : Addr16) : (s.jumpTo addr16).pc = BitVec.ofNat 16 (addr16.toNat % s.params.memSize) := rfl
@[simp] theorem State.jumpTo_flags (s : State) (addr16 : Addr16) : (s.jumpTo addr16).flags = s.flags := rfl
@[simp] theorem State.jumpTo_mem (s : State) (addr16 : Addr16) : (s.jumpTo addr16).mem = s.mem := rfl
@[simp] theorem State.jumpTo_status (s : State) (addr16 : Addr16) : (s.jumpTo addr16).status = s.status := rfl
@[simp] theorem State.jumpTo_steps (s : State) (addr16 : Addr16) : (s.jumpTo addr16).steps = s.steps := rfl

@[simp] theorem State.jumpForward_params (s : State) : s.jumpForward.params = s.params := rfl
@[simp] theorem State.jumpForward_a (s : State) : s.jumpForward.a = s.a := rfl
@[simp] theorem State.jumpForward_x (s : State) : s.jumpForward.x = s.x := rfl
@[simp] theorem State.jumpForward_y (s : State) : s.jumpForward.y = s.y := rfl
@[simp] theorem State.jumpForward_pc (s : State) : s.jumpForward.pc = BitVec.ofNat 16 ((s.pc.toNat + s.x.toNat) % s.params.memSize) := rfl
@[simp] theorem State.jumpForward_flags (s : State) : s.jumpForward.flags = s.flags := rfl
@[simp] theorem State.jumpForward_mem (s : State) : s.jumpForward.mem = s.mem := rfl
@[simp] theorem State.jumpForward_status (s : State) : s.jumpForward.status = s.status := rfl
@[simp] theorem State.jumpForward_steps (s : State) : s.jumpForward.steps = s.steps := rfl

@[simp] theorem State.jumpBackward_params (s : State) : s.jumpBackward.params = s.params := rfl
@[simp] theorem State.jumpBackward_a (s : State) : s.jumpBackward.a = s.a := rfl
@[simp] theorem State.jumpBackward_x (s : State) : s.jumpBackward.x = s.x := rfl
@[simp] theorem State.jumpBackward_y (s : State) : s.jumpBackward.y = s.y := rfl
@[simp] theorem State.jumpBackward_pc (s : State) : s.jumpBackward.pc = BitVec.ofNat 16 (((s.pc.toNat : Int) - (s.x.toNat : Int)) % (s.params.memSize : Int)).toNat := rfl
@[simp] theorem State.jumpBackward_flags (s : State) : s.jumpBackward.flags = s.flags := rfl
@[simp] theorem State.jumpBackward_mem (s : State) : s.jumpBackward.mem = s.mem := rfl
@[simp] theorem State.jumpBackward_status (s : State) : s.jumpBackward.status = s.status := rfl
@[simp] theorem State.jumpBackward_steps (s : State) : s.jumpBackward.steps = s.steps := rfl

@[simp] theorem raiseUnknownOpcode_params (s : State) : (raiseUnknownOpcode s).params = s.params := rfl
@[simp] theorem raiseUnknownOpcode_a (s : State) : (raiseUnknownOpcode s).a = s.a := rfl
@[simp] theorem raiseUnknownOpcode_x (s : State) : (raiseUnknownOpcode s).x = s.x := rfl
@[simp] theorem raiseUnknownOpcode_y (s : State) : (raiseUnknownOpcode s).y = s.y := rfl
@[simp] theorem raiseUnknownOpcode_pc (s : State) : (raiseUnknownOpcode s).pc = s.pc := rfl
@[simp] theorem raiseUnknownOpcode_flags (s : State) : (raiseUnknownOpcode s).flags = s.flags := rfl
@[simp] theorem raiseUnknownOpcode_mem (s : State) : (raiseUnknownOpcode s).mem = s.mem := rfl
@[simp] theorem raiseUnknownOpcode_status (s : State) : (raiseUnknownOpcode s).status = .faulted := rfl
@[simp] theorem raiseUnknownOpcode_steps (s : State) : (raiseUnknownOpcode s).steps = s.steps := rfl

@[simp] theorem State.jumpIf_params (s : State) (cond : Bool) (addr16 : Addr16) : (s.jumpIf cond addr16).params = s.params := by
  cases cond <;> rfl
@[simp] theorem State.jumpIf_a (s : State) (cond : Bool) (addr16 : Addr16) : (s.jumpIf cond addr16).a = s.a := by
  cases cond <;> rfl
@[simp] theorem State.jumpIf_x (s : State) (cond : Bool) (addr16 : Addr16) : (s.jumpIf cond addr16).x = s.x := by
  cases cond <;> rfl
@[simp] theorem State.jumpIf_y (s : State) (cond : Bool) (addr16 : Addr16) : (s.jumpIf cond addr16).y = s.y := by
  cases cond <;> rfl
@[simp] theorem State.jumpIf_pc (s : State) (cond : Bool) (addr16 : Addr16) :
    (s.jumpIf cond addr16).pc =
      if cond then BitVec.ofNat 16 (addr16.toNat % s.params.memSize) else s.pc := by
  cases cond <;> rfl
@[simp] theorem State.jumpIf_flags (s : State) (cond : Bool) (addr16 : Addr16) : (s.jumpIf cond addr16).flags = s.flags := by
  cases cond <;> rfl
@[simp] theorem State.jumpIf_mem (s : State) (cond : Bool) (addr16 : Addr16) : (s.jumpIf cond addr16).mem = s.mem := by
  cases cond <;> rfl
@[simp] theorem State.jumpIf_status (s : State) (cond : Bool) (addr16 : Addr16) : (s.jumpIf cond addr16).status = s.status := by
  cases cond <;> rfl
@[simp] theorem State.jumpIf_steps (s : State) (cond : Bool) (addr16 : Addr16) : (s.jumpIf cond addr16).steps = s.steps := by
  cases cond <;> rfl

@[simp] theorem State.past_params (s : State) (len : Nat) (f : Flags) : (s.past len f).params = s.params := rfl
@[simp] theorem State.past_a (s : State) (len : Nat) (f : Flags) : (s.past len f).a = s.a := rfl
@[simp] theorem State.past_x (s : State) (len : Nat) (f : Flags) : (s.past len f).x = s.x := rfl
@[simp] theorem State.past_y (s : State) (len : Nat) (f : Flags) : (s.past len f).y = s.y := rfl
@[simp] theorem State.past_pc (s : State) (len : Nat) (f : Flags) : (s.past len f).pc = BitVec.ofNat 16 ((s.pc.toNat + 1 + len) % s.params.memSize) := rfl
@[simp] theorem State.past_flags (s : State) (len : Nat) (f : Flags) : (s.past len f).flags = f := rfl
@[simp] theorem State.past_mem (s : State) (len : Nat) (f : Flags) : (s.past len f).mem = s.mem := rfl
@[simp] theorem State.past_status (s : State) (len : Nat) (f : Flags) : (s.past len f).status = if f.h then .halted else s.status := rfl
@[simp] theorem State.past_steps (s : State) (len : Nat) (f : Flags) : (s.past len f).steps = s.steps + 1 := rfl

@[simp] theorem State.init_params (p : Params) : (State.init p).params = p := rfl
@[simp] theorem State.init_a (p : Params) : (State.init p).a = 0 := rfl
@[simp] theorem State.init_x (p : Params) : (State.init p).x = 0 := rfl
@[simp] theorem State.init_y (p : Params) : (State.init p).y = 0 := rfl
@[simp] theorem State.init_pc (p : Params) : (State.init p).pc = 0 := rfl
@[simp] theorem State.init_flags (p : Params) : (State.init p).flags = Flags.reset := rfl
@[simp] theorem State.init_mem (p : Params) : (State.init p).mem = [] := rfl
@[simp] theorem State.init_status (p : Params) : (State.init p).status = .running := rfl
@[simp] theorem State.init_steps (p : Params) : (State.init p).steps = 0 := rfl

@[simp] theorem Flags.commit_z (d : FlagSet) (v : FlagValues) (f : Flags) : (f.commit d v).z = commitFlag d.z v.z f.z := rfl
@[simp] theorem Flags.commit_n (d : FlagSet) (v : FlagValues) (f : Flags) : (f.commit d v).n = commitFlag d.n v.n f.n := rfl
@[simp] theorem Flags.commit_o (d : FlagSet) (v : FlagValues) (f : Flags) : (f.commit d v).o = commitFlag d.o v.o f.o := rfl
@[simp] theorem Flags.commit_h (d : FlagSet) (v : FlagValues) (f : Flags) : (f.commit d v).h = commitFlag d.h v.h f.h := rfl

@[simp] theorem commitFlag_undeclared (v : Option Bool) (b : Bool) : commitFlag false v b = b := rfl
@[simp] theorem commitFlag_declared (b prior : Bool) : commitFlag true (some b) prior = b := rfl
@[simp] theorem commitFlag_no_value (d prior : Bool) : commitFlag d .none prior = prior := by
  cases d <;> rfl

/-- The declared flags of the instruction that a step runs are those of the descriptor its opcode looks up. -/
theorem State.declared_of_lookup {s : State} {d : Descriptor} {m : Mnemonic} (h : s.descriptorAtPc = some d)
    (hm : d.rule = .reference m) : s.declared m = d.flags := by
  simp [State.declared, State.descriptorFor, h, hm, Rule.isReference]

/-- A read depends on the memory and the memory size alone. -/
theorem State.memRead_congr {s t : State} (hp : t.params = s.params) (hm : t.mem = s.mem) (addr : Nat) :
    t.memRead addr = s.memRead addr := by
  unfold State.memRead State.wrap
  rw [hp, hm]

end Sys2Proof.Machine
end

