-- ==== Sys2Proof/Laws/Memory.lean ====
section
/-! SUPPORT. The memory: reading after writing, and the canonical form every memory operation keeps. -/

namespace Sys2Proof.Machine

@[simp] theorem Memory.read_nil (addr : Nat) : Memory.read [] addr = 0#8 := rfl

/-- An address below every listed one reads as unlisted. -/
theorem Memory.read_below : ∀ (m : Memory) (lo addr : Nat), Memory.wfFrom lo m = true → addr < lo →
    Memory.read m addr = 0#8
  | [], _, _, _, _ => rfl
  | (b, v) :: m, lo, addr, h, hlt => by
    simp only [Memory.wfFrom, Bool.and_eq_true, decide_eq_true_eq] at h
    have hne : b ≠ addr := by omega
    simp only [Memory.read, hne, if_false]
    exact Memory.read_below m (b + 1) addr h.2 (by omega)

/-- A memory in canonical form from a bound on is so from a lower bound on. -/
theorem Memory.wfFrom_mono (m : Memory) {lo lo' : Nat} (hle : lo' ≤ lo) (h : Memory.wfFrom lo m = true) :
    Memory.wfFrom lo' m = true := by
  cases m with
  | nil => rfl
  | cons c m =>
    simp only [Memory.wfFrom, Bool.and_eq_true, decide_eq_true_eq] at h ⊢
    exact ⟨⟨by omega, h.1.2⟩, h.2⟩

/-- A write leaves every other address alone, in any list. -/
theorem Memory.read_write_ne : ∀ (m : Memory) (addr addr' : Nat) (v : Byte), addr' ≠ addr →
    Memory.read (Memory.write m addr v) addr' = Memory.read m addr'
  | [], addr, addr', v, h => by
    by_cases hv : v = 0#8 <;> simp [Memory.write, Memory.read, hv, h.symm]
  | (b, w) :: m, addr, addr', v, h => by
    have ih := Memory.read_write_ne m addr addr' v h
    by_cases h1 : addr < b
    · by_cases hv : v = 0#8 <;> simp [Memory.write, Memory.read, h1, hv, h.symm]
    · by_cases h2 : addr = b
      · subst h2
        by_cases hv : v = 0#8 <;> simp [Memory.write, Memory.read, hv, h.symm]
      · simp [Memory.write, Memory.read, h1, h2, ih]

/-- A read of the address just written gives the byte written, in canonical form. -/
theorem Memory.read_write_same_from : ∀ (m : Memory) (lo addr : Nat) (v : Byte), Memory.wfFrom lo m = true →
    Memory.read (Memory.write m addr v) addr = v
  | [], lo, addr, v, _ => by
    by_cases hv : v = 0#8 <;> simp [Memory.write, Memory.read, hv]
  | (b, w) :: m, lo, addr, v, h => by
    simp only [Memory.wfFrom, Bool.and_eq_true, decide_eq_true_eq] at h
    by_cases h1 : addr < b
    · by_cases hv : v = 0#8
      · subst hv
        have hne : b ≠ addr := by omega
        simp only [Memory.write, h1, if_true, Memory.read, hne, if_false]
        exact Memory.read_below m (b + 1) addr h.2 (by omega)
      · simp [Memory.write, Memory.read, h1, hv]
    · by_cases h2 : addr = b
      · subst h2
        by_cases hv : v = 0#8
        · subst hv
          simp only [Memory.write, lt_irrefl, if_false, if_true]
          exact Memory.read_below m (addr + 1) addr h.2 (by omega)
        · simp [Memory.write, Memory.read, hv]
      · have hne : b ≠ addr := fun e => h2 e.symm
        simp only [Memory.write, h1, h2, if_false, Memory.read, hne]
        exact Memory.read_write_same_from m (b + 1) addr v h.2

/-- A read of the address just written gives the byte written. -/
theorem Memory.read_write_same {m : Memory} (h : Memory.wf m = true) (addr : Nat) (v : Byte) :
    Memory.read (Memory.write m addr v) addr = v :=
  Memory.read_write_same_from m 0 addr v h

/-- A write keeps the canonical form. -/
theorem Memory.wfFrom_write : ∀ (m : Memory) (lo addr : Nat) (v : Byte), Memory.wfFrom lo m = true → lo ≤ addr →
    Memory.wfFrom lo (Memory.write m addr v) = true
  | [], lo, addr, v, _, hle => by
    by_cases hv : v = 0#8 <;> simp [Memory.write, Memory.wfFrom, hv, hle]
  | (b, w) :: m, lo, addr, v, h, hle => by
    have h' := h
    simp only [Memory.wfFrom, Bool.and_eq_true, decide_eq_true_eq] at h
    by_cases h1 : addr < b
    · by_cases hv : v = 0#8
      · simpa [Memory.write, h1, hv] using h'
      · have hb : addr + 1 ≤ b := h1
        simp [Memory.write, h1, hv, Memory.wfFrom, hle, hb, h.2]
        simpa using h.1.2
    · by_cases h2 : addr = b
      · subst h2
        by_cases hv : v = 0#8
        · simp only [Memory.write, lt_irrefl, if_false, if_true, hv]
          exact Memory.wfFrom_mono m (by omega) h.2
        · simp [Memory.write, hv, Memory.wfFrom, hle, h.2]
      · have ih := Memory.wfFrom_write m (b + 1) addr v h.2 (by omega)
        simp only [Memory.write, h1, h2, if_false, Memory.wfFrom, Bool.and_eq_true, decide_eq_true_eq]
        exact ⟨h.1, ih⟩

/-- Every memory operation keeps the canonical form: a write. -/
theorem Memory.write_wf {m : Memory} (h : Memory.wf m = true) (addr : Nat) (v : Byte) :
    Memory.wf (Memory.write m addr v) = true :=
  Memory.wfFrom_write m 0 addr v h (Nat.zero_le _)

/-- The listed cells of a written memory are the cell written or cells of the memory before. -/
theorem Memory.mem_write : ∀ (m : Memory) (addr : Nat) (v : Byte) (c : Host.Cell),
    c ∈ Memory.write m addr v → c = (addr, v) ∨ c ∈ m
  | [], addr, v, c, h => by
    by_cases hv : v = 0#8 <;> simp_all [Memory.write]
  | (b, w) :: m, addr, v, c, h => by
    have ih := Memory.mem_write m addr v c
    by_cases h1 : addr < b
    · by_cases hv : v = 0#8 <;> simp_all [Memory.write]
    · by_cases h2 : addr = b
      · by_cases hv : v = 0#8 <;> simp_all [Memory.write]
        rcases h with h | h <;> simp [h]
      · simp only [Memory.write, h1, h2, if_false, List.mem_cons] at h ⊢
        rcases h with h | h
        · exact .inr (.inl h)
        · rcases ih h with h | h
          · exact .inl h
          · exact .inr (.inr h)

/-- A write below `size` keeps every listed address below `size`. -/
theorem Memory.write_within {size : Nat} {m : Memory} (h : Memory.within size m = true) {addr : Nat} (ha : addr < size)
    (v : Byte) : Memory.within size (Memory.write m addr v) = true := by
  simp only [Memory.within, List.all_eq_true, decide_eq_true_eq] at h ⊢
  intro c hc
  rcases Memory.mem_write m addr v c hc with rfl | hc
  · exact ha
  · exact h c hc

/-- The reads of a written memory, said once. -/
theorem Memory.read_write {m : Memory} (h : Memory.wf m = true) (addr addr' : Nat) (v : Byte) :
    Memory.read (Memory.write m addr v) addr' = if addr' = addr then v else Memory.read m addr' := by
  split
  · subst_vars
    exact Memory.read_write_same h _ v
  · exact Memory.read_write_ne m addr addr' v ‹_›

/-- `MemWrite` keeps the canonical form (20_memory.md R42). -/
theorem State.memWrite_wf {s : State} (h : Memory.wf s.mem = true) (addr : Nat) (v : Byte) :
    Memory.wf (s.memWrite addr v).mem = true :=
  Memory.write_wf h _ v

/-- `MemWrite` lists addresses below `MEM_SIZE` only (20_memory.md R42). -/
theorem State.memWrite_within {s : State} (h : Memory.within s.params.memSize s.mem = true)
    (hsize : 0 < s.params.memSize) (addr : Nat) (v : Byte) :
    Memory.within s.params.memSize (s.memWrite addr v).mem = true :=
  Memory.write_within h (Nat.mod_lt _ hsize) v

/-- The memory after reset is in canonical form. -/
theorem State.reset_mem_wf : Memory.wf State.reset.mem = true := rfl

end Sys2Proof.Machine
end

