-- ==== Sys2Proof/Laws/Ops.lean ====
section
/-! SUPPORT. One lemma per shared operation that says once everything it can do. -/

namespace Sys2Proof.Machine

/-! ## Finishing an instruction -/

/-- `complete` always answers a next state: the flags committed, the step counted, the halt check done. -/
theorem complete_eq (d : FlagSet) (prior : Flags) (v : FlagValues) (body : State) :
    complete d prior v body = .next { body with
      flags := prior.commit d v
      steps := body.steps + 1
      status := if (prior.commit d v).h then .halted else body.status } := rfl

/-- `finish` always answers a next state: the flags committed, the step counted, the halt check done. -/
theorem finish_eq (m : Mnemonic) (s body : State) (v : FlagValues) :
    finish m s body v = .next { body with
      flags := s.flags.commit (s.declared m) v
      steps := body.steps + 1
      status := if (s.flags.commit (s.declared m) v).h then .halted else body.status } := rfl

/-- If `finish` answers `next t`, then `t` is this state. -/
theorem finish_next {m : Mnemonic} {s body t : State} {v : FlagValues} (h : finish m s body v = .next t) :
    t = { body with
      flags := s.flags.commit (s.declared m) v
      steps := body.steps + 1
      status := if (s.flags.commit (s.declared m) v).h then .halted else body.status } := by
  rw [finish_eq] at h
  injection h with h
  exact h.symm

/-- An ALU instruction that writes A. -/
theorem aluToA_eq (m : Mnemonic) (r : AluResult) (s : State) :
    aluToA m r s =
      .next { s.past m.operandLength (s.flags.commit (s.declared m) r.values) with a := r.res } := rfl

/-- An ALU instruction that writes X. -/
theorem aluToX_eq (m : Mnemonic) (r : AluResult) (s : State) :
    aluToX m r s =
      .next { s.past m.operandLength (s.flags.commit (s.declared m) r.values) with x := r.res } := rfl

/-- An ALU instruction that writes Y. -/
theorem aluToY_eq (m : Mnemonic) (r : AluResult) (s : State) :
    aluToY m r s =
      .next { s.past m.operandLength (s.flags.commit (s.declared m) r.values) with y := r.res } := rfl

/-- A load or transfer into A. -/
theorem moveToA_eq (m : Mnemonic) (v : Byte) (s : State) :
    moveToA m v s =
      .next { s.past m.operandLength (s.flags.commit (s.declared m) (movedValues v)) with a := v } := rfl

/-- A load or transfer into X. -/
theorem moveToX_eq (m : Mnemonic) (v : Byte) (s : State) :
    moveToX m v s =
      .next { s.past m.operandLength (s.flags.commit (s.declared m) (movedValues v)) with x := v } := rfl

/-- A load or transfer into Y. -/
theorem moveToY_eq (m : Mnemonic) (v : Byte) (s : State) :
    moveToY m v s =
      .next { s.past m.operandLength (s.flags.commit (s.declared m) (movedValues v)) with y := v } := rfl

/-- A rule that yields no flag value changes no flag. -/
@[simp] theorem Flags.commit_none (d : FlagSet) (f : Flags) : f.commit d .none = f := by
  simp [Flags.commit, FlagValues.none]

/-- A store: the flags stay, one byte of memory changes. -/
theorem storeAt_eq (m : Mnemonic) (ea : Nat) (v : Byte) (s : State) :
    storeAt m ea v s =
      .next { s.past m.operandLength s.flags with mem := Memory.write s.mem (ea % s.params.memSize) v } := by
  unfold storeAt
  rw [finish_eq, Flags.commit_none]
  rfl

/-- A body that writes PC or memory only and yields no flag value. -/
theorem finish_none (m : Mnemonic) (s body : State) :
    finish m s body .none =
      .next { body with
        flags := s.flags, steps := body.steps + 1, status := if s.flags.h then .halted else body.status } := by
  rw [finish_eq, Flags.commit_none]

/-! ## The flags the reference catalog declares -/

/-- A rule is that of a mnemonic exactly when the mnemonic is its own. -/
theorem Rule.isReference_iff (r : Rule) (m : Mnemonic) : r.isReference m = true ↔ r = .reference m := by
  cases r <;> simp [Rule.isReference]

/-- A descriptor that a catalog looks up is one of the catalog's, with the opcode looked up. -/
theorem Catalog.lookup_mem : ∀ (c : Catalog) (op : Byte) (d : Descriptor), c.lookup op = some d → d ∈ c ∧ d.opcode = op
  | [], _, _, h => by simp [Catalog.lookup] at h
  | e :: es, op, d, h => by
    simp only [Catalog.lookup] at h
    split at h
    · injection h with h
      subst h
      exact ⟨by simp, ‹_›⟩
    · obtain ⟨h1, h2⟩ := Catalog.lookup_mem es op d h
      exact ⟨by simp [h1], h2⟩

/-- The descriptor that a catalog finds for a rule is one of the catalog's, with that rule. -/
theorem Catalog.descriptorOf_mem : ∀ (c : Catalog) (m : Mnemonic) (d : Descriptor), c.descriptorOf m = some d →
    d ∈ c ∧ d.rule.isReference m = true
  | [], _, _, h => by simp [Catalog.descriptorOf] at h
  | e :: es, m, d, h => by
    simp only [Catalog.descriptorOf] at h
    split at h
    · injection h with h
      subst h
      exact ⟨by simp, ‹_›⟩
    · obtain ⟨h1, h2⟩ := Catalog.descriptorOf_mem es m d h
      exact ⟨by simp [h1], h2⟩

/-- The descriptor by which an instruction runs is one of the catalog's, with the instruction's rule. -/
theorem State.descriptorFor_mem {s : State} {m : Mnemonic} {d : Descriptor} (h : s.descriptorFor m = some d) :
    d ∈ s.params.catalog ∧ d.rule.isReference m = true := by
  unfold State.descriptorFor at h
  split at h
  · split at h
    · injection h with h
      subst h
      exact ⟨(Catalog.lookup_mem _ _ _ ‹_›).1, ‹_›⟩
    · exact Catalog.descriptorOf_mem _ _ _ h
  · exact Catalog.descriptorOf_mem _ _ _ h

/-- The flags that 30_encoding.md R68 declares for each mnemonic. -/
def Mnemonic.referenceFlags : Mnemonic → FlagSet
  | .hlt => touchesH
  | .addx | .addy | .addi | .addm | .inca | .incx | .incy | .shla => touchesZO
  | .subx | .suby | .subi | .subm | .deca | .decx | .decy => touchesZN
  | .shra | .bcmp => touchesZ
  | .ldai | .ldam | .ldaxy | .ldao | .stam | .staxy | .stao | .ldxi | .ldxm | .stxm | .ldyi | .ldym | .stym
  | .tax | .txa | .tay | .tya | .jmp | .jz | .jnz | .jn | .jnn | .jo | .jno | .jrf | .jrb
  | .fill | .copy => .empty

/-- Every descriptor of the reference catalog is the row of one mnemonic, with that mnemonic's flags. -/
theorem Catalog.reference_row : ∀ d ∈ Catalog.reference, ∀ m, d.rule.isReference m = true →
    d.flags = Mnemonic.referenceFlags m := by
  intro d hd m hm
  have hrow : ∀ d ∈ Catalog.reference, (match d.rule with
    | .reference m => d.flags == Mnemonic.referenceFlags m
    | .written _ => false) = true := by decide
  have h := hrow d hd
  rw [(Rule.isReference_iff d.rule m).1 hm] at h
  exact eq_of_beq h

/-- In an instance of the reference catalog the declared flags are those of 30_encoding.md R68. -/
theorem State.declared_reference {s : State} (h : s.RunsReference) (m : Mnemonic) :
    s.declared m = Mnemonic.referenceFlags m := by
  have hc : s.params.catalog = Catalog.reference := h
  unfold State.declared
  cases hd : s.descriptorFor m with
  | some d =>
    obtain ⟨h1, h2⟩ := State.descriptorFor_mem hd
    exact Catalog.reference_row d (hc ▸ h1) m h2
  | none =>
    have hn : s.descriptorFor m ≠ none := by
      have hr : Catalog.reference.descriptorOf m ≠ none := by cases m <;> decide
      unfold State.descriptorFor
      rw [hc]
      split
      · split
        · simp
        · exact hr
      · exact hr
    exact absurd hd hn

/-! ## Byte runs -/

/-- Storing a list of bytes changes memory alone. -/
theorem State.storeBytes_eq : ∀ (vs : List Byte) (s : State) (addr : Nat),
    s.storeBytes addr vs = { s with mem := (s.storeBytes addr vs).mem }
  | [], _, _ => rfl
  | v :: vs, s, addr => by
    have ih := State.storeBytes_eq vs (s.memWrite addr v) (addr + 1)
    simp only [State.storeBytes]
    rw [ih]
    rfl

/-- Filling a run changes memory alone. -/
theorem fillRun_eq (base : Nat) (v : Byte) : ∀ (n i : Nat) (s : State),
    fillRun base v n i s = { s with mem := (fillRun base v n i s).mem }
  | 0, _, _ => rfl
  | n + 1, i, s => by
    have ih := fillRun_eq base v n (i + 1) (s.memWrite (base + i) v)
    simp only [fillRun]
    rw [ih]
    rfl

/-- A forward copy changes memory alone. -/
theorem copyForward_eq (base dst : Nat) : ∀ (n i : Nat) (s : State),
    copyForward base dst n i s = { s with mem := (copyForward base dst n i s).mem }
  | 0, _, _ => rfl
  | n + 1, i, s => by
    have ih := copyForward_eq base dst n (i + 1) (s.memWrite (dst + i) (s.memRead (base + i)))
    simp only [copyForward]
    rw [ih]
    rfl

/-- COPY's body changes memory alone, whatever `COPY_OVERLAP` is. -/
theorem copyRun_eq (mode : CopyOverlap) (base dst n : Nat) (s : State) :
    copyRun mode base dst n s = { s with mem := (copyRun mode base dst n s).mem } := by
  cases mode
  · exact State.storeBytes_eq _ _ _
  · exact copyForward_eq _ _ _ _ _

/-- What holds of memory before a run of writes and is kept by every write holds after it: for stored bytes. -/
theorem State.storeBytes_induct {P : State → Prop} (hw : ∀ s addr v, P s → P (s.memWrite addr v)) :
    ∀ (vs : List Byte) (s : State) (addr : Nat), P s → P (s.storeBytes addr vs)
  | [], _, _, h => h
  | v :: vs, s, addr, h => State.storeBytes_induct hw vs (s.memWrite addr v) (addr + 1) (hw s addr v h)

/-- What every write keeps, a fill keeps. -/
theorem fillRun_induct {P : State → Prop} (hw : ∀ s addr v, P s → P (s.memWrite addr v)) (base : Nat) (v : Byte) :
    ∀ (n i : Nat) (s : State), P s → P (fillRun base v n i s)
  | 0, _, _, h => h
  | n + 1, i, s, h => fillRun_induct hw base v n (i + 1) (s.memWrite (base + i) v) (hw s _ v h)

/-- What every write keeps, a forward copy keeps. -/
theorem copyForward_induct {P : State → Prop} (hw : ∀ s addr v, P s → P (s.memWrite addr v)) (base dst : Nat) :
    ∀ (n i : Nat) (s : State), P s → P (copyForward base dst n i s)
  | 0, _, _, h => h
  | n + 1, i, s, h => copyForward_induct hw base dst n (i + 1) _ (hw s _ _ h)

/-- What every write keeps, COPY's body keeps. -/
theorem copyRun_induct {P : State → Prop} (hw : ∀ s addr v, P s → P (s.memWrite addr v)) (mode : CopyOverlap)
    (base dst n : Nat) (s : State) (h : P s) : P (copyRun mode base dst n s) := by
  cases mode
  · exact State.storeBytes_induct hw _ _ _ h
  · exact copyForward_induct hw base dst n 0 s h

/-- Storing bytes one after another keeps the canonical form (log 7). -/
theorem State.storeBytes_mem_wf (vs : List Byte) {s : State} (addr : Nat) (h : Memory.wf s.mem = true) :
    Memory.wf (s.storeBytes addr vs).mem = true :=
  State.storeBytes_induct (P := fun t => Memory.wf t.mem = true) (fun _ addr v ht => State.memWrite_wf ht addr v) vs s addr h

/-- Cleared memory is in canonical form (log 7). -/
theorem State.clearMemory_mem_wf (s : State) : Memory.wf s.clearMemory.mem = true := rfl

/-- A fill keeps the canonical form (log 7). -/
theorem fillRun_mem_wf (base : Nat) (v : Byte) (n i : Nat) {s : State} (h : Memory.wf s.mem = true) :
    Memory.wf (fillRun base v n i s).mem = true :=
  fillRun_induct (P := fun t => Memory.wf t.mem = true) (fun _ addr v ht => State.memWrite_wf ht addr v) base v n i s h

/-- A copy keeps the canonical form in both modes (log 7). -/
theorem copyRun_mem_wf (mode : CopyOverlap) (base dst n : Nat) {s : State} (h : Memory.wf s.mem = true) :
    Memory.wf (copyRun mode base dst n s).mem = true :=
  copyRun_induct (P := fun t => Memory.wf t.mem = true) (fun _ addr v ht => State.memWrite_wf ht addr v) mode base dst n s h

/-- Storing bytes leaves every address outside the run alone. -/
theorem State.storeBytes_read_outside : ∀ (vs : List Byte) (s : State) (addr a : Nat),
    (∀ i, i < vs.length → a ≠ (addr + i) % s.params.memSize) →
    Memory.read (s.storeBytes addr vs).mem a = Memory.read s.mem a
  | [], _, _, _, _ => rfl
  | v :: vs, s, addr, a, h => by
    have h0 : a ≠ addr % s.params.memSize := by simpa using h 0 (by simp)
    have ih := State.storeBytes_read_outside vs (s.memWrite addr v) (addr + 1) a (fun i hi => by
      simpa [Nat.add_assoc, Nat.add_comm 1 i] using h (i + 1) (by simpa using hi))
    simpa [State.storeBytes, Memory.read_write_ne _ _ _ _ h0] using ih

/-- A fill leaves every address outside the run alone. -/
theorem fillRun_read_outside (base : Nat) (v : Byte) : ∀ (n i : Nat) (s : State) (a : Nat),
    (∀ k, i ≤ k → k < i + n → a ≠ (base + k) % s.params.memSize) →
    Memory.read (fillRun base v n i s).mem a = Memory.read s.mem a
  | 0, _, _, _, _ => rfl
  | n + 1, i, s, a, h => by
    have h0 : a ≠ (base + i) % s.params.memSize := h i (le_refl i) (by omega)
    have ih := fillRun_read_outside base v n (i + 1) (s.memWrite (base + i) v) a
      (fun k h1 h2 => h k (by omega) (by omega))
    simpa [fillRun, Memory.read_write_ne _ _ _ _ h0] using ih

/-- A forward copy leaves every address outside the destination run alone. -/
theorem copyForward_read_outside (base dst : Nat) : ∀ (n i : Nat) (s : State) (a : Nat),
    (∀ k, i ≤ k → k < i + n → a ≠ (dst + k) % s.params.memSize) →
    Memory.read (copyForward base dst n i s).mem a = Memory.read s.mem a
  | 0, _, _, _, _ => rfl
  | n + 1, i, s, a, h => by
    have h0 : a ≠ (dst + i) % s.params.memSize := h i (le_refl i) (by omega)
    have ih := copyForward_read_outside base dst n (i + 1) (s.memWrite (dst + i) (s.memRead (base + i))) a
      (fun k h1 h2 => h k (by omega) (by omega))
    simpa [copyForward, Memory.read_write_ne _ _ _ _ h0] using ih

/-- The bytes read from a run, as many as asked for. -/
@[simp] theorem readRun_length (base : Nat) : ∀ (n i : Nat) (s : State), (readRun base n i s).length = n
  | 0, _, _ => rfl
  | n + 1, i, s => by simp [readRun, readRun_length base n (i + 1) s]

/-- A comparison of two runs is true exactly when they agree at every index. -/
theorem compareRun_eq_true (base dst : Nat) : ∀ (n i : Nat) (s : State),
    compareRun base dst n i s = true ↔
      ∀ k, i ≤ k → k < i + n → s.memRead (base + k) = s.memRead (dst + k)
  | 0, i, s => by
    simp only [compareRun, true_iff]
    intro k h1 h2
    omega
  | n + 1, i, s => by
    simp only [compareRun, Bool.and_eq_true, beq_iff_eq, compareRun_eq_true base dst n (i + 1) s]
    constructor
    · rintro ⟨h0, h⟩ k h1 h2
      by_cases hk : k = i
      · exact hk ▸ h0
      · exact h k (by omega) (by omega)
    · intro h
      exact ⟨h i (le_refl i) (by omega), fun k h1 h2 => h k (by omega) (by omega)⟩

/-! ## The fetch and the step -/

/-- As many bytes as asked for. -/
@[simp] theorem State.bytesFrom_length (s : State) : ∀ (len addr : Nat), (s.bytesFrom addr len).length = len
  | 0, _ => rfl
  | len + 1, addr => by simp [State.bytesFrom, State.bytesFrom_length s len (addr + 1)]

/-- The instruction of a mnemonic with some operand bytes has that mnemonic. -/
@[simp] theorem Mnemonic.instr_mnemonic (operands : List Byte) (m : Mnemonic) : (m.instr operands).mnemonic = m := by
  cases m <;> rfl

/-- Everything a step can do: run the instruction fetched, raise UnknownOpcode, or not exist. -/
theorem step_cases (s : State) :
    (s.status = .running ∧ (∃ d, s.params.catalog.lookup (s.memRead s.pc.toNat) = some d ∧
      step s = execFetched ⟨d, s.bytesFrom (s.pc.toNat + 1) d.length⟩ s)) ∨
    (s.status = .running ∧ s.params.catalog.lookup (s.memRead s.pc.toNat) = none ∧
      step s = .next (raiseUnknownOpcode s)) ∨
    (s.status = .halted ∧ step s = .fault .halted) ∨ (s.status = .faulted ∧ step s = .fault .faulted) := by
  cases hs : s.status with
  | halted => exact .inr (.inr (.inl ⟨rfl, by simp [step, hs]⟩))
  | faulted => exact .inr (.inr (.inr ⟨rfl, by simp [step, hs]⟩))
  | running =>
    cases hd : s.params.catalog.lookup (s.memRead s.pc.toNat) with
    | none => exact .inr (.inl ⟨rfl, rfl, by simp [step, hs, State.fetch, State.descriptorAtPc, hd]⟩)
    | some d => exact .inl ⟨rfl, d, rfl, by simp [step, hs, State.fetch, State.descriptorAtPc, hd]⟩

/-- Everything an instruction can do, whatever it is: it answers the next state that `finish` gives for some body state
`b`, which has the parameters, flags, status and step count of the state before. -/
theorem exec_finish (i : Instr) (s : State) : ∃ (b : State) (v : FlagValues),
    exec i s = finish i.mnemonic s b v ∧ b.params = s.params ∧ b.flags = s.flags ∧ b.status = s.status ∧
    b.steps = s.steps := by
  cases i
  case fill imm8 =>
    refine ⟨_, _, rfl, ?_⟩
    rw [fillRun_eq]
    exact ⟨rfl, rfl, rfl, rfl⟩
  case copy addr16 =>
    refine ⟨_, _, rfl, ?_⟩
    rw [copyRun_eq]
    exact ⟨rfl, rfl, rfl, rfl⟩
  all_goals
    refine ⟨_, _, rfl, ?_⟩
    simp

/-- Every instruction answers a next state. -/
theorem exec_next (i : Instr) (s : State) : ∃ t, exec i s = .next t := by
  obtain ⟨b, v, h, _⟩ := exec_finish i s
  exact ⟨_, h⟩

/-- What every instruction does to the parameters, the flags, the step count and the status. -/
theorem exec_fields {i : Instr} {s t : State} (h : exec i s = .next t) :
    t.params = s.params ∧ (∃ v, t.flags = s.flags.commit (s.declared i.mnemonic) v) ∧ t.steps = s.steps + 1 ∧
    t.status = if t.flags.h then .halted else s.status := by
  obtain ⟨b, v, h1, h2, h3, h4, h5⟩ := exec_finish i s
  rw [h1] at h
  have ht := finish_next h
  subst ht
  exact ⟨h2, ⟨v, rfl⟩, congrArg (· + 1) h5, by rw [h4]⟩

end Sys2Proof.Machine
end

