-- ==== Sys2Proof/Laws/Operands.lean ====
section
/-! SUPPORT. The ALU operations, the flag commits of the reference catalog, and accesses at effective addresses. -/

namespace Sys2Proof.Machine

/-! ## The ALU operations -/

/-- Writing a number already reduced modulo 256 is writing the number. -/
@[simp] theorem byte_ofNat_mod (n : Nat) : (BitVec.ofNat 8 (n % 256) : Byte) = BitVec.ofNat 8 n := by
  apply BitVec.eq_of_toNat_eq
  simp

/-- The Zero law on a wrapped number (41_arithmetic.md R100). -/
theorem isZero_ofNat (n : Nat) : isZero (BitVec.ofNat 8 n) = decide (n % 256 = 0) := by
  simp only [isZero, beq_eq_decide, ← BitVec.toNat_inj, BitVec.toNat_ofNat]
  rfl

/-- `AddOp` (41_arithmetic.md R100). -/
theorem addOp_eq (a b : Byte) :
    addOp a b = ⟨BitVec.ofNat 8 (a.toNat + b.toNat),
      ⟨some (decide ((a.toNat + b.toNat) % 256 = 0)), some (highBit (BitVec.ofNat 8 (a.toNat + b.toNat))),
        some (decide (255 < a.toNat + b.toNat)), none⟩⟩ := by
  simp only [addOp, isZero_ofNat]

/-- The wrapped difference as a number modulo 256 (41_arithmetic.md R101, 00_scope.md R11). -/
theorem byte_ofInt_sub (a b : Byte) :
    (BitVec.ofInt 8 ((a.toNat : Int) - b.toNat) : Byte) = BitVec.ofNat 8 (((a.toNat : Int) - b.toNat) % 256).toNat := by
  apply BitVec.eq_of_toNat_eq
  simp only [BitVec.toNat_ofInt, BitVec.toNat_ofNat]
  omega

/-- `SubOp` gives zero exactly when `a = b` (41_arithmetic.md R101). -/
theorem isZero_sub (a b : Byte) : isZero (BitVec.ofInt 8 ((a.toNat : Int) - b.toNat)) = decide (a = b) := by
  have ha := a.isLt
  have hb := b.isLt
  simp only [isZero, beq_eq_decide, ← BitVec.toNat_inj, BitVec.toNat_ofInt]
  congr 1
  have h0 : (0 : Byte).toNat = 0 := rfl
  simp only [eq_iff_iff, h0]
  omega

/-- `SubOp` (41_arithmetic.md R101): Z exactly when `a = b`, N exactly when `a < b`. -/
theorem subOp_eq (a b : Byte) :
    subOp a b = ⟨BitVec.ofNat 8 (((a.toNat : Int) - b.toNat) % 256).toNat,
      ⟨some (decide (a = b)), some (decide (a.toNat < b.toNat)), none, none⟩⟩ := by
  have hn : decide ((a.toNat : Int) - b.toNat < 0) = decide (a.toNat < b.toNat) := by
    congr 1
    simp only [eq_iff_iff]
    omega
  simp only [subOp, hn]
  rw [isZero_sub, byte_ofInt_sub]

/-- `ShlOp` (41_arithmetic.md R102). -/
theorem shlOp_eq (a : Byte) :
    shlOp a = ⟨BitVec.ofNat 8 (2 * a.toNat),
      ⟨some (decide (2 * a.toNat % 256 = 0)), some (highBit (BitVec.ofNat 8 (2 * a.toNat))),
        some (decide (255 < 2 * a.toNat)), none⟩⟩ := by
  simp only [shlOp, isZero_ofNat]

/-- `ShrOp` gives zero exactly when `a ≤ 1` (41_arithmetic.md R103). -/
theorem shrOp_z (a : Byte) : (shrOp a).values.z = some (decide (a.toNat ≤ 1)) := by
  have ha := a.isLt
  simp only [shrOp, isZero_ofNat, Option.some.injEq]
  congr 1
  simp only [eq_iff_iff]
  omega

/-! ## The commits of the reference catalog's flag sets -/

theorem Flags.commit_zo (v : FlagValues) (f : Flags) :
    f.commit touchesZO v = { f with z := v.z.getD f.z, o := v.o.getD f.o } := rfl
theorem Flags.commit_zn (v : FlagValues) (f : Flags) :
    f.commit touchesZN v = { f with z := v.z.getD f.z, n := v.n.getD f.n } := rfl
theorem Flags.commit_only_z (v : FlagValues) (f : Flags) :
    f.commit touchesZ v = { f with z := v.z.getD f.z } := rfl
theorem Flags.commit_only_h (v : FlagValues) (f : Flags) :
    f.commit touchesH v = { f with h := v.h.getD f.h } := rfl
theorem Flags.commit_empty (v : FlagValues) (f : Flags) : f.commit .empty v = f := rfl

/-! ## Accesses at effective addresses -/

@[simp] theorem State.wrap_eaDirect (s : State) (addr16 : Addr16) :
    s.wrap (s.eaDirect addr16) = addr16.toNat % s.params.memSize := by
  simp [State.wrap, State.eaDirect]

@[simp] theorem State.wrap_eaIndexed (s : State) :
    s.wrap s.eaIndexed = (s.x.toNat + 256 * s.y.toNat) % s.params.memSize := by
  simp [State.wrap, State.eaIndexed]

@[simp] theorem State.wrap_eaOffset (s : State) (addr16 : Addr16) :
    s.wrap (s.eaOffset addr16) = (addr16.toNat + s.x.toNat) % s.params.memSize := by
  simp [State.wrap, State.eaOffset]

@[simp] theorem State.memRead_eaDirect (s : State) (addr16 : Addr16) :
    s.memRead (s.eaDirect addr16) = Memory.read s.mem (addr16.toNat % s.params.memSize) := by
  simp [State.memRead]

@[simp] theorem State.memRead_eaIndexed (s : State) :
    s.memRead s.eaIndexed = Memory.read s.mem ((s.x.toNat + 256 * s.y.toNat) % s.params.memSize) := by
  simp [State.memRead]

@[simp] theorem State.memRead_eaOffset (s : State) (addr16 : Addr16) :
    s.memRead (s.eaOffset addr16) = Memory.read s.mem ((addr16.toNat + s.x.toNat) % s.params.memSize) := by
  simp [State.memRead]

/-! ## The memory size and PC -/

/-- `MEM_SIZE` of a state that meets the invariant is 4096 to 65536 (00_scope.md R5). -/
theorem State.Inv.memSize_bounds {s : State} (h : s.Inv) : 4096 ≤ s.params.memSize ∧ s.params.memSize ≤ 65536 := by
  have hp := h.params_wf
  simp only [Params.wf, Params.memSizeInRange, Bool.and_eq_true, decide_eq_true_eq] at hp
  exact hp.1

/-- An address reduced modulo `MEM_SIZE` fits PC (10_state.md R24). -/
theorem pc_toNat_of_mod {n size : Nat} (h0 : 0 < size) (h : size ≤ 65536) :
    (BitVec.ofNat 16 (n % size) : Addr16).toNat = n % size := by
  have := Nat.mod_lt n h0
  rw [BitVec.toNat_ofNat]
  omega

end Sys2Proof.Machine
end

