-- ==== Sys2Proof/Laws/PerInstr.lean ====
section
/-! SUPPORT. The per-instruction family of LAWS.json: an instruction's bytes are as many as its format says. -/

namespace Sys2Proof.Laws

/-- The encoding of an instruction is one opcode byte and the operand bytes of its format (30_encoding.md R60, R61). -/
def EncodeLength.Statement (i : Instr) : Prop := (encode i).length = 1 + i.mnemonic.operandLength

theorem EncodeLength.hlt : EncodeLength.Statement .hlt := rfl

theorem EncodeLength.ldai (imm8 : Byte) : EncodeLength.Statement (.ldai imm8) := rfl

theorem EncodeLength.ldam (addr16 : Addr16) : EncodeLength.Statement (.ldam addr16) := rfl

theorem EncodeLength.ldaxy : EncodeLength.Statement .ldaxy := rfl

theorem EncodeLength.ldao (addr16 : Addr16) : EncodeLength.Statement (.ldao addr16) := rfl

theorem EncodeLength.stam (addr16 : Addr16) : EncodeLength.Statement (.stam addr16) := rfl

theorem EncodeLength.staxy : EncodeLength.Statement .staxy := rfl

theorem EncodeLength.stao (addr16 : Addr16) : EncodeLength.Statement (.stao addr16) := rfl

theorem EncodeLength.ldxi (imm8 : Byte) : EncodeLength.Statement (.ldxi imm8) := rfl

theorem EncodeLength.ldxm (addr16 : Addr16) : EncodeLength.Statement (.ldxm addr16) := rfl

theorem EncodeLength.stxm (addr16 : Addr16) : EncodeLength.Statement (.stxm addr16) := rfl

theorem EncodeLength.ldyi (imm8 : Byte) : EncodeLength.Statement (.ldyi imm8) := rfl

theorem EncodeLength.ldym (addr16 : Addr16) : EncodeLength.Statement (.ldym addr16) := rfl

theorem EncodeLength.stym (addr16 : Addr16) : EncodeLength.Statement (.stym addr16) := rfl

theorem EncodeLength.tax : EncodeLength.Statement .tax := rfl

theorem EncodeLength.txa : EncodeLength.Statement .txa := rfl

theorem EncodeLength.tay : EncodeLength.Statement .tay := rfl

theorem EncodeLength.tya : EncodeLength.Statement .tya := rfl

theorem EncodeLength.addx : EncodeLength.Statement .addx := rfl

theorem EncodeLength.addy : EncodeLength.Statement .addy := rfl

theorem EncodeLength.addi (imm8 : Byte) : EncodeLength.Statement (.addi imm8) := rfl

theorem EncodeLength.addm (addr16 : Addr16) : EncodeLength.Statement (.addm addr16) := rfl

theorem EncodeLength.subx : EncodeLength.Statement .subx := rfl

theorem EncodeLength.suby : EncodeLength.Statement .suby := rfl

theorem EncodeLength.subi (imm8 : Byte) : EncodeLength.Statement (.subi imm8) := rfl

theorem EncodeLength.subm (addr16 : Addr16) : EncodeLength.Statement (.subm addr16) := rfl

theorem EncodeLength.inca : EncodeLength.Statement .inca := rfl

theorem EncodeLength.incx : EncodeLength.Statement .incx := rfl

theorem EncodeLength.incy : EncodeLength.Statement .incy := rfl

theorem EncodeLength.deca : EncodeLength.Statement .deca := rfl

theorem EncodeLength.decx : EncodeLength.Statement .decx := rfl

theorem EncodeLength.decy : EncodeLength.Statement .decy := rfl

theorem EncodeLength.shla : EncodeLength.Statement .shla := rfl

theorem EncodeLength.shra : EncodeLength.Statement .shra := rfl

theorem EncodeLength.jmp (addr16 : Addr16) : EncodeLength.Statement (.jmp addr16) := rfl

theorem EncodeLength.jz (addr16 : Addr16) : EncodeLength.Statement (.jz addr16) := rfl

theorem EncodeLength.jnz (addr16 : Addr16) : EncodeLength.Statement (.jnz addr16) := rfl

theorem EncodeLength.jn (addr16 : Addr16) : EncodeLength.Statement (.jn addr16) := rfl

theorem EncodeLength.jnn (addr16 : Addr16) : EncodeLength.Statement (.jnn addr16) := rfl

theorem EncodeLength.jo (addr16 : Addr16) : EncodeLength.Statement (.jo addr16) := rfl

theorem EncodeLength.jno (addr16 : Addr16) : EncodeLength.Statement (.jno addr16) := rfl

theorem EncodeLength.jrf : EncodeLength.Statement .jrf := rfl

theorem EncodeLength.jrb : EncodeLength.Statement .jrb := rfl

theorem EncodeLength.fill (imm8 : Byte) : EncodeLength.Statement (.fill imm8) := rfl

theorem EncodeLength.copy (addr16 : Addr16) : EncodeLength.Statement (.copy addr16) := rfl

theorem EncodeLength.bcmp (addr16 : Addr16) : EncodeLength.Statement (.bcmp addr16) := rfl

end Sys2Proof.Laws
end

