-- ==== Sys2Proof/Laws/Rule.lean ====
section
/-! SUPPORT. What a written rule can do, said once: its statements change registers, PC, Z, N, O and memory by the named
operations, and nothing else. -/

namespace Sys2Proof.Machine

/-- A state that a written rule can make of another: by the five updates of its statements, in any number. -/
theorem RuleStmt.run_induct {P : RuleFrame → Prop}
    (hlocal : ∀ f i v, P f → P (f.setLocal i v))
    (hreg : ∀ (f : RuleFrame) r v, P f → P { f with state := f.state.setRuleRegister v r })
    (hflag : ∀ (f : RuleFrame) name v, P f → P { f with state := { f.state with flags := f.state.flags.set v name } })
    (hread : ∀ f i addr, P f → P (f.read i addr))
    (hwrite : ∀ f addr v, P f → P (f.write addr v)) :
    ∀ (body : RuleStmt) (f : RuleFrame), P f → P (body.run f)
  | .skip, _, h => h
  | .seq first second, f, h =>
    RuleStmt.run_induct hlocal hreg hflag hread hwrite second _
      (RuleStmt.run_induct hlocal hreg hflag hread hwrite first f h)
  | .setLocal _ _, f, h => hlocal f _ _ h
  | .setRegister _ _, f, h => hreg f _ _ h
  | .setFlag _ _, f, h => hflag f _ _ h
  | .read _ _, f, h => hread f _ _ h
  | .write _ _, f, h => hwrite f _ _ h
  | .cond condition first second, f, h => by
    unfold RuleStmt.run
    split
    · exact RuleStmt.run_induct hlocal hreg hflag hread hwrite second f h
    · exact RuleStmt.run_induct hlocal hreg hflag hread hwrite first f h
  | .loop count body, f, h => by
    have hb : ∀ g, P g → P (body.run g) := RuleStmt.run_induct hlocal hreg hflag hread hwrite body
    have hn : ∀ (n : Nat) (g : RuleFrame), P g → P (RuleFrame.repeated body.run n g) := by
      intro n
      induction n with
      | zero => exact fun _ hg => hg
      | succ n ih => exact fun g hg => ih _ (hb g hg)
    exact hn _ f h

/-- What a written rule keeps of a state: the parameters, the status, the step count and H. -/
theorem RuleStmt.run_keeps (body : RuleStmt) (f : RuleFrame) :
    (body.run f).state.params = f.state.params ∧ (body.run f).state.status = f.state.status ∧
    (body.run f).state.steps = f.state.steps ∧ (body.run f).state.flags.h = f.state.flags.h := by
  refine RuleStmt.run_induct (P := fun g => g.state.params = f.state.params ∧ g.state.status = f.state.status ∧
    g.state.steps = f.state.steps ∧ g.state.flags.h = f.state.flags.h) ?_ ?_ ?_ ?_ ?_ body f ⟨rfl, rfl, rfl, rfl⟩
  · exact fun _ _ _ h => h
  · rintro g (_ | _ | _ | _) v h <;> exact h
  · rintro g (_ | _ | _) v h <;> exact h
  · exact fun _ _ _ h => h
  · exact fun _ _ _ h => h

/-- A written rule keeps the canonical form of memory (log 7). -/
theorem RuleStmt.run_mem_wf (body : RuleStmt) {f : RuleFrame} (h : Memory.wf f.state.mem = true) :
    Memory.wf (body.run f).state.mem = true := by
  refine RuleStmt.run_induct (P := fun g => Memory.wf g.state.mem = true) ?_ ?_ ?_ ?_ ?_ body f h
  · exact fun _ _ _ h => h
  · rintro g (_ | _ | _ | _) v h <;> exact h
  · rintro g (_ | _ | _) v h <;> exact h
  · exact fun _ _ _ h => h
  · exact fun g addr v h => State.memWrite_wf h addr v

/-- The accesses of a written rule, run on the memory it started from, give the memory it ends with. -/
theorem RuleStmt.run_replay (body : RuleStmt) (f : RuleFrame) (m : Memory) (h : replay f.accesses m = some f.state.mem) :
    replay (body.run f).accesses m = some (body.run f).state.mem := by
  have happ : ∀ (l : List Access) (acc : Access) (m m' : Memory), replay l m = some m' →
      replay (l ++ [acc]) m = replay [acc] m' := by
    intro l
    induction l with
    | nil =>
      intro acc m m' h
      cases h
      rfl
    | cons a l ih =>
      intro acc m m' h
      cases a with
      | read addr v =>
        simp only [List.cons_append, replay] at h ⊢
        split at h
        · simp [*, ih acc m m' h]
        · cases h
      | write addr v => exact ih acc _ m' h
  refine RuleStmt.run_induct (P := fun g => replay g.accesses m = some g.state.mem) ?_ ?_ ?_ ?_ ?_ body f h
  · exact fun _ _ _ h => h
  · rintro g (_ | _ | _ | _) v h <;> exact h
  · rintro g (_ | _ | _) v h <;> exact h
  · intro g i addr h
    show replay (g.accesses ++ [g.state.readAccess addr]) m = some g.state.mem
    rw [happ _ _ _ _ h]
    simp [State.readAccess, State.memRead, replay]
  · intro g addr v h
    show replay (g.accesses ++ [g.state.writeAccess addr v]) m = some (g.state.memWrite addr v).mem
    rw [happ _ _ _ _ h]
    rfl

/-- What a step of a written rule does to the parameters, the flags, the step count and the status. -/
theorem execWritten_fields {fetched : Fetched} {body : RuleStmt} {s t : State}
    (h : execWritten fetched body s = .next t) :
    t.params = s.params ∧ (∃ v, t.flags = s.flags.commit fetched.descriptor.flags v ∧ v.h = some true) ∧
    t.steps = s.steps + 1 ∧ t.status = if t.flags.h then .halted else s.status := by
  obtain ⟨h1, h2, h3, h4⟩ := RuleStmt.run_keeps body (RuleFrame.start fetched s)
  unfold execWritten at h
  rw [complete_eq] at h
  injection h with h
  subst h
  exact ⟨h1, ⟨_, rfl, rfl⟩, congrArg (· + 1) h3, by simp only [h2]; rfl⟩

/-- Every fetched instruction answers a next state. -/
theorem execFetched_next (fetched : Fetched) (s : State) : ∃ t, execFetched fetched s = .next t := by
  unfold execFetched
  cases fetched.descriptor.rule with
  | reference m => exact exec_next _ s
  | written body => exact ⟨_, rfl⟩

/-- What every fetched instruction does to the parameters, the flags, the step count and the status, where the byte at
PC looks up its descriptor. -/
theorem execFetched_fields {fetched : Fetched} {s t : State} (hd : s.descriptorAtPc = some fetched.descriptor)
    (h : execFetched fetched s = .next t) :
    t.params = s.params ∧ (∃ v, t.flags = s.flags.commit fetched.descriptor.flags v) ∧ t.steps = s.steps + 1 ∧
    t.status = if t.flags.h then .halted else s.status := by
  unfold execFetched at h
  split at h
  · rename_i m hm
    obtain ⟨h1, ⟨v, h2⟩, h3, h4⟩ := exec_fields h
    rw [Mnemonic.instr_mnemonic, State.declared_of_lookup hd hm] at h2
    exact ⟨h1, ⟨v, h2⟩, h3, h4⟩
  · obtain ⟨h1, ⟨v, h2, -⟩, h3, h4⟩ := execWritten_fields h
    exact ⟨h1, ⟨v, h2⟩, h3, h4⟩

end Sys2Proof.Machine
end

