-- ==== Sys2Proof/Laws/Run.lean ====
section
/-! SUPPORT. The run of the host port, one step at a time, and the host's iterated step. -/

namespace Sys2Proof.Machine

/-- A run of a core that is not Running returns at once (log 10). -/
theorem run_of_not_running {s : State} (h : s.status ≠ .running) (budget : Nat) (stop : List Bool) :
    run budget stop s = ⟨s, .notRunning⟩ := by
  unfold run
  cases hs : s.status with
  | running => exact absurd hs h
  | halted => rfl
  | faulted => rfl

/-- A run of a Running core with budget left: the stop signal, or a step and the rest of the run. -/
theorem run_succ {s t : State} (hs : s.status = .running) (h : step s = .next t) (n : Nat) (stop : List Bool) :
    run (n + 1) stop s = if stop.headD false then ⟨s, .stopSignal⟩ else run n stop.tail t := by
  rw [run, hs]
  simp only [h]

/-- Iterating the step of a core from a state that has a next state. -/
theorem core_run_succ {M : Host.Core} {s t : M.State} (h : M.step s = .next t) (k : Nat) :
    M.run (k + 1) s = M.run k t := by
  rw [Host.Core.run, h]

end Sys2Proof.Machine
end

