-- ==== Sys2Proof/Tests/Slice0.lean ====
section
/-! SUPPORT. Tests of the model on small states, the expected values taken from 95_test_vectors.md or worked by hand
from the rules; and for every statement with hypotheses a witness that meets them all. -/

namespace Sys2Proof.Tests

open Machine

/-! ## Helpers -/

/-- An instance with 4096 bytes of memory, after reset. -/
def small : State := State.init { referenceParams with memSize := 4096 }

/-- An instance with 5000 bytes of memory, after reset. -/
def odd : State := State.init { referenceParams with memSize := 5000 }

/-- The reference instance under `forward`, after reset. -/
def forward : State := State.reset.withCopyOverlap .forward

/-- `A <- A and X; Z <- (A = 0)`. -/
def andxBody : RuleStmt :=
  .seq (.setRegister .a (.apply .and (.register .a) (.register .x)))
    (.setFlag .z (.apply .eq (.register .a) (.num 0)))

/-- `t[0] <- MemRead(ea, 1); MemWrite(ea, 1, A); A <- t[0]`, with `ea = be16(operands)`. -/
def swapBody : RuleStmt :=
  let ea : RuleExpr := .apply .add (.apply .mul (.operand 0) (.num 256)) (.operand 1)
  .seq (.read (.num 0) ea) (.seq (.write ea (.register .a)) (.setRegister .a (.local (.num 0))))

/-- `repeat imm8: MemWrite(X + t[0], 1, 0); t[0] <- t[0] + 1`, and then, if Z, `pc <- pc + 2`. -/
def clearBody : RuleStmt :=
  .seq
    (.loop (.operand 0)
      (.seq (.write (.apply .add (.register .x) (.local (.num 0))) (.num 0))
        (.setLocal (.num 0) (.apply .add (.local (.num 0)) (.num 1)))))
    (.cond (.flag .z) (.setRegister .pc (.apply .add (.register .pc) (.num 2))) .skip)

/-- A catalog other than the reference one: other opcodes and flag sets, N declared for three instructions that do not
subtract, LDAI's rule under two names with two flag sets, and three rules the reference catalog has not. -/
def otherCatalog : Catalog :=
  [.ofRow .hlt 0xFF touchesH, .ofRow .addx 0x00 ⟨true, true, true, false⟩, .ofRow .incx 0x01 ⟨false, true, false, false⟩,
    .ofRow .incy 0x02 ⟨false, true, false, false⟩, .ofRow .ldai 0x03 ⟨false, true, false, false⟩,
    ⟨['L', 'D', 'Z'], 0x04, 1, .reference .ldai, touchesZ⟩, ⟨['A', 'N', 'D', 'X'], 0x80, 0, .written andxBody, touchesZ⟩,
    ⟨['S', 'W', 'A', 'P'], 0x81, 2, .written swapBody, .empty⟩, ⟨['C', 'L', 'R'], 0x82, 1, .written clearBody, .empty⟩]

/-- A catalog whose HLT takes an operand byte, writes it to A, and touches Z as well as H. -/
def haltCatalog : Catalog :=
  [⟨Mnemonic.hlt.name, 0xFE, 1,
    .written (.seq (.setRegister .a (.operand 0)) (.setFlag .z (.apply .eq (.operand 0) (.num 0)))),
    ⟨true, false, false, true⟩⟩, .ofRow .addx 0x30 touchesZO]

/-- An instance of the first of them, after reset. -/
def other : State := State.init { referenceParams with catalog := otherCatalog }

/-- The state after one step of the instruction whose bytes are stored at PC. -/
def after (s : State) (bytes : List Byte) : Option State :=
  match step (s.storeBytes s.pc.toNat bytes) with
  | .next t => some t
  | .fault _ | .refused _ => none

/-- Z, N and O. -/
def zno (s : State) : Bool × Bool × Bool := (s.flags.z, s.flags.n, s.flags.o)

/-- All of Z, N and O set. -/
def allSet : Flags := ⟨true, true, true, false⟩

/-- The bytes of memory at some addresses. -/
def cells (addrs : List Nat) (s : State) : List Byte := addrs.map s.memRead

/-- The invariant, as a check. -/
def invCheck (s : State) : Bool :=
  s.params.wf && decide (s.pc.toNat < s.params.memSize) && Memory.wf s.mem && Memory.within s.params.memSize s.mem &&
    ((s.status == .halted) == s.flags.h) &&
    (s.status != .faulted || s.params.catalog.lookup (s.memRead s.pc.toNat) == none)

theorem inv_of_check {s : State} (h : invCheck s = true) : s.Inv := by
  simp only [invCheck, Bool.and_eq_true, decide_eq_true_eq, beq_iff_eq, Bool.or_eq_true, bne_iff_ne] at h
  obtain ⟨⟨⟨⟨⟨h1, h2⟩, h3⟩, h4⟩, h5⟩, h6⟩ := h
  refine ⟨h1, h2, h3, h4, ?_, fun hf => ?_⟩
  · rw [← h5, beq_iff_eq]
  · exact h6.resolve_left fun hn => hn hf

/-! ## Well-formedness refuses what the spec refuses (30_encoding.md R66, 00_scope.md R5) -/

theorem test_wf_reference : Catalog.reference.wf = true ∧ otherCatalog.wf = true := by decide

theorem test_wf_refuses_opcode_collision :
    Catalog.opcodesUnique [.ofRow .addx 0x30 touchesZO, .ofRow .addy 0x30 touchesZO] = false ∧
    Catalog.wf [.ofRow .addx 0x30 touchesZO, .ofRow .addy 0x30 touchesZO] = false := by decide

theorem test_wf_refuses_duplicate_mnemonic :
    Catalog.mnemonicsUnique [.ofRow .addx 0x30 touchesZO, .ofRow .addx 0x31 touchesZO] = false ∧
    Catalog.wf [.ofRow .addx 0x30 touchesZO, .ofRow .addx 0x31 touchesZO] = false := by decide

theorem test_wf_refuses_length :
    Catalog.lengthsLegal [⟨['W', 'I', 'D', 'E'], 0x90, 3, .written .skip, .empty⟩] = false ∧
    Catalog.wf [⟨['W', 'I', 'D', 'E'], 0x90, 3, .written .skip, .empty⟩] = false ∧
    Catalog.wf [⟨['W', 'I', 'D', 'E'], 0x90, 2, .written .skip, .empty⟩] = true := by decide

theorem test_wf_refuses_halt_flag_of_another :
    Catalog.haltDeclared [.ofRow .addx 0x30 touchesH] = false ∧ Catalog.wf [.ofRow .hlt 0x01 .empty] = false := by decide

/-- HLT with a rule that gives no H, and H declared by HLT's rule under another name. -/
theorem test_wf_refuses_halt_without_value :
    Catalog.haltDeclared [⟨Mnemonic.hlt.name, 0x01, 1, .reference .ldai, touchesH⟩] = false ∧
    Catalog.haltDeclared [⟨['E', 'N', 'D'], 0x01, 0, .reference .hlt, touchesH⟩] = false := by decide

/-- HLT with an operand byte, that writes A and touches Z as well as H. -/
theorem test_wf_admits_other_halt : haltCatalog.wf = true := by decide

theorem test_wf_refuses_flag_without_value :
    Catalog.rulesFit [.ofRow .stam 0x14 touchesZ] = false ∧ Catalog.wf [.ofRow .stam 0x14 touchesZ] = false := by decide

theorem test_wf_refuses_operand_length_of_another_rule :
    Descriptor.ruleFits ⟨['J'], 0x40, 1, .reference .jmp, .empty⟩ = false ∧
    Catalog.wf [⟨['J'], 0x40, 1, .reference .jmp, .empty⟩] = false := by decide

theorem test_wf_refuses_memory_size :
    Params.wf { referenceParams with memSize := 4095 } = false ∧
    Params.wf { referenceParams with memSize := 65537 } = false ∧
    Params.memSizeInRange { referenceParams with memSize := 4096 } = true := by decide

theorem test_wf_refuses_unregistered_instruction :
    Instr.wf otherCatalog (.jmp 0) = false ∧ Instr.wf otherCatalog (.ldai 255) = true := by decide

/-! ## Decoding: a word of every constructor, from the columns of 30_encoding.md R68 -/

theorem test_decode_halt_and_loads :
    decode [0x01] = .ok (.hlt, []) ∧ decode [0x10, 0xA5] = .ok (.ldai 0xA5, []) ∧
    decode [0x11, 0x12, 0x34] = .ok (.ldam 0x1234, []) ∧ decode [0x12] = .ok (.ldaxy, []) ∧
    decode [0x13, 0x12, 0x34] = .ok (.ldao 0x1234, []) ∧ decode [0x18, 0xA5] = .ok (.ldxi 0xA5, []) ∧
    decode [0x19, 0x12, 0x34] = .ok (.ldxm 0x1234, []) ∧ decode [0x1C, 0xA5] = .ok (.ldyi 0xA5, []) ∧
    decode [0x1D, 0x12, 0x34] = .ok (.ldym 0x1234, []) := by decide

theorem test_decode_stores_and_transfers :
    decode [0x14, 0x12, 0x34] = .ok (.stam 0x1234, []) ∧ decode [0x15] = .ok (.staxy, []) ∧
    decode [0x16, 0x12, 0x34] = .ok (.stao 0x1234, []) ∧ decode [0x1A, 0x12, 0x34] = .ok (.stxm 0x1234, []) ∧
    decode [0x1E, 0x12, 0x34] = .ok (.stym 0x1234, []) ∧ decode [0x20] = .ok (.tax, []) ∧
    decode [0x21] = .ok (.txa, []) ∧ decode [0x22] = .ok (.tay, []) ∧ decode [0x23] = .ok (.tya, []) := by decide

theorem test_decode_arithmetic :
    decode [0x30] = .ok (.addx, []) ∧ decode [0x31] = .ok (.addy, []) ∧ decode [0x32, 0xA5] = .ok (.addi 0xA5, []) ∧
    decode [0x33, 0x12, 0x34] = .ok (.addm 0x1234, []) ∧ decode [0x34] = .ok (.subx, []) ∧
    decode [0x35] = .ok (.suby, []) ∧ decode [0x36, 0xA5] = .ok (.subi 0xA5, []) ∧
    decode [0x37, 0x12, 0x34] = .ok (.subm 0x1234, []) := by decide

theorem test_decode_steps_and_shifts :
    decode [0x38] = .ok (.inca, []) ∧
    decode [0x39] = .ok (.incx, []) ∧ decode [0x3A] = .ok (.incy, []) ∧ decode [0x3B] = .ok (.deca, []) ∧
    decode [0x3C] = .ok (.decx, []) ∧ decode [0x3D] = .ok (.decy, []) ∧ decode [0x3E] = .ok (.shla, []) ∧
    decode [0x3F] = .ok (.shra, []) := by decide

theorem test_decode_jumps :
    decode [0x40, 0x12, 0x34] = .ok (.jmp 0x1234, []) ∧ decode [0x41, 0x12, 0x34] = .ok (.jz 0x1234, []) ∧
    decode [0x42, 0x12, 0x34] = .ok (.jnz 0x1234, []) ∧ decode [0x43, 0x12, 0x34] = .ok (.jn 0x1234, []) ∧
    decode [0x44, 0x12, 0x34] = .ok (.jnn 0x1234, []) ∧ decode [0x45, 0x12, 0x34] = .ok (.jo 0x1234, []) ∧
    decode [0x46, 0x12, 0x34] = .ok (.jno 0x1234, []) ∧ decode [0x47] = .ok (.jrf, []) := by decide

theorem test_decode_jrb_and_blocks :
    decode [0x48] = .ok (.jrb, []) ∧ decode [0x50, 0xA5] = .ok (.fill 0xA5, []) ∧
    decode [0x51, 0x12, 0x34] = .ok (.copy 0x1234, []) ∧ decode [0x52, 0x12, 0x34] = .ok (.bcmp 0x1234, []) := by decide

theorem test_decode_refuses_by_name :
    decode [0x17] = .error (.unknownOpcode 0x17) ∧ decode [] = .error .noBytes ∧
    decode [0x40, 0x12] = .error (.missingOperand Mnemonic.jmp.name) ∧
    decodeWith otherCatalog [0x80] = .error (.writtenRule ['A', 'N', 'D', 'X']) := by decide

theorem test_table_word : decodeTableWord 8 0x3F = some .shra ∧ decodeTableWord 16 0xA532 = some (.addi 0xA5) ∧
    decodeTableWord 24 0x341233 = some (.addm 0x1234) ∧ decodeTableWord 8 0x40 = some (.jmp 0) := by decide

theorem test_fetch_word_runs :
    step (State.reset.withFetchWord 24 0x341240) = exec (.jmp 0x1234) (State.reset.withFetchWord 24 0x341240) ∧
    (State.reset.withFetchWord 24 0x341240).fetch.bind Fetched.instr = some (.jmp 0x1234) := ⟨rfl, by decide⟩

/-! ## Arithmetic and shifts (95_test_vectors.md) -/

theorem test_addx_V_ADD_02 : (after { State.reset with a := 250, x := 10 } [0x30]).map (fun t => (t.a, t.pc, zno t)) =
    some (4, 1, false, false, true) := by decide

theorem test_addx_V_ADD_05 :
    (after { State.reset with a := 100, x := 100, flags := ⟨false, true, false, false⟩ } [0x30]).map
      (fun t => (t.a, zno t)) = some (200, false, true, false) := by decide

theorem test_addy_V_ADD_07 : (after { State.reset with a := 0x80, y := 0x80 } [0x31]).map (fun t => (t.a, t.y, zno t)) =
    some (0, 0x80, true, false, true) := by decide

theorem test_addi_V_ADD_09 :
    (after { State.reset with a := 5, flags := ⟨false, true, true, false⟩ } [0x32, 0x00]).map
      (fun t => (t.a, t.pc, zno t)) = some (5, 2, false, true, false) := by decide

theorem test_addm_V_ADD_10 : (after ({ State.reset with a := 1 }.storeBytes 0x100 [255]) [0x33, 0x01, 0x00]).map
    (fun t => (t.a, t.pc, zno t)) = some (0, 3, true, false, true) := by decide

theorem test_addm_V_ADD_11 : (after { small with a := 0x10 } [0x33, 0x10, 0x00]).map (fun t => (t.a, zno t)) =
    some (0x43, false, false, false) := by decide

theorem test_subx_V_SUB_05 : (after { State.reset with a := 200, x := 10 } [0x34]).map (fun t => (t.a, zno t)) =
    some (190, false, false, false) := by decide

theorem test_subx_V_SUB_06 : (after { State.reset with a := 10, x := 200 } [0x34]).map (fun t => (t.a, zno t)) =
    some (66, false, true, false) := by decide

theorem test_suby_V_SUB_07 :
    (after { State.reset with a := 3, y := 1, flags := ⟨false, false, true, false⟩ } [0x35]).map
      (fun t => (t.a, zno t)) = some (2, false, false, true) := by decide

theorem test_subi_V_SUB_08 : (after { State.reset with a := 0x0F } [0x36, 0x10]).map (fun t => (t.a, t.pc, zno t)) =
    some (0xFF, 2, false, true, false) := by decide

theorem test_subm_V_SUB_10 : (after (State.reset.storeBytes 0x200 [1]) [0x37, 0x02, 0x00]).map
    (fun t => (t.a, t.pc, zno t)) = some (255, 3, false, true, false) := by decide

theorem test_inca_V_INC_04 : (after { State.reset with a := 127 } [0x38]).map (fun t => (t.a, zno t)) =
    some (128, false, false, false) := by decide

theorem test_incx_V_INC_02 : (after { State.reset with x := 255, a := 7 } [0x39]).map (fun t => (t.x, t.a, zno t)) =
    some (0, 7, true, false, true) := by decide

theorem test_incy_V_INC_03 : (after { State.reset with y := 255 } [0x3A]).map (fun t => (t.y, zno t)) =
    some (0, true, false, true) := by decide

theorem test_deca_V_DEC_04 : (after { State.reset with a := 200 } [0x3B]).map (fun t => (t.a, zno t)) =
    some (199, false, false, false) := by decide

theorem test_decx_V_DEC_05 :
    (after { State.reset with x := 1, flags := ⟨false, false, true, false⟩ } [0x3C]).map (fun t => (t.x, zno t)) =
      some (0, true, false, true) := by decide

theorem test_decy_V_DEC_03 : (after State.reset [0x3D]).map (fun t => (t.y, zno t)) =
    some (255, false, true, false) := by decide

theorem test_shla_V_SH_03 : (after { State.reset with a := 0xFF } [0x3E]).map (fun t => (t.a, zno t)) =
    some (0xFE, false, false, true) := by decide

theorem test_shra_V_SH_05 :
    (after { State.reset with a := 1, flags := ⟨false, true, true, false⟩ } [0x3F]).map (fun t => (t.a, zno t)) =
      some (0, true, true, true) := by decide

theorem test_shra_V_SH_06 : (after { State.reset with a := 0xFF } [0x3F]).map (fun t => (t.a, zno t)) =
    some (0x7F, false, false, false) := by decide

/-- 41_arithmetic.md R104, worked by hand: 100 + 100 = 200 has bit 7 set. -/
theorem test_high_bit_law_addx : (after { other with a := 100, x := 100 } [0x00]).map (fun t => (t.a, zno t)) =
    some (200, false, true, false) := by decide

/-! ## The rules of another catalog (30_encoding.md R65), worked by hand -/

/-- LDAI's rule under two names: the one declares N, the other Z. -/
theorem test_one_rule_two_flag_sets :
    (after { other with flags := allSet } [0x03, 0x00]).map (fun t => (t.a, zno t)) = some (0, true, false, true) ∧
    (after other [0x04, 0x00]).map (fun t => (t.a, zno t)) = some (0, true, false, false) := by decide

/-- 0x0C and 0x0A = 0x08; Z is declared and N is not. -/
theorem test_written_and : (after { other with a := 0x0C, x := 0x0A, flags := allSet } [0x80]).map
    (fun t => (t.a, t.pc, zno t, t.steps)) = some (0x08, 1, (false, true, true), 1) := by decide

/-- The byte at 0x0105 and A change places, and the read comes before the write in the history. -/
theorem test_written_swap :
    (after ({ other with a := 7 }.storeBytes 0x105 [9]) [0x81, 0x01, 0x05]).map
      (fun t => (t.a, cells [0x105] t, t.pc)) = some (9, [7], 3) ∧
    stepAccesses ({ other with a := 7 }.storeBytes 0x105 [9] |>.storeBytes 0 [0x81, 0x01, 0x05]) =
      [.read 0 0x81, .read 1 0x01, .read 2 0x05, .read 0x105 9, .write 0x105 7] := by decide

/-- A becomes the operand byte, Z says it is 0, H is set and the status is Halted, PC past both bytes. -/
theorem test_written_halt :
    (after { State.init { referenceParams with catalog := haltCatalog } with a := 9 } [0xFE, 0x00]).map
      (fun t => (t.a, t.pc, t.flags, t.status, t.steps)) = some (0, 2, ⟨true, false, false, true⟩, .halted, 1) := by decide

/-- Two bytes from X on become 0 and the next stays; with Z set PC goes two bytes past the instruction's end. -/
theorem test_written_clear :
    (after ({ other with x := 0x40, flags := allSet }.storeBytes 0x40 [1, 2, 3]) [0x82, 0x02]).map
      (fun t => (cells [0x40, 0x41, 0x42] t, t.pc, zno t)) = some ([0, 0, 3], 4, true, true, true) := by decide

/-! ## Loads, stores, transfers (95_test_vectors.md) -/

theorem test_ldai_V_LD_02 : (after { State.reset with a := 9 } [0x10, 0x00]).map (fun t => (t.a, t.pc, zno t)) =
    some (0, 2, false, false, false) := by decide

theorem test_ldai_V_EA_04 : (after { State.reset with pc := 0xFFFF } [0x10, 0x99]).map (fun t => (t.a, t.pc)) =
    some (0x99, 1) := by decide

theorem test_ldam_V_LD_05 : (after (small.storeBytes 5 [0x3C]) [0x11, 0x10, 0x05]).map (fun t => (t.a, t.pc)) =
    some (0x3C, 3) := by decide

theorem test_ldaxy_V_LD_07 : (after ({ small with x := 0x05, y := 0x1F }.storeBytes 0xF05 [0x66]) [0x12]).map
    (fun t => (t.a, t.x, t.y, t.pc)) = some (0x66, 0x05, 0x1F, 1) := by decide

theorem test_ldaxy_V_EA_08 : (after { odd with x := 0x88, y := 0x13 } [0x12]).map (fun t => t.a) = some 0x12 := by decide

theorem test_ldao_V_LD_09 : (after { State.reset with x := 2 } [0x13, 0xFF, 0xFF]).map (fun t => t.a) =
    some 0xFF := by decide

theorem test_ldao_V_LD_10 : (after ({ small with x := 5 }.storeBytes 3 [0x42]) [0x13, 0x0F, 0xFE]).map
    (fun t => t.a) = some 0x42 := by decide

theorem test_ldxi_V_LD_11 : (after State.reset [0x18, 0x0A]).map (fun t => (t.a, t.x, t.y, t.pc)) =
    some (0, 10, 0, 2) := by decide

theorem test_ldxm_V_LD_12 : (after (State.reset.storeBytes 0x101 [89]) [0x19, 0x01, 0x01]).map
    (fun t => (t.a, t.x, t.y)) = some (0, 89, 0) := by decide

theorem test_ldyi_V_LD_13 : (after State.reset [0x1C, 0x0A]).map (fun t => (t.a, t.x, t.y)) = some (0, 0, 10) := by decide

theorem test_ldym_V_LD_14 : (after (State.reset.storeBytes 0x300 [0x20]) [0x1D, 0x03, 0x00]).map
    (fun t => (t.a, t.x, t.y)) = some (0, 0, 0x20) := by decide

theorem test_stam_V_ST_06 : (after { small with a := 0xAB } [0x14, 0x10, 0x05]).map (cells [0x004, 0x005, 0x006]) =
    some [0, 0xAB, 0] := by decide

theorem test_staxy_V_ST_07 : (after { small with a := 0xAB, x := 0xFF, y := 0xFF } [0x15]).map (cells [0xFFF]) =
    some [0xAB] := by decide

theorem test_stao_V_ST_03 : (after { State.reset with a := 1, x := 0xFF } [0x16, 0x01, 0x00]).map
    (cells [0x0FF, 0x100, 0x1FF]) = some [0, 0, 1] := by decide

theorem test_stxm_V_ST_04 : (after { State.reset with x := 89, a := 1, y := 2 } [0x1A, 0x01, 0x01]).map
    (cells [0x101]) = some [89] := by decide

theorem test_stym_V_ST_05 : (after { State.reset with y := 0x20, a := 1, x := 2 } [0x1E, 0x03, 0x00]).map
    (cells [0x300]) = some [0x20] := by decide

/-- V-ST-08: the stored byte is the next instruction fetched. -/
theorem test_stam_V_ST_08 :
    ((after ({ State.reset with a := 1 }.storeBytes 3 [0x38]) [0x14, 0x00, 0x03]).map fun t => t.fetch.bind Fetched.instr) =
      some (some .hlt) := by decide

theorem test_tax_V_TR_05 : (after { State.reset with x := 7 } [0x20]).map (fun t => (t.a, t.x, zno t)) =
    some (0, 0, false, false, false) := by decide

theorem test_txa_V_TR_02 : (after { State.reset with x := 3 } [0x21]).map (fun t => (t.a, t.x)) = some (3, 3) := by decide

theorem test_tay_V_TR_03 : (after { State.reset with a := 0x10 } [0x22]).map (fun t => (t.a, t.x, t.y)) =
    some (0x10, 0, 0x10) := by decide

theorem test_tya_V_TR_04 : (after { State.reset with y := 0xFF } [0x23]).map (fun t => (t.a, zno t)) =
    some (0xFF, false, false, false) := by decide

/-! ## Jumps and halt (95_test_vectors.md) -/

theorem test_jmp_V_EA_05 : (after { State.reset with pc := 0xFFFE } [0x40, 0x12, 0x34]).map (fun t => t.pc) =
    some 0x1234 := by decide

theorem test_jmp_V_JMP_02 : (after small [0x40, 0x10, 0x18]).map (fun t => t.pc) = some 0x018 := by decide

theorem test_jz_V_JMP_03_04 :
    (after { State.reset with flags := allSet } [0x41, 0x00, 0x10]).map (fun t => (t.pc, zno t)) =
      some (0x0010, true, true, true) ∧
    (after State.reset [0x41, 0x00, 0x10]).map (fun t => t.pc) = some 0x0003 := by decide

theorem test_jnz_V_JMP_05 :
    (after { State.reset with pc := 0x1F } [0x42, 0x00, 0x07]).map (fun t => t.pc) = some 0x0007 ∧
    (after { State.reset with pc := 0x1F, flags := allSet } [0x42, 0x00, 0x07]).map (fun t => t.pc) =
      some 0x0022 := by decide

theorem test_jn_V_JMP_06 :
    (after { State.reset with flags := ⟨false, true, false, false⟩ } [0x43, 0x01, 0x00]).map (fun t => t.pc) =
      some 0x0100 ∧
    (after { State.reset with flags := ⟨true, false, true, false⟩ } [0x43, 0x01, 0x00]).map (fun t => t.pc) =
      some 0x0003 := by decide

theorem test_jnn_V_JMP_06 :
    (after { State.reset with flags := ⟨false, true, false, false⟩ } [0x44, 0x01, 0x00]).map (fun t => t.pc) =
      some 0x0003 ∧
    (after { State.reset with flags := ⟨true, false, true, false⟩ } [0x44, 0x01, 0x00]).map (fun t => t.pc) =
      some 0x0100 := by decide

theorem test_jo_V_JMP_09 :
    (after { State.reset with pc := 0x0B, flags := ⟨false, false, true, false⟩ } [0x45, 0x00, 0x1B]).map
      (fun t => t.pc) = some 0x001B ∧
    (after { State.reset with pc := 0x0B, flags := ⟨true, true, false, false⟩ } [0x45, 0x00, 0x1B]).map
      (fun t => t.pc) = some 0x000E := by decide

theorem test_jno_V_JMP_09 :
    (after { State.reset with pc := 0x0B, flags := ⟨true, true, false, false⟩ } [0x46, 0x00, 0x1B]).map
      (fun t => t.pc) = some 0x001B ∧
    (after { State.reset with pc := 0x0B, flags := ⟨false, false, true, false⟩ } [0x46, 0x00, 0x1B]).map
      (fun t => t.pc) = some 0x000E := by decide

theorem test_jrf_V_JMP_10 : (after { State.reset with pc := 0x1C, x := 3 } [0x47]).map (fun t => t.pc) =
    some 0x0020 := by decide

theorem test_jrf_V_JMP_12 : (after { small with pc := 0xFFE, x := 5 } [0x47]).map (fun t => t.pc) =
    some 0x004 := by decide

theorem test_jrb_V_JMP_13 : (after { State.reset with pc := 0x10, x := 5 } [0x48]).map (fun t => t.pc) =
    some 0x000C := by decide

theorem test_jrb_V_JMP_15 : (after { State.reset with x := 2 } [0x48]).map (fun t => t.pc) = some 0xFFFF := by decide

theorem test_hlt_V_HLT_01 :
    (after { State.reset with pc := 0x22, flags := allSet, steps := 10 } [0x01]).map
      (fun t => (t.flags, t.status, t.pc, t.steps)) = some (⟨true, true, true, true⟩, .halted, 0x0023, 11) := by decide

theorem test_hlt_V_HLT_02 : step { State.reset with flags := ⟨false, false, false, true⟩, status := .halted } =
    .fault .halted := rfl

/-! ## Block instructions (95_test_vectors.md) -/

theorem test_fill_V_BLK_01 : (after { State.reset with a := 4, y := 0x10 } [0x50, 0xAA]).map
    (fun t => (cells [0x0FFF, 0x1000, 0x1003, 0x1004] t, t.a, t.pc)) = some ([0, 0xAA, 0xAA, 0], 4, 2) := by decide

theorem test_fill_V_BLK_03 : (after { small with pc := 0x100, a := 3, x := 0xFE, y := 0x0F } [0x50, 0x77]).map
    (cells [0xFFE, 0xFFF, 0, 1]) = some [0x77, 0x77, 0x77, 0] := by decide

theorem test_copy_V_BLK_07_snapshot :
    (after ({ State.reset with a := 3, y := 0x10 }.storeBytes 0x1000 [1, 2, 3, 4]) [0x51, 0x10, 0x01]).map
      (cells [0x1000, 0x1001, 0x1002, 0x1003]) = some [1, 1, 2, 3] := by decide

theorem test_copy_V_BLK_07_forward :
    (after ({ forward with a := 3, y := 0x10 }.storeBytes 0x1000 [1, 2, 3, 4]) [0x51, 0x10, 0x01]).map
      (cells [0x1000, 0x1001, 0x1002, 0x1003]) = some [1, 1, 1, 1] := by decide

theorem test_bcmp_V_BLK_11 :
    (after (({ State.reset with a := 2, y := 0x10, flags := ⟨false, true, true, false⟩ }.storeBytes 0x1000
      [0xAA, 0xAA]).storeBytes 0x2000 [0xAA, 0xAA]) [0x52, 0x20, 0x00]).map (fun t => (t.a, zno t)) =
      some (2, true, true, true) := by decide

theorem test_bcmp_V_BLK_14 :
    (after (({ small with pc := 0x100, a := 2, x := 0xFF, y := 0x0F, flags := allSet }.storeBytes 0xFFF
      [0xAB, 0xCD]).storeBytes 0x200 [0xAB, 0xCE]) [0x52, 0x02, 0x00]).map zno = some (false, true, true) := by decide

/-! ## Faults, construction, load, run, assembler (95_test_vectors.md) -/

theorem test_fault_V_FLT_02 :
    (after { State.reset with pc := 0x1234, a := 5, flags := ⟨true, false, false, false⟩ } [0xFF]).map
      (fun t => (t.faultRecord, t.pc, t.a, t.steps, t.flags)) =
      some (some ⟨1, 0xFF, 0x1234⟩, 0x1234, 5, 0, ⟨true, false, false, false⟩) := by decide

theorem test_construct_V_CAT_01 :
    construct { referenceParams with catalog := .ofRow .addy 0x30 touchesZO :: Catalog.reference } =
      .error .opcodeCollision := by decide

theorem test_load_places_bytes :
    (match load [0x10, 0x07] State.reset with | .ok t => cells [0, 1, 2] t | .error _ => []) = [0x10, 0x07, 0] := by
  decide

/-- A second load keeps no byte of the first. -/
theorem test_second_load_clears :
    (match load [0x10, 0x07] State.reset with
      | .ok t => (match load [0x38] t with | .ok u => cells [0, 1, 2] u | .error _ => [])
      | .error _ => []) = [0x38, 0, 0] := by decide

theorem test_load_after_first_step :
    (after State.reset [0x38]).map (fun t => load [0x01] t) = some (.error .loadAfterFirstStep) := by decide

/-- V-RST-04 in small: the budget ends the run, the core is still Running. -/
theorem test_run_budget_and_stop :
    ((run 1 [] (State.reset.storeBytes 0 [0x38, 0x38, 0x01])).state.steps,
      (run 1 [] (State.reset.storeBytes 0 [0x38, 0x38, 0x01])).ended,
      (run 9 [true] (State.reset.storeBytes 0 [0x38])).ended) = (1, RunEnd.budget, RunEnd.stopSignal) := by decide

theorem test_assemble_V_ASM_01 : assemble Catalog.reference "loop:\nDECY\nJNZ loop\nHLT".toList =
    .ok [0x3D, 0x42, 0x00, 0x00, 0x01] := by decide

theorem test_assemble_V_ASM_02 : assemble Catalog.reference "JMP end\nINCA\nend:\nHLT".toList =
    .ok [0x40, 0x00, 0x04, 0x38, 0x01] := by decide

theorem test_assemble_V_ASM_03 : assemble Catalog.reference "; header\n\nLDAI 0x2A ; load 42".toList =
    .ok [0x10, 0x2A] := by decide

theorem test_assemble_V_ASM_04 : assemble Catalog.reference "JMP 5".toList = .error (.operandWidthMismatch 1) := by
  decide

theorem test_assemble_V_ASM_05 : assemble Catalog.reference "JMP 0 5".toList = .ok [0x40, 0x00, 0x05] := by decide

theorem test_assemble_V_ASM_06 : assemble Catalog.reference "LDAI 0x005".toList = .error (.operandWidthMismatch 1) := by
  decide

theorem test_assemble_V_ASM_09 : assemble Catalog.reference "a:\nINCA\na:\nHLT".toList = .error (.duplicateLabel 3) := by
  decide

theorem test_assemble_V_ASM_10 : assemble Catalog.reference "JMP nowhere\nHLT".toList = .error (.undefinedLabel 1) := by
  decide

theorem test_assemble_V_ASM_11 : assemble Catalog.reference "hlt".toList = .error (.unknownMnemonic 1) := by decide

/-! ## Witnesses: states and operands that meet the hypotheses of each statement -/

/-- A word of one instruction and a byte after it, in the reference catalog and in another. -/
theorem witness_DecodeOfEncode :
    Catalog.reference.wf = true ∧ encodeWith Catalog.reference (.jmp 0xFFFF) = some [0x40, 0xFF, 0xFF] ∧
    otherCatalog.wf = true ∧ encodeWith otherCatalog (.ldai 0x80) = some [0x03, 0x80] := by decide

/-- The descriptor of `SWAP` in the other catalog, with its two operand bytes. -/
def fetchedSwap : Fetched := ⟨⟨['S', 'W', 'A', 'P'], 0x81, 2, .written swapBody, .empty⟩, [0x01, 0x05]⟩

theorem witness_DecodeOfEncode_fetched :
    fetchedSwap.descriptor ∈ otherCatalog ∧ fetchedSwap.operands.length = fetchedSwap.descriptor.length ∧
    decodeFetched otherCatalog [0x81, 0x01, 0x05, 0x99] = .ok (fetchedSwap, [0x99]) := by decide

theorem witness_EncodeOfDecode :
    Catalog.reference.wf = true ∧ decodeWith Catalog.reference [0x40, 0xFF, 0x00, 0x99] = .ok (.jmp 0xFF00, [0x99]) ∧
    otherCatalog.wf = true ∧ decodeWith otherCatalog [0x00] = .ok (.addx, []) := by decide

theorem witness_OpcodeCollision :
    ({ referenceParams with catalog := [.ofRow .hlt 0x01 touchesH, .ofRow .addx 0x30 touchesZO, .ofRow .addy 0x30 touchesZO] } :
      Params).catalog = [.ofRow .hlt 0x01 touchesH] ++ .ofRow .addx 0x30 touchesZO :: [] ++ .ofRow .addy 0x30 touchesZO :: [] ∧
    (Descriptor.ofRow .addx 0x30 touchesZO).opcode = (Descriptor.ofRow .addy 0x30 touchesZO).opcode := by decide

theorem witness_Construct : construct referenceParams = .ok State.reset ∧ referenceParams.wf = true := by decide

/-- A three-byte instruction whose operand wraps at the top of a 5000-byte memory. -/
def atTop : State := { odd with pc := 4999 }.storeBytes 4999 [0x40, 0x12, 0x34]

theorem witness_StepRuns : atTop.status = .running ∧
    decodeWith atTop.params.catalog
      [Memory.read atTop.mem (atTop.pc.toNat % atTop.params.memSize),
       Memory.read atTop.mem ((atTop.pc.toNat + 1) % atTop.params.memSize),
       Memory.read atTop.mem ((atTop.pc.toNat + 2) % atTop.params.memSize)] = .ok (.jmp 0x1234, []) := by decide

/-- An instruction with a written rule, its operand bytes around the top of memory. -/
def swapAtTop : State := { other with pc := 65535 }.storeBytes 65535 fetchedSwap.bytes

theorem witness_StepRuns_written : swapAtTop.status = .running ∧
    decodeFetched swapAtTop.params.catalog
      [Memory.read swapAtTop.mem (swapAtTop.pc.toNat % swapAtTop.params.memSize),
       Memory.read swapAtTop.mem ((swapAtTop.pc.toNat + 1) % swapAtTop.params.memSize),
       Memory.read swapAtTop.mem ((swapAtTop.pc.toNat + 2) % swapAtTop.params.memSize)] = .ok (fetchedSwap, []) ∧
    fetchedSwap.descriptor.rule = .written swapBody := by decide

/-- The last byte of memory holds an unassigned opcode. -/
def badAtTop : State := { small with pc := 0xFFF, a := 5 }.storeBytes 0xFFF [0xFF]

theorem witness_UnknownOpcode : badAtTop.Inv ∧ badAtTop.status = .running ∧
    Memory.read badAtTop.mem badAtTop.pc.toNat = 0xFF ∧ badAtTop.params.catalog.lookup 0xFF = none :=
  ⟨inv_of_check (by decide), by decide, by decide, by decide⟩

/-- An instruction to run from reset, and the states it leads to. -/
def incaState : State := { State.reset with a := 255 }.storeBytes 0 [0x38]

theorem witness_steps :
    (∃ t, incaState.status = .running ∧ step incaState = .next t ∧ t.status = .running) ∧
    (∃ t, badAtTop.status = .running ∧ step badAtTop = .next t ∧ t.status = .faulted) :=
  ⟨⟨_, rfl, rfl, by decide⟩, ⟨_, rfl, rfl, by decide⟩⟩

theorem witness_running : incaState.status = .running := rfl

theorem witness_HaltedAndFaulted :
    ({ State.reset with status := .halted } : State).status ≠ .running ∧
    ({ State.reset with status := .faulted } : State).status ≠ .running := by decide

/-- The premise of the result statements of single instructions: any instance of the reference catalog, here with
registers, flags and memory away from their reset values and PC at the last byte of a 5000-byte memory. -/
def busy : State :=
  { odd with a := 200, x := 255, y := 0x13, pc := 4999, flags := allSet, steps := 3 }.storeBytes 0x100 [1, 2, 3]

theorem witness_reference_results : busy.RunsReference ∧ State.reset.RunsReference ∧ small.RunsReference :=
  ⟨rfl, rfl, rfl⟩

theorem witness_StoreInstructions : busy.RunsReference ∧ Memory.wf busy.mem = true := ⟨rfl, by decide⟩

theorem witness_RelativeJumps : busy.RunsReference ∧ busy.Inv := ⟨rfl, inv_of_check (by decide)⟩

theorem witness_HighBitLaw :
    (∃ t, exec .addx other = .next t ∧ (other.declared .addx).n = true) ∧
    (∃ t, exec .incx other = .next t ∧ (other.declared .incx).n = true) ∧
    (∃ t, exec .incy other = .next t ∧ (other.declared .incy).n = true) ∧
    (∃ t, exec (.ldai 0x80) other = .next t ∧ (other.declared .ldai).n = true) :=
  ⟨⟨_, rfl, by decide⟩, ⟨_, rfl, by decide⟩, ⟨_, rfl, by decide⟩, ⟨_, rfl, by decide⟩⟩

/-- Z declared for a load, by the descriptor of the opcode at PC, and for instructions that write X and Y. -/
theorem witness_HighBitLaw_z :
    (∃ t, exec (.ldai 0) (other.storeBytes 0 [0x04]) = .next t ∧
      ((other.storeBytes 0 [0x04]).declared .ldai).z = true ∧ Mnemonic.writesA .ldai = true) ∧
    (∃ t, exec .incx busy = .next t ∧ (busy.declared .incx).z = true ∧ Mnemonic.writesX .incx = true) ∧
    (∃ t, exec .incy busy = .next t ∧ (busy.declared .incy).z = true ∧ Mnemonic.writesY .incy = true) :=
  ⟨⟨_, rfl, by decide, by decide⟩, ⟨_, rfl, by decide, by decide⟩, ⟨_, rfl, by decide, by decide⟩⟩

theorem witness_IndexedWriteThenRead :
    Memory.wf busy.mem = true ∧ ∃ t u, exec .staxy busy = .next t ∧ exec .ldaxy { t with a := 0 } = .next u :=
  ⟨by decide, _, _, rfl, rfl⟩

/-- A run of 200 bytes that wraps at the top of memory, and runs of 0 and 255 bytes. -/
theorem witness_Fill :
    (busy.RunsReference ∧ busy.Inv) ∧ ({ busy with a := 0 } : State).Inv ∧ ({ busy with a := 255 } : State).Inv :=
  ⟨⟨rfl, inv_of_check (by decide)⟩, inv_of_check (by decide), inv_of_check (by decide)⟩

theorem witness_CopySnapshot : busy.RunsReference ∧ busy.Inv ∧ busy.params.copyOverlap = .snapshot :=
  ⟨rfl, inv_of_check (by decide), rfl⟩

/-- A forward copy of four bytes, the source run at 0x1000. -/
def copying : State := { forward with a := 4, y := 0x10 }.storeBytes 0x1000 [1, 2, 3, 4]

/-- The destination one byte, and three bytes, inside the source run. -/
theorem witness_CopyForward :
    copying.RunsReference ∧ copying.Inv ∧ copying.params.copyOverlap = .forward ∧
    (0 < 1 ∧ 1 < copying.a.toNat ∧ (0x1001 : Addr16).toNat % copying.params.memSize =
      ((copying.x.toNat + 256 * copying.y.toNat) % copying.params.memSize + 1) % copying.params.memSize) ∧
    (0 < 3 ∧ 3 < copying.a.toNat ∧ (0x1003 : Addr16).toNat % copying.params.memSize =
      ((copying.x.toNat + 256 * copying.y.toNat) % copying.params.memSize + 3) % copying.params.memSize) :=
  ⟨rfl, inv_of_check (by decide), rfl, by decide, by decide⟩

/-- The destination at the source run, just before it, and just after it. -/
theorem witness_CopyModesAgree : copying.Inv ∧
    ∀ addr16 ∈ [(0x1000 : Addr16), 0x0FFF, 0x1004], ∀ k, 0 < k → k < copying.a.toNat →
      addr16.toNat % copying.params.memSize ≠
        ((copying.x.toNat + 256 * copying.y.toNat) % copying.params.memSize + k) % copying.params.memSize := by
  refine ⟨inv_of_check (by decide), fun addr16 h k h0 h1 => ?_⟩
  have hb : (copying.x.toNat + 256 * copying.y.toNat) % copying.params.memSize = 0x1000 := by decide
  have ha : copying.a.toNat = 4 := by decide
  have hm : copying.params.memSize = 65536 := by decide
  rw [hb, hm]
  rw [ha] at h1
  simp only [List.mem_cons, List.not_mem_nil, or_false] at h
  rcases h with rfl | rfl | rfl <;> simp <;> omega

/-- A store and an address outside what it stores to; a fill, and the addresses just before and after its run. -/
theorem witness_OnlyStoredBytesChange :
    (∃ t, exec (.stam 0x138D) busy = .next t ∧ ¬ Instr.storesTo (.stam 0x138D) busy 0x138D ∧ Instr.storesTo (.stam 0x138D) busy 5) ∧
    (∃ t, exec (.fill 1) copying = .next t ∧ ¬ Instr.storesTo (.fill 1) copying 0x0FFF ∧
      ¬ Instr.storesTo (.fill 1) copying 0x1004 ∧ Instr.storesTo (.fill 1) copying 0x1003) := by
  refine ⟨⟨_, rfl, fun h => absurd h (by decide : ¬ 0x138D = busy.eaDirect 0x138D), rfl⟩, ⟨_, rfl, ?_, ?_, ⟨3, by decide, by decide⟩⟩⟩ <;> rintro ⟨k, h1, h2⟩
  · have hk : ∀ k, k < 4 → 0x0FFF ≠ copying.wrap (copying.eaIndexed + k) := by decide
    exact hk k h1 h2
  · have hk : ∀ k, k < 4 → 0x1004 ≠ copying.wrap (copying.eaIndexed + k) := by decide
    exact hk k h1 h2

theorem witness_exec : ∃ t, busy.RunsReference ∧ busy.Inv ∧ exec (.addi 255) busy = .next t ∧
    Mnemonic.isJump (Instr.addi 255).mnemonic = false ∧ Mnemonic.writesX (Instr.addi 255).mnemonic = false ∧
    (busy.declared .addi).n = false :=
  ⟨_, rfl, inv_of_check (by decide), rfl, by decide, by decide, by decide⟩

/-- An instruction that declares no flag and is no listed writer of any register or flag. -/
theorem witness_frames : ∃ t, busy.RunsReference ∧ exec .jrb busy = .next t ∧ busy.declared .jrb = .empty ∧
    Mnemonic.writesA .jrb = false ∧ Mnemonic.writesX .jrb = false ∧ Mnemonic.writesY .jrb = false ∧
    Mnemonic.writesZ .jrb = false ∧ Mnemonic.writesN .jrb = false ∧ Mnemonic.writesO .jrb = false ∧
    Instr.jrb.mnemonic ≠ .hlt :=
  ⟨_, rfl, rfl, by decide, by decide, by decide, by decide, by decide, by decide, by decide, by decide⟩

/-- A step of a descriptor of the table, and one of a written rule, each with flags it does not declare. -/
theorem witness_UndeclaredFlags_step :
    (∃ t, incaState.params.catalog.lookup (incaState.memRead incaState.pc.toNat) = some (.ofRow .inca 0x38 touchesZO) ∧
      step incaState = .next t) ∧
    (∃ t, swapAtTop.params.catalog.lookup (swapAtTop.memRead swapAtTop.pc.toNat) = some fetchedSwap.descriptor ∧
      step swapAtTop = .next t) :=
  ⟨⟨_, by decide, rfl⟩, ⟨_, by decide, rfl⟩⟩

/-- HLT and another instruction, each in a Running state that meets the invariant. -/
theorem witness_OnlyHltHalts :
    (∃ t, busy.Inv ∧ busy.status = .running ∧ exec .hlt busy = .next t ∧ (busy.declared .hlt).h = true) ∧
    (∃ t, busy.Inv ∧ busy.status = .running ∧ exec .jrb busy = .next t) ∧ busy.RunsReference :=
  ⟨⟨_, inv_of_check (by decide), by decide, rfl, by decide⟩, ⟨_, inv_of_check (by decide), by decide, rfl⟩, rfl⟩

/-- An HLT whose rule is written out, and a step of another descriptor. -/
def stopping : State := (State.init { referenceParams with catalog := haltCatalog }).storeBytes 0 [0xFE, 0x00]

theorem witness_OnlyHltHalts_step :
    (∃ d t, stopping.Inv ∧ stopping.status = .running ∧
      stopping.params.catalog.lookup (stopping.memRead stopping.pc.toNat) = some d ∧ d.mnemonic = Mnemonic.hlt.name ∧
      step stopping = .next t ∧ t.status = .halted) ∧
    (∃ d t, incaState.Inv ∧ incaState.status = .running ∧
      incaState.params.catalog.lookup (incaState.memRead incaState.pc.toNat) = some d ∧
      d.mnemonic ≠ Mnemonic.hlt.name ∧ step incaState = .next t) :=
  ⟨⟨_, _, inv_of_check (by decide), by decide, rfl, by decide, rfl, by decide⟩,
    ⟨_, _, inv_of_check (by decide), by decide, rfl, by decide, rfl⟩⟩

theorem witness_ReadAfterWrite : Memory.wf busy.mem = true ∧ Memory.wf (busy.memWrite 0x101 0).mem = true := by decide

/-- One memory written in two orders. -/
theorem witness_CanonicalMemories :
    Memory.wf (Memory.write (Memory.write [] 5 1) 3 2) = true ∧ Memory.wf (Memory.write (Memory.write [] 3 2) 5 1) = true ∧
    ∀ addr, Memory.read (Memory.write (Memory.write [] 5 1) 3 2) addr =
      Memory.read (Memory.write (Memory.write [] 3 2) 5 1) addr :=
  ⟨by decide, by decide, fun _ => rfl⟩

/-- A store into the peripheral's range, at its first address. -/
def printing : State :=
  { small.withPeriph ⟨0x300, 16⟩ with a := 65 }.storeBytes 0 [0x14, 0x03, 0x00]

theorem witness_PeripheralSeesEveryChange : ∃ t, printing.Inv ∧ step printing = .next t ∧
    printing.params.periph.contains 0x300 = true ∧ Memory.read t.mem 0x300 ≠ Memory.read printing.mem 0x300 :=
  ⟨_, inv_of_check (by decide), rfl, by decide, by decide⟩

/-- A store of the byte that is already there, at the last address of the range. -/
def blanking : State := { small.withPeriph ⟨0x300, 16⟩ with a := 0 }.storeBytes 0 [0x14, 0x03, 0x0F]

theorem witness_PeripheralSeesEveryStore : ∃ t, blanking.Inv ∧ step blanking = .next t ∧
    blanking.params.periph.contains 0x30F = true ∧
    blanking.params.catalog.lookup (blanking.memRead blanking.pc.toNat) = some (.ofRow .stam 0x14 .empty) ∧
    (Mnemonic.instr (blanking.bytesFrom (blanking.pc.toNat + 1) 2) .stam).storesTo blanking 0x30F ∧
    peripheralWrites blanking = [(0x30F, 0)] :=
  ⟨_, inv_of_check (by decide), rfl, by decide, by decide, rfl, by decide⟩

/-- Histories of a step at the top of memory: an instruction of three bytes that wraps, and an unregistered opcode. -/
theorem witness_History :
    stepAccesses atTop = [.read 4999 0x40, .read 0 0x12, .read 1 0x34] ∧
    stepAccesses badAtTop = [.read 0xFFF 0xFF] ∧ (∃ t, step atTop = .next t) ∧
    atTop.params.catalog.lookup (Memory.read atTop.mem (atTop.pc.toNat % atTop.params.memSize)) =
      some (.ofRow .jmp 0x40 .empty) ∧
    badAtTop.params.catalog.lookup (Memory.read badAtTop.mem (badAtTop.pc.toNat % badAtTop.params.memSize)) = none ∧
    atTop.params.copyOverlap = .snapshot :=
  ⟨by decide, by decide, ⟨_, rfl⟩, by decide, by decide, rfl⟩

theorem test_peripheral_writes : peripheralWrites printing = [(0x300, 65)] := by decide

/-- A step that goes on, one that halts, and one that faults. -/
theorem witness_StepKeepsTheInvariant :
    (∃ t, incaState.Inv ∧ step incaState = .next t) ∧
    (∃ t, (State.reset.storeBytes 0 [0x01]).Inv ∧ step (State.reset.storeBytes 0 [0x01]) = .next t ∧
      t.status = .halted) ∧
    (∃ t, badAtTop.Inv ∧ step badAtTop = .next t ∧ t.status = .faulted) :=
  ⟨⟨_, inv_of_check (by decide), rfl⟩, ⟨_, inv_of_check (by decide), rfl, by decide⟩,
    ⟨_, inv_of_check (by decide), rfl, by decide⟩⟩

theorem witness_ResetMeetsTheInvariant : small.params.wf = true ∧ odd.params.wf = true := by decide

theorem witness_Load : ∃ t, small.Inv ∧ load [0x10, 0x07] small = .ok t := ⟨_, inv_of_check (by decide), rfl⟩

theorem witness_Reachable : ∃ s t, Reachable referenceParams s ∧ Reachable referenceParams t ∧ t.steps = 1 :=
  ⟨State.reset, _, .built (by decide),
    .stepped (.loaded (image := [0x10, 0x07]) (.built (s := State.reset) (by decide)) rfl) rfl, rfl⟩

/-- An instance with an image of an earlier load; an image as long as memory, one a byte longer, and a step. -/
def loadedBefore : State := small.storeBytes 0 [1, 2, 3]

theorem witness_LoadPlacesTheImage :
    (loadedBefore.Inv ∧ loadedBefore.status = .running ∧ loadedBefore.steps = 0 ∧
      (List.replicate 4096 (1 : Byte)).length ≤ loadedBefore.params.memSize) ∧
    loadedBefore.params.memSize < (List.replicate 4097 (1 : Byte)).length ∧ ∃ t, step incaState = .next t := by
  simp only [List.length_replicate]
  exact ⟨⟨inv_of_check (by decide), by decide, by decide, by decide⟩, by decide, _, rfl⟩

theorem witness_RunResumes : incaState.status = .running ∧ ∃ t, step incaState = .next t := ⟨rfl, _, rfl⟩

theorem witness_Observation_faulted : State.Failed { badAtTop with status := .faulted } := rfl

theorem witness_Observation : (observe busy).flags = (observe { busy with a := 0 }).flags ∧
    (observe busy).flags = 7 := by decide

/-- The stop signal raised before the second step. -/
theorem witness_StopSignalOnlyPauses :
    (run 9 [false, true] (State.reset.storeBytes 0 [0x38, 0x38])).ended = .stopSignal ∧
    (run 9 [false, true] (State.reset.storeBytes 0 [0x38, 0x38])).state.steps = 1 := by decide

theorem witness_EmptyMemory : small.params.catalog = Catalog.reference := rfl

theorem witness_assembles : Catalog.reference.wf = true ∧
    assemble Catalog.reference "HLT\nend:".toList = .ok [0x01] := by decide

/-- A label used before the line that defines it, and after it. -/
theorem witness_LabelOperand :
    isName ['b'] = true ∧
    assembleLines Catalog.reference
      ([.instruction Mnemonic.inca.name []] ++ .instruction Mnemonic.jmp.name [['b']] :: [.label ['b']]) =
      .ok [0x38, 0x40, 0x00, 0x04] ∧
    assembleLines Catalog.reference
      ([.instruction Mnemonic.inca.name []] ++ .label ['b'] :: [.instruction Mnemonic.jmp.name [['b']]]) =
      .ok [0x38, 0x40, 0x00, 0x01] := by decide

theorem witness_LabelOrder :
    assembleLines Catalog.reference ([] ++ .label ['a'] :: .label ['b'] :: [.instruction "JMP".toList [['b']]]) =
      .ok [0x40, 0x00, 0x00] := by decide

end Sys2Proof.Tests
end

/-! What the checks of construction say (00_scope.md R5, 30_encoding.md R65, R66), one `↔` per check, and that
`construct` runs all of them. -/

namespace Sys2Proof

/-! ## The checks on a catalog -/

/-- R66(a). -/
theorem Catalog.opcodesUnique_iff (c : Catalog) :
    c.opcodesUnique = true ↔ c.Pairwise fun d e => d.opcode ≠ e.opcode := by
  induction c with
  | nil => simp [Catalog.opcodesUnique]
  | cons d ds ih => simp [Catalog.opcodesUnique, ih, eq_comm (b := d.opcode)]

/-- R66(b). -/
theorem Catalog.mnemonicsUnique_iff (c : Catalog) :
    c.mnemonicsUnique = true ↔ c.Pairwise fun d e => d.mnemonic ≠ e.mnemonic := by
  induction c with
  | nil => simp [Catalog.mnemonicsUnique]
  | cons d ds ih => simp [Catalog.mnemonicsUnique, ih, eq_comm (b := d.mnemonic)]

/-- R66(c). -/
theorem Catalog.lengthsLegal_iff (c : Catalog) : c.lengthsLegal = true ↔ ∀ d ∈ c, d.length ≤ 2 := by
  simp [Catalog.lengthsLegal]

/-- The rules that give H: the one of 43_control.md R191 and those written out. -/
theorem Rule.givesHalt_iff (r : Rule) :
    r.givesHalt = true ↔ r = .reference .hlt ∨ ∃ body, r = .written body := by
  cases r with
  | reference m => simp [Rule.givesHalt]
  | written body => simp [Rule.givesHalt]

/-- R66(d). -/
theorem Catalog.haltDeclared_iff (c : Catalog) :
    c.haltDeclared = true ↔ ∀ d ∈ c, (d.flags.h = true ↔ d.mnemonic = Mnemonic.hlt.name) ∧
      (d.flags.h = true → d.rule = .reference .hlt ∨ ∃ body, d.rule = .written body) := by
  have declared (d : Descriptor) : (d.flags.h == (d.mnemonic == Mnemonic.hlt.name)) = true ↔
      (d.flags.h = true ↔ d.mnemonic = Mnemonic.hlt.name) := by
    rw [beq_iff_eq, Bool.eq_iff_iff, beq_iff_eq]
  have given (d : Descriptor) : (!d.flags.h || d.rule.givesHalt) = true ↔
      (d.flags.h = true → d.rule = .reference .hlt ∨ ∃ body, d.rule = .written body) := by
    rw [← Rule.givesHalt_iff]
    cases d.flags.h <;> simp
  simp only [Catalog.haltDeclared, List.all_eq_true, Bool.and_eq_true, declared, given]

/-- R65 for one descriptor: a written rule fits any length and any flags. -/
theorem Descriptor.ruleFits_iff (d : Descriptor) :
    d.ruleFits = true ↔ ∀ m, d.rule = .reference m →
      d.length = m.operandLength ∧ d.flags.subset m.computedFlags = true := by
  unfold Descriptor.ruleFits
  cases d.rule with
  | reference m => simp
  | written body => simp

theorem Catalog.rulesFit_iff (c : Catalog) :
    c.rulesFit = true ↔ ∀ d ∈ c, ∀ m, d.rule = .reference m →
      d.length = m.operandLength ∧ d.flags.subset m.computedFlags = true := by
  simp only [Catalog.rulesFit, List.all_eq_true, Descriptor.ruleFits_iff]

theorem Catalog.wf_iff (c : Catalog) :
    c.wf = true ↔ c.opcodesUnique = true ∧ c.mnemonicsUnique = true ∧ c.lengthsLegal = true ∧
      c.haltDeclared = true ∧ c.rulesFit = true := by
  simp only [Catalog.wf, Bool.and_eq_true, and_assoc]

/-- The checks of a well-formed catalog written out: one condition on each pair of descriptors, one on each
descriptor. -/
theorem Catalog.wf_iff_forall (c : Catalog) :
    c.wf = true ↔
      (c.Pairwise fun d e => d.opcode ≠ e.opcode ∧ d.mnemonic ≠ e.mnemonic) ∧
      ∀ d ∈ c, d.length ≤ 2 ∧ (d.flags.h = true ↔ d.mnemonic = Mnemonic.hlt.name) ∧
        (d.flags.h = true → d.rule = .reference .hlt ∨ ∃ body, d.rule = .written body) ∧
        ∀ m, d.rule = .reference m → d.length = m.operandLength ∧ d.flags.subset m.computedFlags = true := by
  rw [Catalog.wf_iff, Catalog.opcodesUnique_iff, Catalog.mnemonicsUnique_iff, Catalog.lengthsLegal_iff,
    Catalog.haltDeclared_iff, Catalog.rulesFit_iff, List.pairwise_and_iff]
  simp only [forall_and, and_assoc]

/-! ## The parameters -/

/-- R5. -/
theorem Params.memSizeInRange_iff (p : Params) :
    p.memSizeInRange = true ↔ 4096 ≤ p.memSize ∧ p.memSize ≤ 65536 := by
  simp [Params.memSizeInRange]

theorem Params.wf_iff (p : Params) : p.wf = true ↔ p.memSizeInRange = true ∧ p.catalog.wf = true := by
  simp [Params.wf]

end Sys2Proof

namespace Sys2Proof.Machine

/-- Construction looks for every fault that well-formedness excludes, and for no other. -/
theorem catalogProblem_eq_none_iff (c : Catalog) : catalogProblem c = none ↔ c.wf = true := by
  simp [catalogProblem, Catalog.wf_iff, ite_eq_iff]

/-- 70_reset_and_hazards.md R270. -/
theorem construct_eq_ok_iff (p : Params) (s : State) :
    construct p = .ok s ↔ p.wf = true ∧ s = State.init p := by
  rw [Params.wf_iff, ← catalogProblem_eq_none_iff]
  unfold construct
  cases catalogProblem p.catalog with
  | some e => simp
  | none => cases p.memSizeInRange <;> simp [eq_comm]

/-- Settles O9, from what construction answers (`construct_eq_ok_iff`) and what a well-formed catalog is
(`Catalog.wf_iff_forall`). -/
theorem constructExactlyWellFormed : Obligations.ConstructExactlyWellFormed := by
  refine ⟨construct_eq_ok_iff, fun p => ?_⟩
  rw [Params.wf_iff, Params.memSizeInRange_iff, Catalog.wf_iff_forall]

end Sys2Proof.Machine

/-! What an instruction keeps: its body proved once against the updates it may make, and from that the registers, PC, the
flags, the halt and the invariant (10_state.md). -/

namespace Sys2Proof.Machine

/-! ## The body of an instruction -/

/-- What every update an instruction may make keeps, the body of the instruction keeps: the writes to the registers it is
listed for (10_state.md R23), those to PC for a jump (R25), and those to memory. Beside it, the instruction yields H as
true if it is HLT, and no value for H otherwise (10_state.md R28). -/
theorem exec_body_induct {P : State → Prop} (i : Instr) (s : State)
    (ha : i.mnemonic.writesA = true → ∀ t v, P t → P (t.setA v))
    (hx : i.mnemonic.writesX = true → ∀ t v, P t → P (t.setX v))
    (hy : i.mnemonic.writesY = true → ∀ t v, P t → P (t.setY v))
    (hpc : i.mnemonic.isJump = true → ∀ t target, P t → P (t.setPc target))
    (hpcInt : i.mnemonic.isJump = true → ∀ t target, P t → P (t.setPcInt target))
    (hw : ∀ t addr v, P t → P (t.memWrite addr v)) (h : P (s.advance i.mnemonic)) :
    ∃ (b : State) (v : FlagValues), exec i s = finish i.mnemonic s b v ∧ P b ∧
      v.h = if i.mnemonic = .hlt then some true else none := by
  have hif : i.mnemonic.isJump = true → ∀ cond addr16, P ((s.advance i.mnemonic).jumpIf cond addr16) := by
    intro hj cond addr16
    cases cond
    · exact h
    · exact hpc hj _ _ h
  cases i
  case hlt | bcmp => exact ⟨_, _, rfl, h, rfl⟩
  case ldai | ldam | ldaxy | ldao | txa | tya | addx | addy | addi | addm | subx | suby | subi | subm | inca | deca
    | shla | shra => exact ⟨_, _, rfl, ha rfl _ _ h, rfl⟩
  case ldxi | ldxm | tax | incx | decx => exact ⟨_, _, rfl, hx rfl _ _ h, rfl⟩
  case ldyi | ldym | tay | incy | decy => exact ⟨_, _, rfl, hy rfl _ _ h, rfl⟩
  case stam | staxy | stao | stxm | stym => exact ⟨_, _, rfl, hw _ _ _ h, rfl⟩
  case jmp | jrf => exact ⟨_, _, rfl, hpc rfl _ _ h, rfl⟩
  case jrb => exact ⟨_, _, rfl, hpcInt rfl _ _ h, rfl⟩
  case jz | jnz | jn | jnn | jo | jno => exact ⟨_, _, rfl, hif rfl _ _, rfl⟩
  case fill => exact ⟨_, _, rfl, fillRun_induct hw _ _ _ _ _ h, rfl⟩
  case copy => exact ⟨_, _, rfl, copyRun_induct hw _ _ _ _ _ h, rfl⟩

/-- A fetched instruction is run by its descriptor's rule, which is one of the 46 or written out (30_encoding.md R65). -/
theorem execFetched_cases (fetched : Fetched) (s : State) :
    (∃ m, fetched.descriptor.rule = .reference m ∧ execFetched fetched s = exec (m.instr fetched.operands) s) ∨
    ∃ body, fetched.descriptor.rule = .written body ∧ execFetched fetched s = execWritten fetched body s := by
  cases hrule : fetched.descriptor.rule with
  | reference m => exact .inl ⟨m, rfl, by simp only [execFetched, hrule]⟩
  | written body => exact .inr ⟨body, rfl, by simp only [execFetched, hrule]⟩

/-- A step from an opcode that looks up a descriptor is that of the instruction fetched, in a Running core. -/
theorem step_of_lookup {s t : State} {d : Descriptor}
    (hd : s.params.catalog.lookup (s.memRead s.pc.toNat) = some d) (h : step s = .next t) :
    s.status = .running ∧ execFetched ⟨d, s.bytesFrom (s.pc.toNat + 1) d.length⟩ s = .next t := by
  rcases step_cases s with ⟨hs, e, he, hstep⟩ | ⟨-, hnone, -⟩ | ⟨-, hstep⟩ | ⟨-, hstep⟩
  · obtain rfl : e = d := Option.some.inj (he.symm.trans hd)
    exact ⟨hs, hstep.symm.trans h⟩
  · simp [hd] at hnone
  · simp [hstep] at h
  · simp [hstep] at h

/-! ## The invariant -/

/-- What the invariant says of PC and memory, which the statements of a rule keep one by one (10_state.md R24,
20_memory.md R40; log 7). -/
structure State.InBounds (s : State) : Prop where
  memSize_pos : 0 < s.params.memSize
  memSize_le : s.params.memSize ≤ 65536
  pc_lt : s.pc.toNat < s.params.memSize
  mem_wf : Memory.wf s.mem = true
  mem_within : Memory.within s.params.memSize s.mem = true

theorem State.Inv.inBounds {s : State} (h : s.Inv) : s.InBounds := by
  obtain ⟨hlo, hhi⟩ := h.memSize_bounds
  exact ⟨by omega, hhi, h.pc_lt, h.mem_wf, h.mem_within⟩

/-- The bounds depend on the parameters, PC and memory alone. -/
theorem State.InBounds.congr {s t : State} (h : s.InBounds) (hp : t.params = s.params) (hpc : t.pc = s.pc)
    (hm : t.mem = s.mem) : t.InBounds := by
  obtain ⟨hpos, hle, hlt, hwf, hin⟩ := h
  constructor <;> simpa only [hp, hpc, hm]

theorem State.InBounds.setPc {s : State} (h : s.InBounds) (target : Nat) : (s.setPc target).InBounds where
  memSize_pos := h.memSize_pos
  memSize_le := h.memSize_le
  pc_lt := by
    rw [State.setPc_pc, pc_toNat_of_mod h.memSize_pos h.memSize_le]
    exact Nat.mod_lt _ h.memSize_pos
  mem_wf := h.mem_wf
  mem_within := h.mem_within

/-- A negative target reduced modulo `MEM_SIZE` is a target in range (00_scope.md R11). -/
theorem State.InBounds.setPcInt {s : State} (h : s.InBounds) (target : Int) : (s.setPcInt target).InBounds := by
  have hpos := h.memSize_pos
  have hlt : (target % (s.params.memSize : Int)).toNat < s.params.memSize := by
    have := Int.emod_nonneg target (by omega : (s.params.memSize : Int) ≠ 0)
    have := Int.emod_lt_of_pos target (by omega : 0 < (s.params.memSize : Int))
    omega
  refine (h.setPc (target % (s.params.memSize : Int)).toNat).congr rfl ?_ rfl
  rw [State.setPcInt_pc, State.setPc_pc, Nat.mod_eq_of_lt hlt]

theorem State.InBounds.memWrite {s : State} (h : s.InBounds) (addr : Nat) (v : Byte) : (s.memWrite addr v).InBounds where
  memSize_pos := h.memSize_pos
  memSize_le := h.memSize_le
  pc_lt := h.pc_lt
  mem_wf := State.memWrite_wf h.mem_wf addr v
  mem_within := State.memWrite_within h.mem_within h.memSize_pos addr v

theorem State.InBounds.setRuleRegister {s : State} (h : s.InBounds) (value : Nat) (r : RuleRegister) :
    (s.setRuleRegister value r).InBounds := by
  cases r with
  | a | x | y => exact h.congr rfl rfl rfl
  | pc => exact h.setPc value

/-- Every instruction of the table keeps PC and memory in bounds. -/
theorem exec_inBounds {i : Instr} {s t : State} (hs : s.InBounds) (h : exec i s = .next t) : t.InBounds := by
  obtain ⟨b, v, hb, hin, -⟩ := exec_body_induct (P := State.InBounds) i s
    (fun _ _ _ hu => hu.congr rfl rfl rfl) (fun _ _ _ hu => hu.congr rfl rfl rfl) (fun _ _ _ hu => hu.congr rfl rfl rfl)
    (fun _ _ target hu => hu.setPc target) (fun _ _ target hu => hu.setPcInt target)
    (fun _ addr v hu => hu.memWrite addr v) (hs.setPc _)
  obtain rfl := finish_next (hb.symm.trans h)
  exact hin.congr rfl rfl rfl

/-- Every written rule keeps PC and memory in bounds. -/
theorem execWritten_inBounds {fetched : Fetched} {body : RuleStmt} {s t : State} (hs : s.InBounds)
    (h : execWritten fetched body s = .next t) : t.InBounds := by
  have hin : (body.run (RuleFrame.start fetched s)).state.InBounds :=
    RuleStmt.run_induct (P := fun f => f.state.InBounds) (fun _ _ _ hf => hf)
      (fun _ r v hf => hf.setRuleRegister v r) (fun _ _ _ hf => hf.congr rfl rfl rfl) (fun _ _ _ hf => hf)
      (fun _ addr v hf => hf.memWrite addr v) body _ (hs.setPc _)
  unfold execWritten at h
  rw [complete_eq] at h
  cases h
  exact hin.congr rfl rfl rfl

theorem execFetched_inBounds {fetched : Fetched} {s t : State} (hs : s.InBounds)
    (h : execFetched fetched s = .next t) : t.InBounds := by
  rcases execFetched_cases fetched s with ⟨m, -, hexec⟩ | ⟨body, -, hexec⟩
  · exact exec_inBounds hs (hexec.symm.trans h)
  · exact execWritten_inBounds hs (hexec.symm.trans h)

/-- H is false in a Running core (10_state.md R31). -/
theorem State.Inv.h_of_running {s : State} (hs : s.Inv) (hr : s.status = .running) : s.flags.h = false := by
  simpa [hr] using hs.halted_iff

/-- After the halt check of a Running core the status is Halted exactly when H is set, and never Faulted
(30_encoding.md R74). -/
theorem halted_iff_of_haltCheck {s t : State} (hr : s.status = .running)
    (h : t.status = if t.flags.h then .halted else s.status) :
    (t.status = .halted ↔ t.flags.h = true) ∧ t.status ≠ .faulted := by
  rw [h, hr]
  cases t.flags.h <;> simp

/-- A fetched instruction keeps the invariant in a Running core. -/
theorem execFetched_inv {fetched : Fetched} {s t : State} (hs : s.Inv) (hr : s.status = .running)
    (hd : s.descriptorAtPc = some fetched.descriptor) (h : execFetched fetched s = .next t) : t.Inv := by
  obtain ⟨hp, -, -, hstatus⟩ := execFetched_fields hd h
  obtain ⟨-, -, hpc, hwf, hin⟩ := execFetched_inBounds hs.inBounds h
  obtain ⟨hhalt, hfault⟩ := halted_iff_of_haltCheck hr hstatus
  exact ⟨hp ▸ hs.params_wf, hpc, hwf, hin, hhalt, fun hf => absurd hf hfault⟩

/-- UnknownOpcode keeps the invariant: nothing but the status changes, and PC stays at the byte whose lookup failed
(60_exceptions.md R241). -/
theorem raiseUnknownOpcode_inv {s : State} (hs : s.Inv) (hr : s.status = .running)
    (hd : s.params.catalog.lookup (s.memRead s.pc.toNat) = none) : (raiseUnknownOpcode s).Inv where
  params_wf := hs.params_wf
  pc_lt := hs.pc_lt
  mem_wf := hs.mem_wf
  mem_within := hs.mem_within
  halted_iff := by simp [hs.h_of_running hr]
  faulted_at := fun _ => hd

/-- Settles O47, one case for each thing a step can do (`step_cases`). -/
theorem stepKeepsTheInvariant : Obligations.StepKeepsTheInvariant := by
  intro s t hs h
  rcases step_cases s with ⟨hr, d, hd, hstep⟩ | ⟨hr, hd, hstep⟩ | ⟨-, hstep⟩ | ⟨-, hstep⟩
  · exact execFetched_inv (fetched := ⟨d, _⟩) hs hr hd (hstep.symm.trans h)
  · cases hstep.symm.trans h
    exact raiseUnknownOpcode_inv hs hr hd
  · simp [hstep] at h
  · simp [hstep] at h

/-- The reset state of well-formed parameters meets the invariant (10_state.md R37). -/
theorem State.init_inv {p : Params} (hp : p.wf = true) : (State.init p).Inv where
  params_wf := hp
  pc_lt := by
    obtain ⟨hlo, -⟩ := (Params.memSizeInRange_iff p).1 ((Params.wf_iff p).1 hp).1
    exact Nat.lt_of_lt_of_le (by decide : (0 : Addr16).toNat < 4096) hlo
  mem_wf := rfl
  mem_within := rfl
  halted_iff := by simp [Flags.reset]
  faulted_at := by simp

/-- Settles O48, from the invariant of every reset state (`State.init_inv`); the reference parameters are checked by
evaluation. -/
theorem resetMeetsTheInvariant : Obligations.ResetMeetsTheInvariant :=
  ⟨fun _ hp => State.init_inv hp, State.init_inv (by decide : referenceParams.wf = true)⟩

/-! ## Registers and PC -/

/-- What no update that an instruction may make touches, and no commit, count or halt check, is after the instruction as
it was once PC had been advanced past it. -/
theorem exec_keeps {α : Type} (g : State → α) {i : Instr} {s t : State} (h : exec i s = .next t)
    (ha : i.mnemonic.writesA = true → ∀ u v, g (u.setA v) = g u)
    (hx : i.mnemonic.writesX = true → ∀ u v, g (u.setX v) = g u)
    (hy : i.mnemonic.writesY = true → ∀ u v, g (u.setY v) = g u)
    (hpc : i.mnemonic.isJump = true → ∀ u target, g (u.setPc target) = g u)
    (hpcInt : i.mnemonic.isJump = true → ∀ u target, g (u.setPcInt target) = g u)
    (hw : ∀ u addr v, g (u.memWrite addr v) = g u)
    (hend : ∀ u f n st, g { u with flags := f, steps := n, status := st } = g u) :
    g t = g (s.advance i.mnemonic) := by
  obtain ⟨b, v, hb, hkeep, -⟩ := exec_body_induct (P := fun u => g u = g (s.advance i.mnemonic)) i s
    (fun hm u v hu => (ha hm u v).trans hu) (fun hm u v hu => (hx hm u v).trans hu)
    (fun hm u v hu => (hy hm u v).trans hu) (fun hm u target hu => (hpc hm u target).trans hu)
    (fun hm u target hu => (hpcInt hm u target).trans hu) (fun u addr v hu => (hw u addr v).trans hu) rfl
  obtain rfl := finish_next (hb.symm.trans h)
  exact (hend b _ _ _).trans hkeep

theorem exec_a_of_not_writer {i : Instr} {s t : State} (h : exec i s = .next t) (hno : i.mnemonic.writesA = false) :
    t.a = s.a :=
  exec_keeps State.a h (by simp [hno]) (fun _ _ _ => rfl) (fun _ _ _ => rfl) (fun _ _ _ => rfl) (fun _ _ _ => rfl)
    (fun _ _ _ => rfl) (fun _ _ _ _ => rfl)

theorem exec_x_of_not_writer {i : Instr} {s t : State} (h : exec i s = .next t) (hno : i.mnemonic.writesX = false) :
    t.x = s.x :=
  exec_keeps State.x h (fun _ _ _ => rfl) (by simp [hno]) (fun _ _ _ => rfl) (fun _ _ _ => rfl) (fun _ _ _ => rfl)
    (fun _ _ _ => rfl) (fun _ _ _ _ => rfl)

theorem exec_y_of_not_writer {i : Instr} {s t : State} (h : exec i s = .next t) (hno : i.mnemonic.writesY = false) :
    t.y = s.y :=
  exec_keeps State.y h (fun _ _ _ => rfl) (fun _ _ _ => rfl) (by simp [hno]) (fun _ _ _ => rfl) (fun _ _ _ => rfl)
    (fun _ _ _ => rfl) (fun _ _ _ _ => rfl)

/-- An instruction that is no jump leaves PC as it was advanced before its body (10_state.md R25). -/
theorem exec_pc_of_not_jump {i : Instr} {s t : State} (h : exec i s = .next t) (hno : i.mnemonic.isJump = false) :
    t.pc = (s.advance i.mnemonic).pc :=
  exec_keeps State.pc h (fun _ _ _ => rfl) (fun _ _ _ => rfl) (fun _ _ _ => rfl) (by simp [hno]) (by simp [hno])
    (fun _ _ _ => rfl) (fun _ _ _ _ => rfl)

/-- Settles O36, register by register: an instruction not listed as a register's writer makes no update that touches it
(`exec_keeps`). -/
theorem onlyWritersChangeRegisters : Obligations.OnlyWritersChangeRegisters :=
  fun _ _ _ h => ⟨exec_a_of_not_writer h, exec_x_of_not_writer h, exec_y_of_not_writer h⟩

/-- Settles O39: PC stays as advanced (`exec_pc_of_not_jump`), and the address advanced to fits its 16 bits. -/
theorem onlyJumpsLeaveTheAdvancedPc : Obligations.OnlyJumpsLeaveTheAdvancedPc := by
  intro i s t hs h hj
  rw [exec_pc_of_not_jump h hj, State.advance_pc]
  exact pc_toNat_of_mod hs.inBounds.memSize_pos hs.inBounds.memSize_le

/-! ## Flags -/

/-- The commit keeps every flag that is not declared (30_encoding.md R73). -/
theorem Flags.commit_undeclared (d : FlagSet) (v : FlagValues) (f : Flags) :
    (d.z = false → (f.commit d v).z = f.z) ∧ (d.n = false → (f.commit d v).n = f.n) ∧
    (d.o = false → (f.commit d v).o = f.o) ∧ (d.h = false → (f.commit d v).h = f.h) := by
  refine ⟨?_, ?_, ?_, ?_⟩ <;> intro hd <;> simp [hd]

/-- Settles O37: the flags after an instruction and after a step are a commit of the flags declared. -/
theorem undeclaredFlagsAreKept : Obligations.UndeclaredFlagsAreKept := by
  constructor
  · intro i s t h
    obtain ⟨-, ⟨v, hv⟩, -, -⟩ := exec_fields h
    rw [hv]
    exact Flags.commit_undeclared _ v s.flags
  · intro s t d hd h
    obtain ⟨-, hexec⟩ := step_of_lookup hd h
    obtain ⟨-, ⟨v, hv⟩, -, -⟩ := execFetched_fields (fetched := ⟨d, _⟩) hd hexec
    rw [hv]
    exact Flags.commit_undeclared _ v s.flags

theorem Mnemonic.referenceFlags_z (m : Mnemonic) : (Mnemonic.referenceFlags m).z = m.writesZ := by cases m <;> rfl
theorem Mnemonic.referenceFlags_n (m : Mnemonic) : (Mnemonic.referenceFlags m).n = m.writesN := by cases m <;> rfl
theorem Mnemonic.referenceFlags_o (m : Mnemonic) : (Mnemonic.referenceFlags m).o = m.writesO := by cases m <;> rfl
theorem Mnemonic.referenceFlags_h (m : Mnemonic) : (Mnemonic.referenceFlags m).h = decide (m = .hlt) := by cases m <;> rfl

/-- Settles O38: the flag columns of 30_encoding.md R68 are the writers of 10_state.md R28, and undeclared flags are
kept (`undeclaredFlagsAreKept`). -/
theorem referenceFlagWriters : Obligations.ReferenceFlagWriters := by
  intro i s t href h
  have hkept := undeclaredFlagsAreKept.1 i s t h
  rw [State.declared_reference href, Mnemonic.referenceFlags_z, Mnemonic.referenceFlags_n,
    Mnemonic.referenceFlags_o, Mnemonic.referenceFlags_h] at hkept
  simpa only [decide_eq_false_iff_not] using hkept

/-! ## The halt -/

/-- HLT is the one instruction of its mnemonic. -/
theorem Instr.mnemonic_eq_hlt_iff (i : Instr) : i.mnemonic = .hlt ↔ i = .hlt := by
  cases i <;> simp [Instr.mnemonic]

/-- After an instruction of the table H is true exactly when it was, or the instruction is HLT with H declared. -/
theorem exec_h_iff {i : Instr} {s t : State} (h : exec i s = .next t) :
    t.flags.h = true ↔ (i = .hlt ∧ (s.declared .hlt).h = true) ∨ s.flags.h = true := by
  obtain ⟨b, v, hb, -, hv⟩ := exec_body_induct (P := fun _ => True) i s (fun _ _ _ hu => hu) (fun _ _ _ hu => hu)
    (fun _ _ _ hu => hu) (fun _ _ _ hu => hu) (fun _ _ _ hu => hu) (fun _ _ _ hu => hu) trivial
  obtain rfl := finish_next (hb.symm.trans h)
  rw [Flags.commit_h, hv]
  by_cases hi : i = .hlt
  · subst hi
    cases hd : (s.declared .hlt).h <;> simp [Instr.mnemonic, hd]
  · simp [hi, Instr.mnemonic_eq_hlt_iff]

/-- After a written rule H is true exactly when it was, or the descriptor declares it (log 2). -/
theorem execWritten_h_iff {fetched : Fetched} {body : RuleStmt} {s t : State}
    (h : execWritten fetched body s = .next t) :
    t.flags.h = true ↔ fetched.descriptor.flags.h = true ∨ s.flags.h = true := by
  obtain ⟨-, ⟨v, hv, hh⟩, -, -⟩ := execWritten_fields h
  rw [hv, Flags.commit_h, hh]
  cases fetched.descriptor.flags.h <;> simp

/-- In a well-formed catalog a descriptor declares H exactly when it is HLT, and then its rule gives H
(30_encoding.md R66(d)). -/
theorem State.Inv.halt_descriptor {s : State} (hs : s.Inv) {d : Descriptor} (hd : s.descriptorAtPc = some d) :
    (d.flags.h = true ↔ d.mnemonic = Mnemonic.hlt.name) ∧
      (d.flags.h = true → d.rule = .reference .hlt ∨ ∃ body, d.rule = .written body) := by
  obtain ⟨-, hcat⟩ := (Params.wf_iff s.params).1 hs.params_wf
  obtain ⟨-, -, -, hhalt, -⟩ := (Catalog.wf_iff s.params.catalog).1 hcat
  exact (Catalog.haltDeclared_iff s.params.catalog).1 hhalt d (Catalog.lookup_mem _ _ _ hd).1

/-- A fetched instruction sets H, in a Running core, exactly when its descriptor declares H: a rule of the table under
such a descriptor is HLT's, and a written rule gives H by its form (30_encoding.md R66(d); log 2). -/
theorem execFetched_h_iff {fetched : Fetched} {s t : State} (hs : s.Inv) (hr : s.status = .running)
    (hd : s.descriptorAtPc = some fetched.descriptor) (h : execFetched fetched s = .next t) :
    t.flags.h = true ↔ fetched.descriptor.flags.h = true := by
  rcases execFetched_cases fetched s with ⟨m, hm, hexec⟩ | ⟨body, -, hexec⟩
  · rw [exec_h_iff (hexec.symm.trans h), hs.h_of_running hr, ← Instr.mnemonic_eq_hlt_iff, Mnemonic.instr_mnemonic]
    have hdecl : s.declared m = fetched.descriptor.flags := State.declared_of_lookup hd hm
    have hhlt : fetched.descriptor.flags.h = true → m = .hlt := by
      simpa [hm] using (hs.halt_descriptor hd).2
    constructor
    · rintro (⟨rfl, hh⟩ | hh)
      · rwa [← hdecl]
      · simp at hh
    · intro hh
      obtain rfl := hhlt hh
      exact .inl ⟨rfl, by rwa [hdecl]⟩
  · simpa [hs.h_of_running hr] using execWritten_h_iff (hexec.symm.trans h)

/-- Settles O40: of a step by the descriptor that is fetched (`execFetched_h_iff`), of an instruction of the table by what
it does to H (`exec_h_iff`), and the status follows H by the halt check. -/
theorem onlyHltHalts : Obligations.OnlyHltHalts := by
  refine ⟨fun s t d hs hr hd h => ?_, fun i s t hs hr h => ?_, fun s href => ?_⟩
  · obtain ⟨-, hexec⟩ := step_of_lookup hd h
    obtain ⟨-, -, -, hstatus⟩ := execFetched_fields (fetched := ⟨d, _⟩) hd hexec
    have hh : t.flags.h = true ↔ d.mnemonic = Mnemonic.hlt.name :=
      (execFetched_h_iff (fetched := ⟨d, _⟩) hs hr hd hexec).trans (hs.halt_descriptor hd).1
    exact ⟨(halted_iff_of_haltCheck hr hstatus).1.trans hh, hh⟩
  · obtain ⟨-, -, -, hstatus⟩ := exec_fields h
    have hh : t.flags.h = true ↔ i = .hlt ∧ (s.declared .hlt).h = true := by
      simpa [hs.h_of_running hr] using exec_h_iff h
    exact ⟨(halted_iff_of_haltCheck hr hstatus).1.trans hh, hh⟩
  · rw [State.declared_reference href, Mnemonic.referenceFlags_h]
    rfl

/-! ## Reset and observation -/

/-- Settles O51, from the fields of the reset state (`State.init`) and the reading of empty memory. -/
theorem resetValues : Obligations.ResetValues := by
  intro s
  exact ⟨rfl, rfl, rfl, rfl, rfl, rfl, rfl, rfl, Memory.read_nil, rfl, rfl, rfl, rfl⟩

/-- The four flags that a packed value stands for: its binary digits (10_state.md R30). -/
def Flags.unpacked (n : Nat) : Flags := ⟨n.testBit 0, n.testBit 1, n.testBit 2, n.testBit 3⟩

theorem Flags.unpacked_packed : Function.LeftInverse Flags.unpacked Flags.packed := by
  rintro ⟨z, n, o, h⟩
  revert z n o h
  decide

theorem Flags.packed_eq (f : Flags) :
    f.packed = (if f.z then 1 else 0) + (if f.n then 2 else 0) + (if f.o then 4 else 0) + (if f.h then 8 else 0) := by
  obtain ⟨z, n, o, h⟩ := f
  revert z n o h
  decide

/-- The fault record exists in Faulted, and there alone (10_state.md R33). -/
theorem State.faultRecord_eq (s : State) :
    s.faultRecord = if s.status = .faulted then some ⟨1, s.memRead s.pc.toNat, s.pc⟩ else none := by
  unfold State.faultRecord
  cases s.status <;> rfl

/-- Settles O56, field by field; the packed flags by `Flags.packed_eq` and `Flags.unpacked_packed`, the fault record by
`State.faultRecord_eq`. -/
theorem observationShowsTheState : Obligations.ObservationShowsTheState := by
  intro s t
  refine ⟨rfl, rfl, rfl, rfl, rfl, Flags.packed_eq s.flags, fun h => Flags.unpacked_packed.injective h, ?_, ?_, ?_, ?_⟩
  · simp only [observe]
    cases s.status <;> rfl
  · simp [observe, State.Ended]
  · simp [observe, State.Failed, State.faultRecord_eq]
  · intro hf
    have hf' : s.status = .faulted := hf
    simp [observe, State.faultRecord_eq, hf', State.memRead, State.wrap]

end Sys2Proof.Machine

/-! Memory (20_memory.md): its bytes and its canonical form, the accesses that an instruction makes in order, and from
those which bytes a step changes, what the peripheral observes, and that the core does not look at it. -/

namespace Sys2Proof

/-! ## Two bytes of a 16-bit value -/

theorem be16_toNat (hi lo : Byte) : (be16 hi lo).toNat = hi.toNat * 256 + lo.toNat := by
  have hlo : lo.toNat < 2 ^ 8 := lo.isLt
  rw [be16, BitVec.toNat_append, ← Nat.shiftLeft_add_eq_or_of_lt hlo, Nat.shiftLeft_eq]

theorem hiByte_toNat (v : Addr16) : (hiByte v).toNat = v.toNat / 256 := by
  have hv := v.isLt
  rw [hiByte, BitVec.extractLsb'_toNat, Nat.shiftRight_eq_div_pow]
  omega

theorem loByte_toNat (v : Addr16) : (loByte v).toNat = v.toNat % 256 := by
  rw [loByte, BitVec.extractLsb'_toNat, Nat.shiftRight_zero]

/-- Settles O5, from the numbers that the value and its bytes stand for. -/
theorem operandIsBigEndian : Obligations.OperandIsBigEndian := by
  refine ⟨be16_toNat, fun v => ⟨?_, hiByte_toNat v, loByte_toNat v⟩⟩
  apply BitVec.eq_of_toNat_eq
  rw [be16_toNat, hiByte_toNat, loByte_toNat]
  omega

end Sys2Proof

namespace Sys2Proof.Machine

/-! ## The canonical form -/

/-- Settles O42, from the reads of a written memory (`Memory.read_write`) at the reduced addresses. -/
theorem readAfterWrite : Obligations.ReadAfterWrite :=
  fun _ _ _ v h => Memory.read_write h _ _ v

theorem Memory.wfFrom_cons_iff {lo b : Nat} {v : Byte} {m : Memory} :
    Memory.wfFrom lo ((b, v) :: m) = true ↔ lo ≤ b ∧ v ≠ 0#8 ∧ Memory.wfFrom (b + 1) m = true := by
  simp [Memory.wfFrom, and_assoc]

theorem Memory.read_cons (b : Nat) (v : Byte) (m : Memory) (addr : Nat) :
    Memory.read ((b, v) :: m) addr = if b = addr then v else Memory.read m addr := rfl

/-- At the address of its first cell a canonical memory reads other than one that lists higher addresses only: its byte
there is not 0. -/
theorem Memory.read_first_ne {lo b : Nat} {v : Byte} {m m' : Memory}
    (h : Memory.wfFrom lo ((b, v) :: m) = true) (h' : Memory.wfFrom (b + 1) m' = true) :
    Memory.read ((b, v) :: m) b ≠ Memory.read m' b := by
  obtain ⟨-, hv, -⟩ := Memory.wfFrom_cons_iff.1 h
  rw [Memory.read_below m' (b + 1) b h' (Nat.lt_succ_self b), Memory.read_cons, if_pos rfl]
  exact hv

/-- Two memories in canonical form that read alike are equal: their first cells agree, since neither can stand below the
other, and then the rests read alike. -/
theorem Memory.wfFrom_ext : ∀ (m m' : Memory) (lo lo' : Nat), Memory.wfFrom lo m = true → Memory.wfFrom lo' m' = true →
    (∀ addr, Memory.read m addr = Memory.read m' addr) → m = m'
  | [], [], _, _, _, _, _ => rfl
  | [], (b, v) :: m', _, _, _, h', hread => absurd (hread b).symm (Memory.read_first_ne h' rfl)
  | (b, v) :: m, [], _, _, h, _, hread => absurd (hread b) (Memory.read_first_ne h rfl)
  | (b, v) :: m, (b', v') :: m', lo, lo', h, h', hread => by
    obtain ⟨-, hv, hm⟩ := Memory.wfFrom_cons_iff.1 h
    obtain ⟨-, hv', hm'⟩ := Memory.wfFrom_cons_iff.1 h'
    have hb : b = b' := by
      rcases lt_trichotomy b b' with hlt | heq | hgt
      · exact absurd (hread b) (Memory.read_first_ne h (Memory.wfFrom_cons_iff.2 ⟨hlt, hv', hm'⟩))
      · exact heq
      · exact absurd (hread b').symm (Memory.read_first_ne h' (Memory.wfFrom_cons_iff.2 ⟨hgt, hv, hm⟩))
    subst hb
    have hbyte : v = v' := by simpa [Memory.read_cons] using hread b
    have hrest (addr : Nat) : Memory.read m addr = Memory.read m' addr := by
      by_cases ha : b = addr
      · subst ha
        rw [Memory.read_below m _ b hm (Nat.lt_succ_self b), Memory.read_below m' _ b hm' (Nat.lt_succ_self b)]
      · simpa [Memory.read_cons, ha] using hread addr
    rw [hbyte, Memory.wfFrom_ext m m' _ _ hm hm' hrest]

/-- Settles O43, by comparing the lists cell by cell (`Memory.wfFrom_ext`). -/
theorem canonicalMemoriesThatReadAlikeAreEqual : Obligations.CanonicalMemoriesThatReadAlikeAreEqual :=
  fun m m' h h' => Memory.wfFrom_ext m m' 0 0 h h'

/-! ## Histories in general -/

/-- A history replays in two parts. -/
theorem replay_append (first second : List Access) (m : Memory) :
    replay (first ++ second) m = (replay first m).bind (replay second) := by
  induction first generalizing m with
  | nil => rfl
  | cons acc rest ih =>
    cases acc with
    | read addr v =>
      simp only [List.cons_append, replay, ih]
      split <;> rfl
    | write addr v => exact ih _

/-- A read access replays on the memory it was made in. -/
theorem replay_readAccess_cons (s : State) (addr : Nat) (rest : List Access) :
    replay (s.readAccess addr :: rest) s.mem = replay rest s.mem := by
  simp [State.readAccess, State.memRead, replay]

/-- A write access replays as `MemWrite`, in every state with the same parameters. -/
theorem replay_writeAccess_cons {s u : State} (hp : u.params = s.params) (addr : Nat) (v : Byte)
    (rest : List Access) : replay (s.writeAccess addr v :: rest) u.mem = replay rest (u.memWrite addr v).mem := by
  simp [State.writeAccess, State.wrap, replay, hp]

/-- A history writes to an address. -/
def WritesTo (history : List Access) (addr : Nat) : Prop := ∃ v, Access.write addr v ∈ history

@[simp] theorem writesTo_nil (addr : Nat) : WritesTo [] addr ↔ False := by simp [WritesTo]

@[simp] theorem writesTo_readAccess_cons (s : State) (addr' : Nat) (rest : List Access) (addr : Nat) :
    WritesTo (s.readAccess addr' :: rest) addr ↔ WritesTo rest addr := by simp [WritesTo, State.readAccess]

@[simp] theorem writesTo_writeAccess_cons (s : State) (addr' : Nat) (v : Byte) (rest : List Access) (addr : Nat) :
    WritesTo (s.writeAccess addr' v :: rest) addr ↔ addr = s.wrap addr' ∨ WritesTo rest addr := by
  simp [WritesTo, State.writeAccess, exists_or]

@[simp] theorem writesTo_append (first second : List Access) (addr : Nat) :
    WritesTo (first ++ second) addr ↔ WritesTo first addr ∨ WritesTo second addr := by simp [WritesTo, exists_or]

/-- A byte that a history does not write to is as before. -/
theorem read_of_not_writesTo {history : List Access} {m m' : Memory} {addr : Nat} (h : replay history m = some m')
    (hno : ¬ WritesTo history addr) : Memory.read m' addr = Memory.read m addr := by
  induction history generalizing m with
  | nil =>
    cases h
    rfl
  | cons acc rest ih =>
    have hrest : ¬ WritesTo rest addr := fun ⟨v, hv⟩ => hno ⟨v, List.mem_cons_of_mem _ hv⟩
    cases acc with
    | read addr' v =>
      simp only [replay] at h
      split at h
      · exact ih h hrest
      · cases h
    | write addr' v =>
      have hne : addr ≠ addr' := by
        rintro rfl
        exact hno ⟨v, List.mem_cons_self⟩
      rw [ih h hrest, Memory.read_write_ne m addr' addr v hne]

/-- A byte that a history writes to ends as one of the bytes written there, the last one. -/
theorem write_mem_of_writesTo {history : List Access} {m m' : Memory} {addr : Nat} (hwf : Memory.wf m = true)
    (h : replay history m = some m') (hw : WritesTo history addr) :
    Access.write addr (Memory.read m' addr) ∈ history := by
  induction history generalizing m with
  | nil => simp at hw
  | cons acc rest ih =>
    obtain ⟨v, hv⟩ := hw
    cases acc with
    | read addr' v' =>
      simp only [replay] at h
      split at h
      · exact List.mem_cons_of_mem _ (ih hwf h ⟨v, by simpa using hv⟩)
      · cases h
    | write addr' v' =>
      by_cases hlater : WritesTo rest addr
      · exact List.mem_cons_of_mem _ (ih (Memory.write_wf hwf addr' v') h hlater)
      · have hhere : Access.write addr v = Access.write addr' v' :=
          (List.mem_cons.1 hv).resolve_right fun hr => hlater ⟨v, hr⟩
        cases hhere
        have hrest : replay rest (Memory.write m addr v) = some m' := h
        rw [read_of_not_writesTo hrest hlater, Memory.read_write_same hwf]
        exact List.mem_cons_self

/-! ## The accesses of runs (44_block.md R210 to R213) -/

theorem State.bytesFrom_eq (s : State) (len addr : Nat) :
    s.bytesFrom addr len = (List.range len).map fun k => s.memRead (addr + k) := by
  induction len generalizing addr with
  | zero => rfl
  | succ len ih =>
    simp [State.bytesFrom, List.range_succ_eq_map, ih, Function.comp_def, Nat.add_assoc, Nat.add_comm 1]

theorem fillAccesses_eq (s : State) (base : Nat) (v : Byte) (n i : Nat) :
    fillAccesses s base v n i = (List.range' i n).map fun k => s.writeAccess (base + k) v := by
  induction n generalizing i with
  | zero => rfl
  | succ n ih => simp [fillAccesses, List.range'_succ, ih]

theorem readRunAccesses_eq (s : State) (base n i : Nat) :
    readRunAccesses s base n i = (List.range' i n).map fun k => s.readAccess (base + k) := by
  induction n generalizing i with
  | zero => rfl
  | succ n ih => simp [readRunAccesses, List.range'_succ, ih]

theorem compareAccesses_eq (s : State) (base dst n i : Nat) :
    compareAccesses s base dst n i =
      (List.range' i n).flatMap fun k => [s.readAccess (base + k), s.readAccess (dst + k)] := by
  induction n generalizing i with
  | zero => rfl
  | succ n ih => simp [compareAccesses, List.range'_succ, ih]

/-- The writes of a snapshot copy: the bytes of the source run, in order. -/
theorem storeBytesAccesses_readRun (s u : State) (base dst n i : Nat) :
    storeBytesAccesses s (dst + i) (readRun base n i u) =
      (List.range' i n).map fun k => s.writeAccess (dst + k) (u.memRead (base + k)) := by
  induction n generalizing i with
  | zero => rfl
  | succ n ih => simp [readRun, storeBytesAccesses, List.range'_succ, ← ih, Nat.add_assoc]

/-- A run of reads depends on the memory and the memory size alone. -/
theorem readRun_congr {s u : State} (hp : u.params = s.params) (hm : u.mem = s.mem) (base n i : Nat) :
    readRun base n i u = readRun base n i s := by
  induction n generalizing i with
  | zero => rfl
  | succ n ih => rw [readRun, readRun, ih, State.memRead_congr hp hm]

theorem replay_fillAccesses {s u : State} (hp : u.params = s.params) (base : Nat) (v : Byte) (n i : Nat) :
    replay (fillAccesses s base v n i) u.mem = some (fillRun base v n i u).mem := by
  induction n generalizing i u with
  | zero => rfl
  | succ n ih =>
    rw [fillAccesses, fillRun, replay_writeAccess_cons hp]
    exact ih (u := u.memWrite (base + i) v) hp _

theorem replay_storeBytesAccesses {s u : State} (hp : u.params = s.params) (vs : List Byte) (addr : Nat) :
    replay (storeBytesAccesses s addr vs) u.mem = some (u.storeBytes addr vs).mem := by
  induction vs generalizing addr u with
  | nil => rfl
  | cons v vs ih =>
    rw [storeBytesAccesses, State.storeBytes, replay_writeAccess_cons hp]
    exact ih (u := u.memWrite addr v) hp _

theorem replay_readRunAccesses (s : State) (base n i : Nat) :
    replay (readRunAccesses s base n i) s.mem = some s.mem := by
  induction n generalizing i with
  | zero => rfl
  | succ n ih => rw [readRunAccesses, replay_readAccess_cons, ih]

theorem replay_compareAccesses (s : State) (base dst n i : Nat) :
    replay (compareAccesses s base dst n i) s.mem = some s.mem := by
  induction n generalizing i with
  | zero => rfl
  | succ n ih => rw [compareAccesses, replay_readAccess_cons, replay_readAccess_cons, ih]

theorem replay_copyForwardAccesses {s u : State} (hp : u.params = s.params) (hm : u.mem = s.mem) (base dst n i : Nat) :
    replay (copyForwardAccesses base dst n i s) u.mem = some (copyForward base dst n i u).mem := by
  induction n generalizing i s u with
  | zero => rfl
  | succ n ih =>
    rw [copyForwardAccesses, copyForward, hm, replay_readAccess_cons, ← hm, replay_writeAccess_cons hp,
      State.memRead_congr hp hm]
    exact ih (s := s.memWrite (dst + i) (s.memRead (base + i)))
      (u := u.memWrite (dst + i) (s.memRead (base + i))) hp (by simp [hp, hm]) _

/-- COPY's accesses replay to what its body leaves, for each value of `COPY_OVERLAP`. -/
theorem replay_copyAccesses {s u : State} (hp : u.params = s.params) (hm : u.mem = s.mem) (mode : CopyOverlap)
    (base dst n : Nat) : replay (copyAccesses mode base dst n s) s.mem = some (copyRun mode base dst n u).mem := by
  cases mode with
  | snapshot =>
    rw [copyAccesses, copyRun, replay_append, replay_readRunAccesses, readRun_congr hp hm, ← hm]
    exact replay_storeBytesAccesses hp _ _
  | forward => rw [← hm]; exact replay_copyForwardAccesses hp hm base dst n 0

/-- A run of writes writes to the addresses of its indices, modulo `MEM_SIZE`. -/
theorem writesTo_map_writeAccess (s : State) (f : Nat → Nat) (g : Nat → Byte) (indices : List Nat) (addr : Nat) :
    WritesTo (indices.map fun k => s.writeAccess (f k) (g k)) addr ↔ ∃ k ∈ indices, addr = s.wrap (f k) := by
  induction indices with
  | nil => simp
  | cons k rest ih => simp [ih]

@[simp] theorem writesTo_readRunAccesses (s : State) (base n i addr : Nat) :
    WritesTo (readRunAccesses s base n i) addr ↔ False := by
  induction n generalizing i with
  | zero => simp [readRunAccesses]
  | succ n ih => simp [readRunAccesses, ih]

@[simp] theorem writesTo_compareAccesses (s : State) (base dst n i addr : Nat) :
    WritesTo (compareAccesses s base dst n i) addr ↔ False := by
  induction n generalizing i with
  | zero => simp [compareAccesses]
  | succ n ih => simp [compareAccesses, ih]

theorem writesTo_copyForwardAccesses (s : State) (base dst n i addr : Nat) :
    WritesTo (copyForwardAccesses base dst n i s) addr ↔ ∃ k ∈ List.range' i n, addr = s.wrap (dst + k) := by
  induction n generalizing i s with
  | zero => simp [copyForwardAccesses]
  | succ n ih => simp [copyForwardAccesses, List.range'_succ, ih, State.wrap]

/-- COPY writes to its destination run, for each value of `COPY_OVERLAP`. -/
theorem writesTo_copyAccesses (mode : CopyOverlap) (s : State) (base dst n addr : Nat) :
    WritesTo (copyAccesses mode base dst n s) addr ↔ ∃ k ∈ List.range' 0 n, addr = s.wrap (dst + k) := by
  cases mode with
  | snapshot =>
    have hwrites := storeBytesAccesses_readRun s s base dst n 0
    rw [copyAccesses, writesTo_append, writesTo_readRunAccesses, false_or, ← writesTo_map_writeAccess, ← hwrites]
    rfl
  | forward => exact writesTo_copyForwardAccesses s base dst n 0 addr

/-! ## The accesses of an instruction and of a step -/

/-- The accesses of an instruction's body replay to the memory it leaves (20_memory.md R54, R59). -/
theorem replay_bodyAccesses {i : Instr} {s t : State} (h : exec i s = .next t) :
    replay (bodyAccesses i s) s.mem = some t.mem := by
  have hbody : ∃ (b : State) (v : FlagValues), exec i s = finish i.mnemonic s b v ∧
      replay (bodyAccesses i s) s.mem = some b.mem := by
    cases i
    case hlt | ldai | ldxi | ldyi | tax | txa | tay | tya | addx | addy | addi | subx | suby | subi | inca | incx
      | incy | deca | decx | decy | shla | shra | jmp | jrf | jrb => exact ⟨_, _, rfl, rfl⟩
    case jz | jnz | jn | jnn | jo | jno => exact ⟨_, _, rfl, congrArg some (State.jumpIf_mem (s.advance _) _ _).symm⟩
    case ldam | ldaxy | ldao | ldxm | ldym | addm | subm => exact ⟨_, _, rfl, replay_readAccess_cons s _ []⟩
    case stam | staxy | stao | stxm | stym => exact ⟨_, _, rfl, rfl⟩
    case fill => exact ⟨_, _, rfl, replay_fillAccesses (s := s) (u := s.advance .fill) rfl _ _ _ _⟩
    case copy => exact ⟨_, _, rfl, replay_copyAccesses (s := s) (u := s.advance .copy) rfl rfl _ _ _ _⟩
    case bcmp => exact ⟨_, _, rfl, replay_compareAccesses _ _ _ _ _⟩
  obtain ⟨b, v, hb, hreplay⟩ := hbody
  obtain rfl := finish_next (hb.symm.trans h)
  exact hreplay

/-- The addresses that an instruction's body writes to are those the instruction stores to. -/
theorem writesTo_bodyAccesses_iff (i : Instr) (s : State) (addr : Nat) :
    WritesTo (bodyAccesses i s) addr ↔ i.storesTo s addr := by
  have hrun (n dst : Nat) : (∃ k ∈ List.range' 0 n, addr = s.wrap (dst + k)) ↔ ∃ k, k < n ∧ addr = s.wrap (dst + k) := by
    simp
  cases i
  case stam | staxy | stao | stxm | stym =>
    simp [bodyAccesses, Instr.storesTo, State.eaDirect, State.eaIndexed, State.eaOffset, State.wrap]
  case fill =>
    rw [bodyAccesses, fillAccesses_eq, writesTo_map_writeAccess]
    exact hrun _ _
  case copy => exact (writesTo_copyAccesses _ _ _ _ _ _).trans (hrun _ _)
  case bcmp => exact writesTo_compareAccesses _ _ _ _ _ _
  all_goals simp [bodyAccesses, Instr.storesTo]

/-- Settles O35: the body's accesses replay to the memory after the instruction (`replay_bodyAccesses`), and none of them
writes to an address the instruction does not store to (`writesTo_bodyAccesses_iff`). -/
theorem onlyStoredBytesChange : Obligations.OnlyStoredBytesChange :=
  fun i s _ h addr hno => read_of_not_writesTo (replay_bodyAccesses h) fun hw =>
    hno ((writesTo_bodyAccesses_iff i s addr).1 hw)

theorem step_eq_of_lookup {s : State} {d : Descriptor} (hr : s.status = .running)
    (hd : s.params.catalog.lookup (s.memRead s.pc.toNat) = some d) :
    step s = execFetched ⟨d, s.bytesFrom (s.pc.toNat + 1) d.length⟩ s := by
  simp [step, hr, State.fetch, State.descriptorAtPc, hd]

theorem step_eq_of_unknown {s : State} (hr : s.status = .running)
    (hd : s.params.catalog.lookup (s.memRead s.pc.toNat) = none) : step s = .next (raiseUnknownOpcode s) := by
  simp [step, hr, State.fetch, State.descriptorAtPc, hd]

theorem stepAccesses_of_lookup {s : State} {d : Descriptor} (hr : s.status = .running)
    (hd : s.params.catalog.lookup (s.memRead s.pc.toNat) = some d) :
    stepAccesses s =
      fetchAccesses s (1 + d.length) ++ fetchedAccesses ⟨d, s.bytesFrom (s.pc.toNat + 1) d.length⟩ s := by
  simp [stepAccesses, hr, State.fetch, State.descriptorAtPc, hd]

theorem stepAccesses_of_unknown {s : State} (hr : s.status = .running)
    (hd : s.params.catalog.lookup (s.memRead s.pc.toNat) = none) : stepAccesses s = [s.readAccess s.pc.toNat] := by
  simp [stepAccesses, hr, State.fetch, State.descriptorAtPc, hd, fetchAccesses, readRunAccesses]

theorem fetchedAccesses_reference {fetched : Fetched} {m : Mnemonic} (hm : fetched.descriptor.rule = .reference m)
    (s : State) : fetchedAccesses fetched s = bodyAccesses (m.instr fetched.operands) s := by
  simp only [fetchedAccesses, hm]

theorem fetchedAccesses_written {fetched : Fetched} {body : RuleStmt} (hb : fetched.descriptor.rule = .written body)
    (s : State) : fetchedAccesses fetched s = (body.run (RuleFrame.start fetched s)).accesses := by
  simp only [fetchedAccesses, hb]

/-- The accesses of a fetched instruction's body replay to the memory it leaves, whatever its rule. -/
theorem replay_fetchedAccesses {fetched : Fetched} {s t : State} (h : execFetched fetched s = .next t) :
    replay (fetchedAccesses fetched s) s.mem = some t.mem := by
  rcases execFetched_cases fetched s with ⟨m, hm, hexec⟩ | ⟨body, hb, hexec⟩
  · rw [fetchedAccesses_reference hm]
    exact replay_bodyAccesses (hexec.symm.trans h)
  · rw [fetchedAccesses_written hb, RuleStmt.run_replay body (RuleFrame.start fetched s) s.mem rfl]
    have ht := hexec.symm.trans h
    rw [execWritten, complete_eq] at ht
    cases ht
    rfl

/-- The history of a step replays to the memory after it (20_memory.md R54, R59). -/
theorem replay_stepAccesses {s t : State} (h : step s = .next t) : replay (stepAccesses s) s.mem = some t.mem := by
  rcases step_cases s with ⟨hr, d, hd, hstep⟩ | ⟨hr, hd, hstep⟩ | ⟨-, hstep⟩ | ⟨-, hstep⟩
  · rw [stepAccesses_of_lookup hr hd, replay_append, fetchAccesses, replay_readRunAccesses]
    exact replay_fetchedAccesses (hstep.symm.trans h)
  · cases hstep.symm.trans h
    rw [stepAccesses_of_unknown hr hd, replay_readAccess_cons]
    rfl
  · simp [hstep] at h
  · simp [hstep] at h

/-- Settles O44: the replay by `replay_stepAccesses`, the order of the accesses by the equations of the fetch and of the
runs. -/
theorem historyReplaysToTheNewMemory : Obligations.HistoryReplaysToTheNewMemory := by
  refine ⟨fun s t => replay_stepAccesses, fun s => ⟨fun hr => ⟨stepAccesses_of_unknown hr, fun d hd => ?_⟩,
    fun imm8 addr16 => ⟨rfl, ?_, ?_, ?_, fun hmode => ?_⟩⟩⟩
  · intro operands
    have hops : s.bytesFrom (s.pc.toNat + 1) d.length = operands := State.bytesFrom_eq s _ _
    refine ⟨?_, fun m hm => fetchedAccesses_reference (fetched := ⟨d, operands⟩) hm s⟩
    rw [stepAccesses_of_lookup hr hd, hops, fetchAccesses, readRunAccesses_eq, ← List.range_eq_range']
    rfl
  · simp [bodyAccesses, State.writeAccess]
  · rw [bodyAccesses, fillAccesses_eq, ← List.range_eq_range']
    rfl
  · rw [bodyAccesses, compareAccesses_eq, ← List.range_eq_range']
    rfl
  · have hwrites := storeBytesAccesses_readRun s s s.eaIndexed (s.eaDirect addr16) s.a.toNat 0
    rw [bodyAccesses, hmode, copyAccesses, readRunAccesses_eq, ← List.range_eq_range']
    rw [← List.range_eq_range'] at hwrites
    exact congrArg _ hwrites

/-! ## The peripheral -/

/-- What the peripheral observes: the writes of the history to its range (20_memory.md R42, R47). -/
theorem mem_peripheralWrites_iff (s : State) (addr : Nat) (v : Byte) :
    (addr, v) ∈ peripheralWrites s ↔ Access.write addr v ∈ stepAccesses s ∧ s.params.periph.contains addr = true := by
  rw [peripheralWrites, List.mem_filterMap]
  constructor
  · rintro ⟨acc, hacc, hsome⟩
    cases acc with
    | read addr' v' => cases hsome
    | write addr' v' =>
      obtain ⟨hin, rfl, rfl⟩ : s.params.periph.contains addr' = true ∧ addr' = addr ∧ v' = v := by simpa using hsome
      exact ⟨hacc, hin⟩
  · rintro ⟨hacc, hin⟩
    exact ⟨_, hacc, by simp [hin]⟩

/-- A step by a rule of the table writes to every address its instruction stores to. -/
theorem writesTo_stepAccesses_of_storesTo {s : State} {d : Descriptor} {m : Mnemonic} {addr : Nat}
    (hr : s.status = .running) (hd : s.params.catalog.lookup (s.memRead s.pc.toNat) = some d)
    (hm : d.rule = .reference m) (hst : (m.instr (s.bytesFrom (s.pc.toNat + 1) d.length)).storesTo s addr) :
    WritesTo (stepAccesses s) addr := by
  rw [stepAccesses_of_lookup hr hd, fetchedAccesses_reference hm, writesTo_append]
  exact .inr ((writesTo_bodyAccesses_iff _ s addr).2 hst)

/-- Settles O45: since the history replays to the memory after the step, an address it writes to ends with a byte it wrote
(`write_mem_of_writesTo`), and a byte that changes is one it wrote to (`read_of_not_writesTo`). -/
theorem peripheralSeesEveryChange : Obligations.PeripheralSeesEveryChange := by
  refine ⟨mem_peripheralWrites_iff, fun s t addr hs h hin => ?_⟩
  have hreplay := replay_stepAccesses h
  have hseen (hw : WritesTo (stepAccesses s) addr) : (addr, Memory.read t.mem addr) ∈ peripheralWrites s :=
    (mem_peripheralWrites_iff s addr _).2 ⟨write_mem_of_writesTo hs.mem_wf hreplay hw, hin⟩
  constructor
  · intro hne
    exact hseen (by_contra fun hno => hne (read_of_not_writesTo hreplay hno))
  · intro d m hd hm hst
    exact hseen (writesTo_stepAccesses_of_storesTo (step_of_lookup hd h).1 hd hm hst)

/-! ## The core does not look at the peripheral -/

@[simp] theorem State.memRead_withPeriph (s : State) (r : PeriphRange) (addr : Nat) :
    (s.withPeriph r).memRead addr = s.memRead addr := rfl

theorem State.jumpIf_withPeriph (s : State) (r : PeriphRange) (cond : Bool) (addr16 : Addr16) :
    (s.withPeriph r).jumpIf cond addr16 = (s.jumpIf cond addr16).withPeriph r := by
  cases cond <;> rfl

theorem State.bytesFrom_withPeriph (s : State) (r : PeriphRange) (addr len : Nat) :
    (s.withPeriph r).bytesFrom addr len = s.bytesFrom addr len := by
  rw [State.bytesFrom_eq, State.bytesFrom_eq]
  rfl

theorem State.storeBytes_withPeriph (s : State) (r : PeriphRange) (addr : Nat) (vs : List Byte) :
    (s.withPeriph r).storeBytes addr vs = (s.storeBytes addr vs).withPeriph r := by
  induction vs generalizing s addr with
  | nil => rfl
  | cons v vs ih => exact ih (s.memWrite addr v) _

theorem fillRun_withPeriph (s : State) (r : PeriphRange) (base : Nat) (v : Byte) (n i : Nat) :
    fillRun base v n i (s.withPeriph r) = (fillRun base v n i s).withPeriph r := by
  induction n generalizing s i with
  | zero => rfl
  | succ n ih => exact ih (s.memWrite (base + i) v) _

theorem readRun_withPeriph (s : State) (r : PeriphRange) (base n i : Nat) :
    readRun base n i (s.withPeriph r) = readRun base n i s := by
  induction n generalizing i with
  | zero => rfl
  | succ n ih => rw [readRun, readRun, ih, State.memRead_withPeriph]

theorem copyForward_withPeriph (s : State) (r : PeriphRange) (base dst n i : Nat) :
    copyForward base dst n i (s.withPeriph r) = (copyForward base dst n i s).withPeriph r := by
  induction n generalizing s i with
  | zero => rfl
  | succ n ih => exact ih (s.memWrite (dst + i) (s.memRead (base + i))) _

theorem copyRun_withPeriph (s : State) (r : PeriphRange) (mode : CopyOverlap) (base dst n : Nat) :
    copyRun mode base dst n (s.withPeriph r) = (copyRun mode base dst n s).withPeriph r := by
  cases mode with
  | snapshot => rw [copyRun, copyRun, readRun_withPeriph, State.storeBytes_withPeriph]
  | forward => exact copyForward_withPeriph s r base dst n 0

theorem compareRun_withPeriph (s : State) (r : PeriphRange) (base dst n i : Nat) :
    compareRun base dst n i (s.withPeriph r) = compareRun base dst n i s := by
  induction n generalizing i with
  | zero => rfl
  | succ n ih => rw [compareRun, compareRun, ih, State.memRead_withPeriph, State.memRead_withPeriph]

/-- An instruction of the table does the same with the peripheral bound elsewhere. -/
theorem exec_withPeriph {i : Instr} {s t : State} (r : PeriphRange) (h : exec i s = .next t) :
    exec i (s.withPeriph r) = .next (t.withPeriph r) := by
  have hbody : ∃ (b : State) (v : FlagValues), exec i s = finish i.mnemonic s b v ∧
      exec i (s.withPeriph r) = finish i.mnemonic (s.withPeriph r) (b.withPeriph r) v := by
    cases i
    case jz | jnz | jn | jnn | jo | jno =>
      exact ⟨_, _, rfl, congrArg (finish _ _ · _) (State.jumpIf_withPeriph (s.advance _) r _ _)⟩
    case fill => exact ⟨_, _, rfl, congrArg (finish _ _ · _) (fillRun_withPeriph (s.advance .fill) r _ _ _ _)⟩
    case copy => exact ⟨_, _, rfl, congrArg (finish _ _ · _) (copyRun_withPeriph (s.advance .copy) r _ _ _ _)⟩
    case bcmp =>
      exact ⟨_, _, rfl, congrArg (fun eq => finish _ _ _ (compareValues eq)) (compareRun_withPeriph s r _ _ _ _)⟩
    all_goals exact ⟨_, _, rfl, rfl⟩
  obtain ⟨b, v, hb, hb'⟩ := hbody
  obtain rfl := finish_next (hb.symm.trans h)
  exact hb'

/-- What a written rule works on, with the peripheral bound to another range. -/
def RuleFrame.withPeriph (f : RuleFrame) (r : PeriphRange) : RuleFrame := { f with state := f.state.withPeriph r }

theorem RuleExpr.eval_withPeriph (f : RuleFrame) (r : PeriphRange) :
    ∀ e : RuleExpr, e.eval (f.withPeriph r) = e.eval f
  | .num _ | .flag _ | .operand _ | .memSize => rfl
  | .register reg => by cases reg <;> rfl
  | .local index => by
    rw [RuleExpr.eval, RuleExpr.eval, RuleExpr.eval_withPeriph f r index]
    rfl
  | .apply op left right => by
    rw [RuleExpr.eval, RuleExpr.eval, RuleExpr.eval_withPeriph f r left, RuleExpr.eval_withPeriph f r right]

theorem State.setRuleRegister_withPeriph (s : State) (r : PeriphRange) (value : Nat) (reg : RuleRegister) :
    (s.withPeriph r).setRuleRegister value reg = (s.setRuleRegister value reg).withPeriph r := by
  cases reg <;> rfl

theorem RuleFrame.repeated_withPeriph {body : RuleFrame → RuleFrame} {r : PeriphRange}
    (hbody : ∀ f : RuleFrame, body (f.withPeriph r) = (body f).withPeriph r) (n : Nat) (f : RuleFrame) :
    RuleFrame.repeated body n (f.withPeriph r) = (RuleFrame.repeated body n f).withPeriph r := by
  induction n generalizing f with
  | zero => rfl
  | succ n ih => rw [RuleFrame.repeated, RuleFrame.repeated, hbody, ih]

/-- A written rule does the same with the peripheral bound elsewhere. -/
theorem RuleStmt.run_withPeriph (body : RuleStmt) (f : RuleFrame) (r : PeriphRange) :
    body.run (f.withPeriph r) = (body.run f).withPeriph r := by
  induction body generalizing f with
  | skip => rfl
  | seq first second ih1 ih2 => rw [RuleStmt.run, RuleStmt.run, ih1, ih2]
  | setLocal index value | setFlag name value | read index addr | write addr value =>
    simp only [RuleStmt.run, RuleExpr.eval_withPeriph]
    rfl
  | setRegister reg value =>
    simp only [RuleStmt.run, RuleExpr.eval_withPeriph]
    exact congrArg (fun u => { f with state := u }) (State.setRuleRegister_withPeriph f.state r _ reg)
  | cond condition first second ih1 ih2 =>
    simp only [RuleStmt.run, RuleExpr.eval_withPeriph, ih1, ih2]
    split <;> rfl
  | loop count body ih =>
    simp only [RuleStmt.run, RuleExpr.eval_withPeriph]
    exact RuleFrame.repeated_withPeriph ih _ f

/-- A fetched instruction does the same with the peripheral bound elsewhere, whatever its rule. -/
theorem execFetched_withPeriph {fetched : Fetched} {s t : State} (r : PeriphRange)
    (h : execFetched fetched s = .next t) : execFetched fetched (s.withPeriph r) = .next (t.withPeriph r) := by
  unfold execFetched at h ⊢
  cases hrule : fetched.descriptor.rule with
  | reference m =>
    rw [hrule] at h
    exact exec_withPeriph r h
  | written body =>
    have hrun : body.run (RuleFrame.start fetched (s.withPeriph r)) =
        (body.run (RuleFrame.start fetched s)).withPeriph r := RuleStmt.run_withPeriph body (RuleFrame.start fetched s) r
    simp only [hrule, execWritten, hrun] at h ⊢
    rw [complete_eq] at h
    cases h
    rfl

/-- Settles O46, one case for each thing a step can do: the fetch, and then what is fetched, reads only what
`withPeriph` keeps. -/
theorem stepIgnoresThePeripheral : Obligations.StepIgnoresThePeripheral := by
  intro s t r h
  rcases step_cases s with ⟨hr, d, hd, hstep⟩ | ⟨hr, hd, hstep⟩ | ⟨-, hstep⟩ | ⟨-, hstep⟩
  · rw [step_eq_of_lookup (s := s.withPeriph r) hr hd, State.bytesFrom_withPeriph]
    exact execFetched_withPeriph r (hstep.symm.trans h)
  · cases hstep.symm.trans h
    exact step_eq_of_unknown (s := s.withPeriph r) hr hd
  · simp [hstep] at h
  · simp [hstep] at h

end Sys2Proof.Machine

/-! Encoding (30_encoding.md R60 to R69): the operand bytes of an instruction, the lookup of a well-formed catalog, and what
the decoder and the encoder answer, each said once as an `↔`. -/

namespace Sys2Proof

/-! ## Operand bytes -/

theorem be16_hiByte_loByte (v : Addr16) : be16 (hiByte v) (loByte v) = v :=
  (operandIsBigEndian.2 v).1

theorem hiByte_be16 (hi lo : Byte) : hiByte (be16 hi lo) = hi := by
  have := lo.isLt
  apply BitVec.eq_of_toNat_eq
  rw [hiByte_toNat, be16_toNat]
  omega

theorem loByte_be16 (hi lo : Byte) : loByte (be16 hi lo) = lo := by
  have := lo.isLt
  apply BitVec.eq_of_toNat_eq
  rw [loByte_toNat, be16_toNat]
  omega

/-- Reading an instruction from its own operand bytes gives it back (30_encoding.md R62). -/
theorem Instr.instr_operandBytes (i : Instr) : i.mnemonic.instr i.operandBytes = i := by
  cases i
  case ldam v | ldao v | stam v | stao v | ldxm v | stxm v | ldym v | stym v | addm v | subm v | jmp v | jz v | jnz v
    | jn v | jnn v | jo v | jno v | copy v | bcmp v => exact congrArg _ (be16_hiByte_loByte v)
  all_goals rfl

/-- The operand bytes of an instruction read from some bytes are those bytes, as many as its format has
(30_encoding.md R61). -/
theorem Mnemonic.operandBytes_instr (m : Mnemonic) (operands : List Byte) :
    (m.instr operands).operandBytes = (List.range m.operandLength).map fun k => operands.getD k 0 := by
  have two (hi lo : Byte) : [hiByte (be16 hi lo), loByte (be16 hi lo)] = [hi, lo] := by
    rw [hiByte_be16, loByte_be16]
  cases m
  case ldam | ldao | stam | stao | ldxm | stxm | ldym | stym | addm | subm | jmp | jz | jnz | jn | jnn | jo | jno | copy
    | bcmp => exact two _ _
  all_goals rfl

theorem Mnemonic.operandBytes_instr_of_length {m : Mnemonic} {operands : List Byte}
    (h : operands.length = m.operandLength) : (m.instr operands).operandBytes = operands := by
  rw [Mnemonic.operandBytes_instr, ← h]
  apply List.ext_getElem <;> simp +contextual

/-- 30_encoding.md R61. -/
@[simp] theorem Instr.operandBytes_length (i : Instr) : i.operandBytes.length = i.mnemonic.operandLength := by
  rw [← i.instr_operandBytes, Mnemonic.operandBytes_instr]
  simp

/-- 30_encoding.md R61. -/
theorem Mnemonic.operandLength_le_two (m : Mnemonic) : m.operandLength ≤ 2 := by
  unfold Mnemonic.operandLength
  cases m.format <;> decide

/-! ## The lookup -/

/-- Where no two descriptors share an opcode (R66(a)), each is the one its opcode looks up. -/
theorem Catalog.lookup_of_mem {c : Catalog} (hc : c.wf = true) {d : Descriptor} (hd : d ∈ c) :
    c.lookup d.opcode = some d := by
  have hu := (Catalog.opcodesUnique_iff c).1 ((Catalog.wf_iff c).1 hc).1
  clear hc
  induction c with
  | nil => simp at hd
  | cons e es ih =>
    obtain ⟨hne, hes⟩ := List.pairwise_cons.1 hu
    rcases List.mem_cons.1 hd with rfl | hd
    · simp [Catalog.lookup]
    · simp [Catalog.lookup, hne d hd, ih hd hes]

/-- The lookup fails exactly for the opcodes that no descriptor has (R67). -/
theorem Catalog.lookup_eq_none_iff (c : Catalog) (op : Byte) : c.lookup op = none ↔ ∀ d ∈ c, d.opcode ≠ op := by
  induction c with
  | nil => simp [Catalog.lookup]
  | cons d ds ih => by_cases h : d.opcode = op <;> simp [Catalog.lookup, h, ih]

/-- A descriptor of a well-formed catalog with a rule of R68 has that rule's operand length (R65). -/
theorem Catalog.length_of_reference {c : Catalog} (hc : c.wf = true) {d : Descriptor} (hd : d ∈ c) {m : Mnemonic}
    (hm : d.rule = .reference m) : d.length = m.operandLength :=
  ((Catalog.rulesFit_iff c).1 ((Catalog.wf_iff c).1 hc).2.2.2.2 d hd m hm).1

/-! ## The decoder and the encoder -/

/-- A byte string decodes to a fetched instruction exactly when it begins with that instruction's bytes: its opcode, which
looks up its descriptor, and as many operand bytes as the descriptor's length (R60 to R63, R67). -/
theorem decodeFetched_eq_ok_iff (c : Catalog) (bytes rest : List Byte) (f : Fetched) :
    decodeFetched c bytes = .ok (f, rest) ↔
      c.lookup f.descriptor.opcode = some f.descriptor ∧ f.operands.length = f.descriptor.length ∧
        bytes = f.bytes ++ rest := by
  constructor
  · intro h
    unfold decodeFetched at h
    split at h
    · cases h
    · rename_i op tail
      split at h
      · cases h
      · rename_i d hd
        split at h
        · cases h
        · rename_i hlen
          cases h
          obtain ⟨-, rfl⟩ := Machine.Catalog.lookup_mem c op d hd
          exact ⟨hd, List.length_take_of_le (Nat.le_of_not_lt hlen), by simp [Fetched.bytes]⟩
  · rintro ⟨hd, hlen, rfl⟩
    simp [decodeFetched, Fetched.bytes, hd, ← hlen]

theorem Fetched.instr_eq_some_iff (f : Fetched) (i : Instr) :
    f.instr = some i ↔ f.descriptor.rule = .reference i.mnemonic ∧ i.mnemonic.instr f.operands = i := by
  unfold Fetched.instr
  cases f.descriptor.rule with
  | written body => simp
  | reference m =>
    constructor
    · rintro h
      cases h
      simp
    · rintro ⟨h, hi⟩
      cases h
      exact congrArg some hi

theorem decodeWith_eq_ok_iff (c : Catalog) (bytes rest : List Byte) (i : Instr) :
    decodeWith c bytes = .ok (i, rest) ↔ ∃ f, decodeFetched c bytes = .ok (f, rest) ∧ f.instr = some i := by
  unfold decodeWith
  cases decodeFetched c bytes with
  | error e => simp
  | ok p =>
    obtain ⟨f, tail⟩ := p
    cases hf : f.instr <;> simp [hf, and_comm]

theorem encodeWith_eq_some_iff (c : Catalog) (i : Instr) (w : List Byte) :
    encodeWith c i = some w ↔ ∃ d, c.descriptorOf i.mnemonic = some d ∧ d.opcode :: i.operandBytes = w := by
  simp [encodeWith]

/-- The bytes of a descriptor of a well-formed catalog decode back, whatever its rule. -/
theorem decodeFetched_bytes_append {c : Catalog} (hc : c.wf = true) {f : Fetched} (hd : f.descriptor ∈ c)
    (hlen : f.operands.length = f.descriptor.length) (rest : List Byte) :
    decodeFetched c (f.bytes ++ rest) = .ok (f, rest) :=
  (decodeFetched_eq_ok_iff c _ rest f).2 ⟨Catalog.lookup_of_mem hc hd, hlen, rfl⟩

/-- Settles O1: the encoding of an instruction is the bytes of its descriptor with the instruction's own operand bytes, and
these decode back (`decodeFetched_bytes_append`). -/
theorem decodeOfEncodeInEveryCatalog : Obligations.DecodeOfEncodeInEveryCatalog := by
  refine ⟨fun c i w rest hc henc => ?_, fun c f rest hc hd hlen => decodeFetched_bytes_append hc hd hlen rest⟩
  obtain ⟨d, hd, rfl⟩ := (encodeWith_eq_some_iff c i w).1 henc
  obtain ⟨hmem, hrule⟩ := Machine.Catalog.descriptorOf_mem c i.mnemonic d hd
  rw [Machine.Rule.isReference_iff] at hrule
  have hlen : i.operandBytes.length = d.length := by
    rw [Instr.operandBytes_length, Catalog.length_of_reference hc hmem hrule]
  rw [decodeWith_eq_ok_iff]
  exact ⟨⟨d, i.operandBytes⟩, decodeFetched_bytes_append (f := ⟨d, _⟩) hc hmem hlen rest,
    (Fetched.instr_eq_some_iff _ i).2 ⟨hrule, i.instr_operandBytes⟩⟩

/-- Settles O2, from what the decoder answers (`decodeFetched_eq_ok_iff`) and the operand bytes of the instruction read
from those (`Mnemonic.operandBytes_instr_of_length`). -/
theorem encodeOfDecodeInEveryCatalog : Obligations.EncodeOfDecodeInEveryCatalog := by
  have parts {c : Catalog} {f : Fetched} {bytes rest : List Byte} (h : decodeFetched c bytes = .ok (f, rest)) :
      f.descriptor ∈ c ∧ f.operands.length = f.descriptor.length ∧ bytes = f.bytes ++ rest := by
    obtain ⟨hd, hlen, hbytes⟩ := (decodeFetched_eq_ok_iff c bytes rest f).1 h
    exact ⟨(Machine.Catalog.lookup_mem c _ _ hd).1, hlen, hbytes⟩
  refine ⟨fun c f bytes rest => parts, fun c i bytes rest hc h => ?_⟩
  obtain ⟨f, hf, hi⟩ := (decodeWith_eq_ok_iff c bytes rest i).1 h
  obtain ⟨hd, hlen, hbytes⟩ := parts hf
  obtain ⟨hrule, hinstr⟩ := (Fetched.instr_eq_some_iff f i).1 hi
  have hops : i.operandBytes = f.operands := by
    rw [← hinstr]
    exact Mnemonic.operandBytes_instr_of_length (hlen.trans (Catalog.length_of_reference hc hd hrule))
  exact ⟨f.descriptor, hd, hrule, by rw [hbytes, hops]; rfl⟩

/-! ## The reference catalog -/

/-- Settles O3: the reference catalog has a descriptor for every mnemonic, and the operand bytes are those of the format. -/
theorem referenceCatalogEncodesEveryInstruction : Obligations.ReferenceCatalogEncodesEveryInstruction := by
  intro i
  have hreg : ∃ d, Catalog.reference.descriptorOf i.mnemonic = some d :=
    Option.isSome_iff_exists.1 (by cases i.mnemonic <;> rfl)
  obtain ⟨d, hd⟩ := hreg
  have henc : encodeWith Catalog.reference i = some (d.opcode :: i.operandBytes) :=
    (encodeWith_eq_some_iff _ i _).2 ⟨d, hd, rfl⟩
  have hbytes : encode i = d.opcode :: i.operandBytes := by rw [encode, henc]; rfl
  have hlen : (encode i).length = 1 + i.mnemonic.operandLength := by
    rw [hbytes, List.length_cons, Instr.operandBytes_length, Nat.add_comm]
  have hle := i.mnemonic.operandLength_le_two
  exact ⟨by rw [henc, hbytes], hlen, by omega⟩

/-- Settles O4, by running the decoder on each word. -/
theorem sampleWordsDecode : Obligations.SampleWordsDecode := by
  unfold Obligations.SampleWordsDecode
  decide

/-- The opcodes of the 46 rows, in runs. -/
theorem Catalog.reference_opcodes :
    (Catalog.reference.map fun d => d.opcode.toNat) =
      [0x01] ++ List.range' 0x10 7 ++ List.range' 0x18 3 ++ List.range' 0x1C 3 ++ List.range' 0x20 4 ++
        List.range' 0x30 25 ++ List.range' 0x50 3 := rfl

/-- Settles O6: the lookup fails for the opcodes of no row (`Catalog.lookup_eq_none_iff`), and the runs of rows are the gaps
of the list in R69. -/
theorem unassignedOpcodesOfTheReferenceCatalog : Obligations.UnassignedOpcodesOfTheReferenceCatalog := by
  refine ⟨fun op => ?_, rfl⟩
  have hop := op.isLt
  have hrows : Catalog.reference.lookup op = none ↔
      op.toNat ∉ Catalog.reference.map fun d => d.opcode.toNat := by
    simp [Catalog.lookup_eq_none_iff, BitVec.toNat_inj]
  rw [hrows, Catalog.reference_opcodes]
  simp only [List.mem_append, List.mem_range'_1, List.mem_singleton, Machine.unassignedOpcode, Bool.or_eq_true,
    Bool.and_eq_true, beq_iff_eq, decide_eq_true_eq]
  omega

/-- Settles O7, by running the checks of R66 on the 46 rows. -/
theorem referenceCatalogIsWellFormed : Obligations.ReferenceCatalogIsWellFormed := by
  unfold Obligations.ReferenceCatalogIsWellFormed
  decide

end Sys2Proof

/-! Construction with two descriptors on one opcode (30_encoding.md R66), and the step as a whole (R70 to R78): which
instruction it runs, when it exists, what it answers where it does not. -/

namespace Sys2Proof.Machine

/-- Settles O8: of two descriptors that share an opcode the check of R66(a) refuses the catalog, and construction reports
that check first. -/
theorem opcodeCollisionBuildsNoInstance : Obligations.OpcodeCollisionBuildsNoInstance := by
  intro p before between after d e hp hop
  have hcoll : p.catalog.opcodesUnique = false := by
    rw [Bool.eq_false_iff, Ne, Catalog.opcodesUnique_iff, hp]
    intro hpair
    have hdistinct := (List.pairwise_append.1 hpair).2.2 d (by simp) e (by simp)
    exact hdistinct hop
  simp [construct, catalogProblem, hcoll]

/-! ## The instruction a step runs -/

/-- A run of bytes that begins with `bytes` begins with as many bytes from the same address. -/
theorem State.eq_bytesFrom_of_append {s : State} : ∀ {bytes rest : List Byte} {addr len : Nat},
    s.bytesFrom addr len = bytes ++ rest → bytes = s.bytesFrom addr bytes.length
  | [], _, _, _, _ => rfl
  | _ :: _, _, _, 0, h => by simp [State.bytesFrom] at h
  | b :: bytes, rest, addr, len + 1, h => by
    obtain ⟨hb, htail⟩ := List.cons.inj h
    rw [List.length_cons, State.bytesFrom, ← hb, ← State.eq_bytesFrom_of_append htail]

/-- What the bytes from PC on decode to is what the fetch yields (30_encoding.md R70, R71). -/
theorem State.fetch_of_decodeFetched {s : State} {f : Fetched} {rest : List Byte} {len : Nat}
    (h : decodeFetched s.params.catalog (s.bytesFrom s.pc.toNat len) = .ok (f, rest)) : s.fetch = some f := by
  obtain ⟨hlookup, hlen, hbytes⟩ := (decodeFetched_eq_ok_iff _ _ _ _).1 h
  obtain ⟨hop, hoperands⟩ := List.cons.inj (State.eq_bytesFrom_of_append hbytes)
  rw [hlen] at hoperands
  rw [hop] at hlookup
  simp only [State.fetch, State.descriptorAtPc, hlookup, Option.map_some, ← hoperands]

theorem step_of_fetch {s : State} {f : Fetched} (hr : s.status = .running) (h : s.fetch = some f) :
    step s = execFetched f s := by
  simp only [step, hr, h]

/-- Settles O10: what the bytes from PC on decode to is fetched (`State.fetch_of_decodeFetched`), and the step is the
meaning of its rule. -/
theorem stepRunsTheDecodedInstruction : Obligations.StepRunsTheDecodedInstruction := by
  intro s hr window
  have hwindow : window = s.bytesFrom s.pc.toNat 3 := rfl
  have hstep {f : Fetched} {rest : List Byte} (h : decodeFetched s.params.catalog window = .ok (f, rest)) :
      step s = execFetched f s := step_of_fetch hr (State.fetch_of_decodeFetched (hwindow ▸ h))
  constructor
  · intro i rest h
    obtain ⟨f, hf, hi⟩ := (decodeWith_eq_ok_iff _ _ _ _).1 h
    obtain ⟨hrule, hinstr⟩ := (Fetched.instr_eq_some_iff f i).1 hi
    rw [hstep hf, execFetched, hrule]
    exact congrArg (exec · s) hinstr
  · intro d operands rest body hf hrule start u flags
    obtain ⟨-, hstatus, hsteps, -⟩ := RuleStmt.run_keeps body (RuleFrame.start ⟨d, operands⟩ s)
    have hflags : s.flags.commit d.flags (writtenValues u.flags) = flags := by
      simp [Flags.commit, commitFlag, writtenValues, flags]
    have hexec : execFetched ⟨d, operands⟩ s = complete d.flags s.flags (writtenValues u.flags) u := by
      rw [execFetched, hrule]
      rfl
    have hus : u.status = .running := hstatus.trans hr
    have hun : u.steps = s.steps := hsteps
    rw [hstep hf, hexec, complete_eq, hflags, hus, hun]

/-! ## The three statuses -/

/-- Settles O13: of the four things a step can do (`step_cases`) a Running core does one of the first two, and both answer
a next state. -/
theorem runningCoreAlwaysSteps : Obligations.RunningCoreAlwaysSteps := by
  intro s hr
  rcases step_cases s with ⟨-, d, -, hstep⟩ | ⟨-, -, hstep⟩ | ⟨hs, -⟩ | ⟨hs, -⟩
  · rw [hstep]
    exact execFetched_next _ s
  · exact ⟨_, hstep⟩
  · simp [hr] at hs
  · simp [hr] at hs

/-- Settles O15, status by status. -/
theorem stepFaultsExactlyWhereNoStepExists : Obligations.StepFaultsExactlyWhereNoStepExists := by
  intro s
  cases hs : s.status with
  | running =>
    obtain ⟨t, ht⟩ := runningCoreAlwaysSteps s hs
    simp [ht]
  | halted => simp [step, hs]
  | faulted => simp [step, hs]

/-- Settles O14: in Halted and in Faulted the step is a fault, which the host step refuses; a run does not begin
(`run_of_not_running`). -/
theorem haltedAndFaultedAreTerminal : Obligations.HaltedAndFaultedAreTerminal := by
  intro s hs
  have hfault : ∃ r, step s = .fault r := by
    rcases step_cases s with ⟨hr, -⟩ | ⟨hr, -⟩ | ⟨-, hstep⟩ | ⟨-, hstep⟩
    · exact absurd hr hs
    · exact absurd hr hs
    · exact ⟨_, hstep⟩
    · exact ⟨_, hstep⟩
  obtain ⟨r, hr⟩ := hfault
  exact ⟨by simp [hr], by simp [hostStep, hr], run_of_not_running hs⟩

end Sys2Proof.Machine

/-! The assembler (30_encoding.md R80 to R90): what pass 1 and pass 2 answer, and from both which programs assemble and to
what (`assembleLines_eq_ok_iff`). -/

namespace Sys2Proof.Machine

/-! ## The lines of a program -/

/-- The label names that lines define, in order (30_encoding.md R82). -/
def labelNames (lines : List Line) : List Text :=
  lines.filterMap fun l =>
    match l with
    | .label name => some name
    | .blank | .instruction _ _ => none

@[simp] theorem labelNames_nil : labelNames [] = [] := rfl
@[simp] theorem labelNames_blank (rest : List Line) : labelNames (.blank :: rest) = labelNames rest := rfl
@[simp] theorem labelNames_label (name : Text) (rest : List Line) :
    labelNames (.label name :: rest) = name :: labelNames rest := rfl
@[simp] theorem labelNames_instruction (mn : Text) (ops : List Text) (rest : List Line) :
    labelNames (.instruction mn ops :: rest) = labelNames rest := rfl
@[simp] theorem labelNames_append (lines rest : List Line) :
    labelNames (lines ++ rest) = labelNames lines ++ labelNames rest := by
  simp [labelNames]

@[simp] theorem instructionLines_nil : instructionLines [] = [] := rfl
@[simp] theorem instructionLines_blank (rest : List Line) :
    instructionLines (.blank :: rest) = instructionLines rest := rfl
@[simp] theorem instructionLines_label (name : Text) (rest : List Line) :
    instructionLines (.label name :: rest) = instructionLines rest := rfl
@[simp] theorem instructionLines_instruction (mn : Text) (ops : List Text) (rest : List Line) :
    instructionLines (.instruction mn ops :: rest) = (mn, ops) :: instructionLines rest := rfl
@[simp] theorem instructionLines_append (lines rest : List Line) :
    instructionLines (lines ++ rest) = instructionLines lines ++ instructionLines rest := by
  simp [instructionLines]

@[simp] theorem programSize_nil (c : Catalog) : programSize c [] = 0 := rfl
@[simp] theorem programSize_blank (c : Catalog) (rest : List Line) :
    programSize c (.blank :: rest) = programSize c rest := rfl
@[simp] theorem programSize_label (c : Catalog) (name : Text) (rest : List Line) :
    programSize c (.label name :: rest) = programSize c rest := rfl
@[simp] theorem programSize_instruction (c : Catalog) (mn : Text) (ops : List Text) (rest : List Line) :
    programSize c (.instruction mn ops :: rest) = lineLength c mn + programSize c rest := rfl

theorem programSize_cons (c : Catalog) (line : Line) (rest : List Line) :
    programSize c (line :: rest) = programSize c [line] + programSize c rest := by
  cases line <;> simp

/-! ## The offset of a label -/

theorem labelOffset_label (c : Catalog) (name : Text) (rest : List Line) (l : Text) :
    labelOffset c (.label name :: rest) l = if name = l then some 0 else labelOffset c rest l := by
  simp [labelOffset]

theorem labelOffset_append (c : Catalog) (lines rest : List Line) (l : Text) :
    labelOffset c (lines ++ rest) l =
      (labelOffset c lines l).or ((labelOffset c rest l).map (programSize c lines + ·)) := by
  induction lines with
  | nil => simp [labelOffset]
  | cons line lines ih =>
    by_cases h : line = .label l
    · simp [labelOffset, h]
    · rw [programSize_cons]
      cases hl : labelOffset c lines l <;> cases hr : labelOffset c rest l <;>
        simp [labelOffset, h, ih, hl, hr, Nat.add_assoc]

/-- Only a defined label has an offset (30_encoding.md R86). -/
theorem labelOffset_eq_none {c : Catalog} {lines : List Line} {l : Text} (h : l ∉ labelNames lines) :
    labelOffset c lines l = none := by
  induction lines with
  | nil => rfl
  | cons line lines ih =>
    have hline : line ≠ .label l := by
      rintro rfl
      simp at h
    have hlines : l ∉ labelNames lines := by cases line <;> simp_all
    simp [labelOffset, hline, ih hlines]

/-- A label defined on one line stands for the size of the lines before that line (30_encoding.md R83). -/
theorem labelOffset_of_nodup {c : Catalog} {before after : List Line} {l : Text}
    (h : (labelNames (before ++ .label l :: after)).Nodup) :
    labelOffset c (before ++ .label l :: after) l = some (programSize c before) := by
  have hbefore : l ∉ labelNames before := by
    rw [labelNames_append, labelNames_label, List.nodup_middle] at h
    simp_all
  simp [labelOffset_append, labelOffset_eq_none hbefore, labelOffset_label]

/-! ## Pass 1 -/

/-- No label name is defined twice, nor again after it was put in `ls` (30_encoding.md R84). -/
def FreshLabels (ls : Labels) (lines : List Line) : Prop :=
  (labelNames lines).Nodup ∧ ∀ l ∈ labelNames lines, ls.find l = none

theorem Labels.find_cons (name : Text) (offset : Nat) (ls : Labels) (l : Text) :
    Labels.find ((name, offset) :: ls) l = if name = l then some offset else ls.find l := rfl

theorem freshLabels_nil_iff (lines : List Line) : FreshLabels [] lines ↔ (labelNames lines).Nodup := by
  simp [FreshLabels, Labels.find]

/-- A label line is fresh where its name is new, and the other lines are fresh once it is added. -/
theorem freshLabels_label_iff (ls : Labels) (name : Text) (offset : Nat) (rest : List Line) :
    FreshLabels ls (.label name :: rest) ↔ ls.find name = none ∧ FreshLabels ((name, offset) :: ls) rest := by
  have hfind : (∀ l ∈ labelNames rest, Labels.find ((name, offset) :: ls) l = none) ↔
      name ∉ labelNames rest ∧ ∀ l ∈ labelNames rest, ls.find l = none := by
    constructor
    · intro h
      refine ⟨fun hmem => ?_, fun l hl => ?_⟩
      · simpa [Labels.find_cons] using h name hmem
      · by_cases hn : name = l <;> simpa [Labels.find_cons, hn] using h l hl
    · rintro ⟨hnew, h⟩ l hl
      have hne : name ≠ l := by
        rintro rfl
        exact hnew hl
      rw [Labels.find_cons, if_neg hne, h l hl]
  simp only [FreshLabels, labelNames_label, List.nodup_cons, List.forall_mem_cons, hfind]
  tauto

/-- Pass 1 gives each label of a program without duplicates its offset (30_encoding.md R83). -/
theorem pass1_of_fresh {c : Catalog} {lines : List Line} {ls : Labels} (h : FreshLabels ls lines) (line offset : Nat) :
    ∃ ls', pass1 c line offset ls lines = .ok ls' ∧
      ∀ l, ls'.find l = (ls.find l).or ((labelOffset c lines l).map (offset + ·)) := by
  induction lines generalizing ls line offset with
  | nil => exact ⟨ls, rfl, by simp [labelOffset]⟩
  | cons first rest ih =>
    cases first with
    | blank =>
      obtain ⟨ls', hok, hfind⟩ := ih h (line + 1) offset
      exact ⟨ls', hok, by simpa [labelOffset] using hfind⟩
    | label name =>
      obtain ⟨hnew, hrest⟩ := (freshLabels_label_iff ls name offset rest).1 h
      obtain ⟨ls', hok, hfind⟩ := ih hrest (line + 1) offset
      refine ⟨ls', by simp only [pass1, hnew, hok], fun l => ?_⟩
      rw [hfind l, Labels.find_cons, labelOffset_label]
      by_cases hl : name = l
      · subst hl
        simp [hnew]
      · simp [hl]
    | instruction mn ops =>
      obtain ⟨ls', hok, hfind⟩ := ih h (line + 1) (offset + lineLength c mn)
      exact ⟨ls', hok, by simpa [labelOffset, Function.comp_def, Nat.add_assoc] using hfind⟩

/-- Pass 1 rejects every other program for a duplicate label (30_encoding.md R84). -/
theorem pass1_of_not_fresh {c : Catalog} {lines : List Line} {ls : Labels} (h : ¬ FreshLabels ls lines)
    (line offset : Nat) : ∃ k, pass1 c line offset ls lines = .error (.duplicateLabel k) := by
  induction lines generalizing ls line offset with
  | nil => exact absurd ⟨List.nodup_nil, by simp⟩ h
  | cons first rest ih =>
    cases first with
    | blank => exact ih h (line + 1) offset
    | label name =>
      cases hname : ls.find name with
      | some _ => exact ⟨line, by simp only [pass1, hname]⟩
      | none =>
        rw [freshLabels_label_iff ls name offset] at h
        simpa only [pass1, hname] using ih (fun hrest => h ⟨hname, hrest⟩) (line + 1) offset
    | instruction mn ops => exact ih h (line + 1) (offset + lineLength c mn)

/-! ## Pass 2 -/

/-- The bytes that an operand stands for where labels have the offsets `find` (30_encoding.md R86, R87): an offset has a
two-byte form up to 65535 (log 13). -/
def Operand.Resolved (find : Text → Option Nat) : Operand → List Byte → Prop
  | .literal own, bytes => bytes = own
  | .label name, bytes => ∃ offset, offset ≤ 65535 ∧ find name = some offset ∧ bytes = twoBytes offset
  | .tooWide, _ => False
  | .malformed, _ => False

/-- The instruction that an instruction line gives where labels have the offsets `find` (30_encoding.md R85 to R88). -/
structure Emitted (c : Catalog) (find : Text → Option Nat) (line : Text × List Text) (f : Fetched) : Prop where
  descriptor : findDescriptor c line.1 = some f.descriptor
  operands : ∃ parts, List.Forall₂ (Operand.Resolved find) (line.2.map parseOperand) parts ∧ f.operands = parts.flatten
  length : f.operands.length = f.descriptor.length

theorem Operand.Resolved.width {find : Text → Option Nat} {op : Operand} {bytes : List Byte}
    (h : op.Resolved find bytes) : op.width = some bytes.length := by
  cases op with
  | literal own => exact congrArg (fun b => some b.length) (Eq.symm h)
  | label name =>
    obtain ⟨offset, -, -, rfl⟩ := h
    rfl
  | tooWide => exact h.elim
  | malformed => exact h.elim

theorem totalWidth_of_resolved {find : Text → Option Nat} {ops : List Operand} {parts : List (List Byte)}
    (h : List.Forall₂ (Operand.Resolved find) ops parts) : totalWidth ops = some parts.flatten.length := by
  induction h with
  | nil => rfl
  | cons hop _ ih => simp [totalWidth, hop.width, ih]

theorem not_malformed_of_resolved {find : Text → Option Nat} {ops : List Operand} {parts : List (List Byte)}
    (h : List.Forall₂ (Operand.Resolved find) ops parts) : ops.contains .malformed = false := by
  induction h with
  | nil => rfl
  | @cons op _ _ _ hop _ ih =>
    have hne : op ≠ .malformed := by
      rintro rfl
      exact hop
    simp_all [eq_comm]

/-- 30_encoding.md R86 to R88. -/
theorem operandsBytes_eq_ok_iff (ls : Labels) (line : Nat) (ops : List Operand) (bytes : List Byte) :
    operandsBytes ls line ops = .ok bytes ↔
      ∃ parts, List.Forall₂ (Operand.Resolved ls.find) ops parts ∧ bytes = parts.flatten := by
  constructor
  · intro h
    induction ops generalizing bytes with
    | nil =>
      cases h
      exact ⟨[], .nil, rfl⟩
    | cons op ops ih =>
      unfold operandsBytes at h
      cases hrest : operandsBytes ls line ops with
      | error e => simp [hrest] at h
      | ok rest =>
        obtain ⟨parts, hparts, rfl⟩ := ih rest hrest
        cases op with
        | literal own =>
          simp only [hrest, Except.ok.injEq] at h
          exact ⟨own :: parts, .cons rfl hparts, h.symm⟩
        | label name =>
          cases hname : ls.find name with
          | none => simp [hrest, hname] at h
          | some offset =>
            by_cases hle : offset ≤ 65535
            · simp only [hrest, hname, hle, if_true, Except.ok.injEq] at h
              exact ⟨twoBytes offset :: parts, .cons ⟨offset, hle, hname, rfl⟩ hparts, h.symm⟩
            · simp [hrest, hname, hle] at h
        | tooWide => simp [hrest] at h
        | malformed => simp [hrest] at h
  · rintro ⟨parts, hparts, rfl⟩
    induction hparts with
    | nil => rfl
    | @cons op part ops parts hop _ ih =>
      cases op with
      | literal own =>
        simp only [Operand.Resolved] at hop
        simp [operandsBytes, ih, hop]
      | label name =>
        obtain ⟨offset, hle, hname, rfl⟩ := hop
        simp [operandsBytes, ih, hname, hle]
      | tooWide => exact hop.elim
      | malformed => exact hop.elim

/-- A line gives bytes exactly when it gives an instruction, and then the bytes of that. -/
theorem emitLine_eq_ok_iff (c : Catalog) (ls : Labels) (k : Nat) (mn : Text) (ops : List Text) (bytes : List Byte) :
    emitLine c ls k mn ops = .ok bytes ↔ ∃ f, Emitted c ls.find (mn, ops) f ∧ bytes = f.bytes := by
  constructor
  · intro h
    unfold emitLine at h
    split at h
    · cases h
    · rename_i d hd
      dsimp only at h
      split at h
      · cases h
      · split at h
        · rename_i hwidth
          split at h
          · rename_i operands hops
            cases h
            obtain ⟨parts, hparts, rfl⟩ := (operandsBytes_eq_ok_iff _ _ _ _).1 hops
            have hlen : parts.flatten.length = d.length :=
              Option.some.inj ((totalWidth_of_resolved hparts).symm.trans hwidth)
            exact ⟨⟨d, parts.flatten⟩, ⟨hd, ⟨parts, hparts, rfl⟩, hlen⟩, rfl⟩
          · cases h
        · cases h
  · rintro ⟨f, ⟨hd, ⟨parts, hparts, hoperands⟩, hlen⟩, rfl⟩
    have hops : operandsBytes ls k (ops.map parseOperand) = .ok f.operands :=
      (operandsBytes_eq_ok_iff _ _ _ _).2 ⟨parts, hparts, hoperands⟩
    have hwidth : totalWidth (ops.map parseOperand) = some f.descriptor.length := by
      rw [totalWidth_of_resolved hparts, ← hoperands, hlen]
    have hwell : (ops.map parseOperand).contains .malformed = false := not_malformed_of_resolved hparts
    simp only [emitLine, hd, hwell, hwidth, hops, Fetched.bytes, Bool.false_eq_true, if_false, if_true]

/-- Pass 2 answers the bytes of one instruction for each instruction line, in order (30_encoding.md R85, R89). -/
theorem pass2_eq_ok_iff (c : Catalog) (ls : Labels) (k : Nat) (lines : List Line) (bytes : List Byte) :
    pass2 c ls k lines = .ok bytes ↔
      ∃ prog, List.Forall₂ (Emitted c ls.find) (instructionLines lines) prog ∧ bytes = prog.flatMap Fetched.bytes := by
  induction lines generalizing k bytes with
  | nil => simp [pass2, eq_comm]
  | cons first rest ih =>
    cases first with
    | blank => exact ih (k + 1) bytes
    | label name => exact ih (k + 1) bytes
    | instruction mn ops =>
      constructor
      · intro h
        unfold pass2 at h
        split at h
        · cases h
        · rename_i own hown
          split at h
          · cases h
          · rename_i more hmore
            cases h
            obtain ⟨f, hf, rfl⟩ := (emitLine_eq_ok_iff _ _ _ _ _ _).1 hown
            obtain ⟨prog, hprog, rfl⟩ := (ih _ _).1 hmore
            exact ⟨f :: prog, .cons hf hprog, rfl⟩
      · rintro ⟨_, hall, rfl⟩
        obtain ⟨f, prog, hf, hprog, rfl⟩ := List.forall₂_cons_left_iff.1 hall
        have hown := (emitLine_eq_ok_iff c ls k mn ops f.bytes).2 ⟨f, hf, rfl⟩
        have hmore := (ih (k + 1) (prog.flatMap Fetched.bytes)).2 ⟨prog, hprog, rfl⟩
        simp only [pass2, hown, hmore, List.flatMap_cons]

/-! ## Both passes -/

/-- Each instruction of a program is that of one of its lines. -/
theorem exists_line_of_mem {R : Text × List Text → Fetched → Prop} {lines : List (Text × List Text)} {prog : List Fetched}
    (h : List.Forall₂ R lines prog) : ∀ f ∈ prog, ∃ line, R line f := by
  induction h with
  | nil => simp
  | cons hf _ ih => exact List.forall_mem_cons.2 ⟨⟨_, hf⟩, ih⟩

/-- The instructions of a program are cut where its lines are cut. -/
theorem exists_append_of_lines {R : Text × List Text → Fetched → Prop} {first rest : List (Text × List Text)}
    {prog : List Fetched} (h : List.Forall₂ R (first ++ rest) prog) :
    ∃ p q, List.Forall₂ R first p ∧ List.Forall₂ R rest q ∧ prog = p ++ q :=
  ⟨_, _, (List.forall₂_take_append _ _ _ h.flip).flip, (List.forall₂_drop_append _ _ _ h.flip).flip,
    (List.take_append_drop _ _).symm⟩

/-- A program assembles exactly when no label is defined twice and every instruction line gives an instruction, and then to
the bytes of these (30_encoding.md R83 to R89). Labels count by their offsets alone. -/
theorem assembleLines_eq_ok_iff (c : Catalog) (lines : List Line) (bytes : List Byte) :
    assembleLines c lines = .ok bytes ↔
      (labelNames lines).Nodup ∧
        ∃ prog, List.Forall₂ (Emitted c (labelOffset c lines)) (instructionLines lines) prog ∧
          bytes = prog.flatMap Fetched.bytes := by
  by_cases hfresh : FreshLabels [] lines
  · obtain ⟨ls, hok, hfind⟩ := pass1_of_fresh (c := c) hfresh 1 0
    have hoffset : ls.find = labelOffset c lines := by
      funext l
      simp [hfind l, Labels.find]
    simp only [assembleLines, hok, pass2_eq_ok_iff, hoffset, (freshLabels_nil_iff lines).1 hfresh, true_and]
  · obtain ⟨k, herr⟩ := pass1_of_not_fresh (c := c) hfresh 1 0
    rw [freshLabels_nil_iff] at hfresh
    simp [assembleLines, herr, hfresh]

/-- Settles O59: a program with a label defined twice is not fresh, and pass 1 rejects it (`pass1_of_not_fresh`). -/
theorem duplicateLabelIsRejected : Obligations.DuplicateLabelIsRejected := by
  intro c before between after l
  have hdup : ¬ FreshLabels [] (before ++ .label l :: between ++ .label l :: after) := by
    rw [freshLabels_nil_iff]
    simp [List.nodup_append]
  obtain ⟨k, hk⟩ := pass1_of_not_fresh (c := c) hdup 1 0
  exact ⟨k, by simp only [assembleLines, hk]⟩

/-- Settles O58: what a program assembles to hangs on its label names up to order, its instruction lines, and the offsets
of its labels (`assembleLines_eq_ok_iff`), and the exchange keeps all three. -/
theorem labelOrderDoesNotMatter : Obligations.LabelOrderDoesNotMatter := by
  intro c before after l l' bytes
  have hnames : (labelNames (before ++ .label l :: .label l' :: after)).Perm
      (labelNames (before ++ .label l' :: .label l :: after)) := by
    simpa using List.Perm.append_left _ (List.Perm.swap l' l _)
  have hoffset : labelOffset c (before ++ .label l :: .label l' :: after) =
      labelOffset c (before ++ .label l' :: .label l :: after) := by
    funext name
    by_cases h : l = name <;> by_cases h' : l' = name <;> simp [labelOffset_append, labelOffset_label, h, h']
  rw [assembleLines_eq_ok_iff, assembleLines_eq_ok_iff, hnames.nodup_iff, hoffset]
  simp

/-! ## The bytes a program assembles to -/

theorem findDescriptor_eq_some {c : Catalog} {mn : Text} {d : Descriptor} (h : findDescriptor c mn = some d) :
    d ∈ c ∧ d.mnemonic = mn :=
  ⟨List.mem_of_find?_eq_some h, by simpa using List.find?_some h⟩

theorem tokenBytes_of_resolved {c : Catalog} {lines : List Line} {token : Text} {bytes : List Byte}
    (h : (parseOperand token).Resolved (labelOffset c lines) bytes) : tokenBytes c lines token = some bytes := by
  unfold tokenBytes
  cases hop : parseOperand token with
  | literal own =>
    simp only [hop, Operand.Resolved] at h
    simp [h]
  | label name =>
    rw [hop] at h
    obtain ⟨offset, -, hoffset, rfl⟩ := h
    simp [hoffset]
  | tooWide => simp [hop, Operand.Resolved] at h
  | malformed => simp [hop, Operand.Resolved] at h

theorem tokensBytes_of_resolved {c : Catalog} {lines : List Line} {tokens : List Text} {parts : List (List Byte)}
    (h : List.Forall₂ (Operand.Resolved (labelOffset c lines)) (tokens.map parseOperand) parts) :
    tokensBytes c lines tokens = some parts.flatten := by
  induction tokens generalizing parts with
  | nil =>
    cases h
    rfl
  | cons token tokens ih =>
    cases h with
    | cons htoken hrest => simp [tokensBytes, tokenBytes_of_resolved htoken, ih hrest]

/-- The instruction that pass 2 emits for a line is the one the line writes. -/
theorem Emitted.written {c : Catalog} {lines : List Line} {line : Text × List Text} {f : Fetched}
    (h : Emitted c (labelOffset c lines) line f) : Written c lines line f := by
  obtain ⟨hmem, hname⟩ := findDescriptor_eq_some h.descriptor
  obtain ⟨parts, hparts, hoperands⟩ := h.operands
  exact ⟨hmem, hname, by rw [hoperands, tokensBytes_of_resolved hparts], h.length⟩

/-- Settles O57: the instructions that the program assembles to (`assembleLines_eq_ok_iff`) are those its lines write, and
their bytes decode back (`decodeFetched_bytes_append`). -/
theorem assembledStreamIsAProgram : Obligations.AssembledStreamIsAProgram := by
  intro c source bytes hc h lines
  obtain ⟨-, prog, hprog, hbytes⟩ := (assembleLines_eq_ok_iff c lines bytes).1 h
  have hwritten : List.Forall₂ (Written c lines) (instructionLines lines) prog :=
    hprog.imp fun _ _ => Emitted.written
  refine ⟨prog, hbytes, hwritten, fun f hf rest => ?_⟩
  obtain ⟨line, hd, -, -, hlen⟩ := exists_line_of_mem hwritten f hf
  exact decodeFetched_bytes_append hc hd hlen rest

/-- An emitted instruction has as many bytes as pass 1 counts for its line (30_encoding.md R83). -/
theorem Emitted.bytes_length {c : Catalog} {find : Text → Option Nat} {line : Text × List Text} {f : Fetched}
    (h : Emitted c find line f) : f.bytes.length = lineLength c line.1 := by
  simp [Fetched.bytes, lineLength, h.descriptor, h.length, Nat.add_comm]

/-- The instructions of some lines have as many bytes as pass 1 counts for the lines. -/
theorem length_flatMap_bytes_of_emitted {c : Catalog} {find : Text → Option Nat} {lines : List Line}
    {prog : List Fetched} (h : List.Forall₂ (Emitted c find) (instructionLines lines) prog) :
    (prog.flatMap Fetched.bytes).length = programSize c lines := by
  unfold programSize
  generalize instructionLines lines = ilines at h
  induction h with
  | nil => rfl
  | cons hf _ ih => simp [hf.bytes_length, ih]

theorem parseOperand_of_isName {token : Text} (h : isName token = true) : parseOperand token = .label token := by
  simp [parseOperand, h]

/-- The operand bytes of a line whose one operand is a label are the two of the label's offset (30_encoding.md R86). -/
theorem Emitted.operands_of_label {c : Catalog} {find : Text → Option Nat} {mn l : Text} {f : Fetched}
    (h : Emitted c find (mn, [l]) f) (hl : isName l = true) :
    ∃ offset, offset ≤ 65535 ∧ find l = some offset ∧ f.operands = twoBytes offset := by
  obtain ⟨parts, hparts, hoperands⟩ := h.operands
  rw [List.map_singleton, parseOperand_of_isName hl] at hparts
  obtain ⟨part, rest, ⟨offset, hle, hfind, rfl⟩, hrest, rfl⟩ := List.forall₂_cons_left_iff.1 hparts
  cases hrest
  exact ⟨offset, hle, hfind, by simpa using hoperands⟩

/-- Settles O60: the stream is cut at the line of the use, whose one operand resolves to the label's offset. -/
theorem labelOperandEmitsItsOffset : Obligations.LabelOperandEmitsItsOffset := by
  intro c lines beforeUse afterUse beforeLabel afterLabel mnemonic l bytes huse hlabel hname h
  obtain ⟨hnodup, prog, hprog, rfl⟩ := (assembleLines_eq_ok_iff c lines bytes).1 h
  have hoffset : labelOffset c lines l = some (programSize c beforeLabel) := by
    subst hlabel
    exact labelOffset_of_nodup hnodup
  have hlines : instructionLines lines =
      instructionLines beforeUse ++ (mnemonic, [l]) :: instructionLines afterUse := by
    rw [huse, instructionLines_append, instructionLines_instruction]
  rw [hlines] at hprog
  obtain ⟨first, rest, hfirst, hrest, rfl⟩ := exists_append_of_lines hprog
  obtain ⟨f, last, hf, -, rfl⟩ := List.forall₂_cons_left_iff.1 hrest
  obtain ⟨hmem, hmn⟩ := findDescriptor_eq_some hf.descriptor
  obtain ⟨offset, hle, hfind, hops⟩ := hf.operands_of_label hname
  rw [hoffset] at hfind
  cases hfind
  refine ⟨f.descriptor, first.flatMap Fetched.bytes, last.flatMap Fetched.bytes,
    BitVec.ofNat 16 (programSize c beforeLabel), hmem, hmn, ?_, length_flatMap_bytes_of_emitted hfirst, ?_⟩
  · simp [Fetched.bytes, hops, twoBytes]
  · rw [BitVec.toNat_ofNat]
    omega

end Sys2Proof.Machine

/-! Arithmetic and shifts (41_arithmetic.md R100 to R125): the opcodes, the flags that each ALU operation commits, and what
the flag values of an instruction say of the byte it writes. -/

namespace Sys2Proof

/-- An opcode of the reference catalog, with as many operand bytes as its mnemonic has, decodes to that mnemonic's
instruction (30_encoding.md R60 to R63, R67). -/
theorem decode_of_lookup_rule {op : Byte} {m : Mnemonic} {operands : List Byte}
    (hrule : (Catalog.reference.lookup op).map Descriptor.rule = some (.reference m))
    (hlen : operands.length = m.operandLength) (rest : List Byte) :
    decode (op :: (operands ++ rest)) = .ok (m.instr operands, rest) := by
  obtain ⟨d, hd, hm⟩ := Option.map_eq_some_iff.1 hrule
  obtain ⟨hmem, rfl⟩ := Machine.Catalog.lookup_mem _ _ _ hd
  have hwf : Catalog.reference.wf = true := referenceCatalogIsWellFormed.1
  have hfetched : decodeFetched Catalog.reference (d.opcode :: (operands ++ rest)) = .ok (⟨d, operands⟩, rest) :=
    (decodeFetched_eq_ok_iff _ _ _ ⟨d, operands⟩).2
      ⟨hd, hlen.trans (Catalog.length_of_reference hwf hmem hm).symm, rfl⟩
  have hinstr : Fetched.instr ⟨d, operands⟩ = some (m.instr operands) := by simp only [Fetched.instr, hm]
  exact (decodeWith_eq_ok_iff _ _ _ _).2 ⟨_, hfetched, hinstr⟩

end Sys2Proof

namespace Sys2Proof.Machine

/-! ## What the flag values of an instruction say of the byte it writes -/

/-- The values are those of an instruction that wrote `res`: Z by the Zero law (41_arithmetic.md R100, R101), and N, unless
it is the sign of a difference, by the general law (R104). -/
structure FlagValues.DescribeByte (v : FlagValues) (signOfDifference : Bool) (res : Byte) : Prop where
  z_eq : v.z = some (isZero res)
  n_eq : signOfDifference = false → v.n = some (highBit res)

theorem FlagValues.DescribeByte.commit_z_iff {v : FlagValues} {sd : Bool} {res : Byte} (hv : v.DescribeByte sd res)
    {d : FlagSet} (hz : d.z = true) (f : Flags) : (f.commit d v).z = true ↔ res = 0 := by
  simp [hz, hv.z_eq, isZero]

theorem FlagValues.DescribeByte.commit_n {v : FlagValues} {res : Byte} (hv : v.DescribeByte false res)
    {d : FlagSet} (hn : d.n = true) (f : Flags) : (f.commit d v).n = res.msb := by
  simp [hn, hv.n_eq rfl, highBit]

/-- Whatever register an instruction writes, the values it commits describe the byte it leaves there; those that write N
in the reference catalog are the subtractions, whose N is the sign of the difference. -/
theorem exec_values_describe {i : Instr} {s t : State} (h : exec i s = .next t) :
    ∃ v, t.flags = s.flags.commit (s.declared i.mnemonic) v ∧
      (i.mnemonic.writesA = true → v.DescribeByte i.mnemonic.writesN t.a) ∧
      (i.mnemonic.writesX = true → v.DescribeByte i.mnemonic.writesN t.x) ∧
      (i.mnemonic.writesY = true → v.DescribeByte i.mnemonic.writesN t.y) := by
  cases i
  case addx | addy | addi | addm | inca | shla | shra | ldai | ldam | ldaxy | ldao | txa | tya =>
    cases h
    exact ⟨_, rfl, fun _ => ⟨rfl, fun _ => rfl⟩, nofun, nofun⟩
  case incx | ldxi | ldxm | tax =>
    cases h
    exact ⟨_, rfl, nofun, fun _ => ⟨rfl, fun _ => rfl⟩, nofun⟩
  case incy | ldyi | ldym | tay =>
    cases h
    exact ⟨_, rfl, nofun, nofun, fun _ => ⟨rfl, fun _ => rfl⟩⟩
  case subx | suby | subi | subm | deca =>
    cases h
    exact ⟨_, rfl, fun _ => ⟨rfl, nofun⟩, nofun, nofun⟩
  case decx =>
    cases h
    exact ⟨_, rfl, nofun, fun _ => ⟨rfl, nofun⟩, nofun⟩
  case decy =>
    cases h
    exact ⟨_, rfl, nofun, nofun, fun _ => ⟨rfl, nofun⟩⟩
  all_goals
    obtain ⟨-, ⟨v, hv⟩, -⟩ := exec_fields h
    exact ⟨v, hv, nofun, nofun, nofun⟩

/-- Settles O21: the instructions listed for N are writers that are no subtraction, and a declared flag is committed from
values that describe the byte written (`exec_values_describe`). -/
theorem highBitLawOfOtherCatalogs : Obligations.HighBitLawOfOtherCatalogs := by
  intro s t i h
  obtain ⟨v, hflags, ha, hx, hy⟩ := exec_values_describe h
  rw [hflags]
  refine ⟨fun hn => ⟨fun hm => ?_, fun hm => ?_, fun hm => ?_⟩, fun hz =>
    ⟨fun hw => (ha hw).commit_z_iff hz _, fun hw => (hx hw).commit_z_iff hz _, fun hw => (hy hw).commit_z_iff hz _⟩⟩
  · obtain ⟨hw, hsub⟩ := (by decide : ∀ m ∈ _, Mnemonic.writesA m = true ∧ Mnemonic.writesN m = false) _ hm
    exact (hsub ▸ ha hw).commit_n hn _
  · obtain ⟨hw, hsub⟩ := (by decide : ∀ m ∈ _, Mnemonic.writesX m = true ∧ Mnemonic.writesN m = false) _ hm
    exact (hsub ▸ hx hw).commit_n hn _
  · obtain ⟨hw, hsub⟩ := (by decide : ∀ m ∈ _, Mnemonic.writesY m = true ∧ Mnemonic.writesN m = false) _ hm
    exact (hsub ▸ hy hw).commit_n hn _

/-! ## The flags that an ALU operation commits in the reference catalog -/

theorem State.commit_addOp {s : State} (href : s.RunsReference) {m : Mnemonic} (hm : Mnemonic.referenceFlags m = touchesZO)
    (a b : Byte) : s.flags.commit (s.declared m) (addOp a b).values =
      { s.flags with
        z := decide ((a.toNat + b.toNat) % 256 = 0), o := decide (255 < a.toNat + b.toNat) } := by
  rw [State.declared_reference href, hm, addOp_eq, Flags.commit_zo]
  rfl

theorem State.commit_subOp {s : State} (href : s.RunsReference) {m : Mnemonic} (hm : Mnemonic.referenceFlags m = touchesZN)
    (a b : Byte) : s.flags.commit (s.declared m) (subOp a b).values =
      { s.flags with z := decide (a = b), n := decide (a.toNat < b.toNat) } := by
  rw [State.declared_reference href, hm, subOp_eq, Flags.commit_zn]
  rfl

/-- Adding 1 wraps to 0, and overflows, at 255 alone (41_arithmetic.md R106). -/
theorem State.commit_addOp_one {s : State} (href : s.RunsReference) {m : Mnemonic} (hm : Mnemonic.referenceFlags m = touchesZO)
    (r : Byte) : s.flags.commit (s.declared m) (addOp r 1).values =
      { s.flags with z := decide (r = 255), o := decide (r = 255) } := by
  have hr : r = 255 ↔ r.toNat = 255 := BitVec.toNat_inj.symm
  have hlt := r.isLt
  have hone : (1 : Byte).toNat = 1 := rfl
  have hz : (r.toNat + (1 : Byte).toNat) % 256 = 0 ↔ r = 255 := by rw [hr, hone]; omega
  have ho : 255 < r.toNat + (1 : Byte).toNat ↔ r = 255 := by rw [hr, hone]; omega
  simp only [State.commit_addOp href hm, hz, ho]

/-- Subtracting 1 borrows at 0 alone (41_arithmetic.md R106). -/
theorem State.commit_subOp_one {s : State} (href : s.RunsReference) {m : Mnemonic} (hm : Mnemonic.referenceFlags m = touchesZN)
    (r : Byte) : s.flags.commit (s.declared m) (subOp r 1).values =
      { s.flags with z := decide (r = 1), n := decide (r = 0) } := by
  have hn : r.toNat < (1 : Byte).toNat ↔ r = 0 := by
    rw [← BitVec.toNat_inj]
    exact Nat.lt_one_iff
  simp only [State.commit_subOp href hm, hn]

theorem State.commit_shlOp {s : State} (href : s.RunsReference) (a : Byte) :
    s.flags.commit (s.declared .shla) (shlOp a).values =
      { s.flags with z := decide (2 * a.toNat % 256 = 0), o := decide (255 < 2 * a.toNat) } := by
  rw [State.declared_reference href, shlOp_eq]
  rfl

theorem State.commit_shrOp {s : State} (href : s.RunsReference) (a : Byte) :
    s.flags.commit (s.declared .shra) (shrOp a).values = { s.flags with z := decide (a.toNat ≤ 1) } := by
  have hz : (shrOp a).values.z.getD s.flags.z = decide (a.toNat ≤ 1) := by rw [shrOp_z, Option.getD_some]
  rw [State.declared_reference href, ← hz]
  rfl

/-! ## The byte that an ALU operation writes -/

theorem addOp_res (a b : Byte) : (addOp a b).res = BitVec.ofNat 8 ((a.toNat + b.toNat) % 256) :=
  (byte_ofNat_mod _).symm

theorem subOp_res (a b : Byte) : (subOp a b).res = BitVec.ofNat 8 (((a.toNat : Int) - b.toNat) % 256).toNat :=
  byte_ofInt_sub a b

/-- Subtracting 1 is adding 255 modulo 256. -/
theorem subOp_one_res (r : Byte) : (subOp r 1).res = BitVec.ofNat 8 ((r.toNat + 255) % 256) := by
  have hone : (1 : Byte).toNat = 1 := rfl
  rw [subOp_res, hone]
  congr 1
  omega

theorem shlOp_res (a : Byte) : (shlOp a).res = BitVec.ofNat 8 (2 * a.toNat % 256) :=
  (byte_ofNat_mod _).symm

/-! ## The instructions -/

/-- Settles O16: each of the four adds a byte to A (`aluToA_eq`) and commits Z and O (`State.commit_addOp`). -/
theorem additionInstructions : Obligations.AdditionInstructions := by
  refine ⟨fun imm8 hi lo rest => ⟨decode_of_lookup_rule (m := .addx) (operands := []) rfl rfl rest,
    decode_of_lookup_rule (m := .addy) (operands := []) rfl rfl rest,
    decode_of_lookup_rule (m := .addi) (operands := [imm8]) rfl rfl rest,
    decode_of_lookup_rule (m := .addm) (operands := [hi, lo]) rfl rfl rest⟩, ?_⟩
  intro s imm8 addr16 href sum
  have hsum {m : Mnemonic} (hm : Mnemonic.referenceFlags m = touchesZO) (b : Byte) :
      aluToA m (addOp s.a b) s = .next (sum m.operandLength b) := by
    rw [aluToA_eq, State.commit_addOp href hm, addOp_res]
  rw [← State.memRead_eaDirect]
  exact ⟨hsum (m := .addx) rfl _, hsum (m := .addy) rfl _, hsum (m := .addi) rfl _, hsum (m := .addm) rfl _⟩

/-- Settles O17: each of the four subtracts a byte from A (`aluToA_eq`) and commits Z and N (`State.commit_subOp`). -/
theorem subtractionInstructions : Obligations.SubtractionInstructions := by
  refine ⟨fun imm8 hi lo rest => ⟨decode_of_lookup_rule (m := .subx) (operands := []) rfl rfl rest,
    decode_of_lookup_rule (m := .suby) (operands := []) rfl rfl rest,
    decode_of_lookup_rule (m := .subi) (operands := [imm8]) rfl rfl rest,
    decode_of_lookup_rule (m := .subm) (operands := [hi, lo]) rfl rfl rest⟩, ?_⟩
  intro s imm8 addr16 href diff
  have hdiff {m : Mnemonic} (hm : Mnemonic.referenceFlags m = touchesZN) (b : Byte) :
      aluToA m (subOp s.a b) s = .next (diff m.operandLength b) := by
    rw [aluToA_eq, State.commit_subOp href hm, subOp_res]
  rw [← State.memRead_eaDirect]
  exact ⟨hdiff (m := .subx) rfl _, hdiff (m := .suby) rfl _, hdiff (m := .subi) rfl _, hdiff (m := .subm) rfl _⟩

/-- Settles O18: each adds 1 to its register, and commits Z and O (`State.commit_addOp_one`). -/
theorem incrementInstructions : Obligations.IncrementInstructions := by
  refine ⟨fun rest => ⟨decode_of_lookup_rule (m := .inca) (operands := []) rfl rfl rest,
    decode_of_lookup_rule (m := .incx) (operands := []) rfl rfl rest,
    decode_of_lookup_rule (m := .incy) (operands := []) rfl rfl rest⟩, ?_⟩
  intro s href flags res
  have hflags {m : Mnemonic} (hm : Mnemonic.referenceFlags m = touchesZO) (r : Byte) :
      s.flags.commit (s.declared m) (addOp r 1).values = flags r := State.commit_addOp_one href hm r
  have hres (r : Byte) : (addOp r 1).res = res r := addOp_res r 1
  refine ⟨(aluToA_eq .inca _ s).trans ?_, (aluToX_eq .incx _ s).trans ?_, (aluToY_eq .incy _ s).trans ?_⟩ <;>
    rw [hflags rfl, hres] <;> rfl

/-- Settles O19: each subtracts 1 from its register, and commits Z and N (`State.commit_subOp_one`). -/
theorem decrementInstructions : Obligations.DecrementInstructions := by
  refine ⟨fun rest => ⟨decode_of_lookup_rule (m := .deca) (operands := []) rfl rfl rest,
    decode_of_lookup_rule (m := .decx) (operands := []) rfl rfl rest,
    decode_of_lookup_rule (m := .decy) (operands := []) rfl rfl rest⟩, ?_⟩
  intro s href flags res
  have hflags {m : Mnemonic} (hm : Mnemonic.referenceFlags m = touchesZN) (r : Byte) :
      s.flags.commit (s.declared m) (subOp r 1).values = flags r := State.commit_subOp_one href hm r
  have hres (r : Byte) : (subOp r 1).res = res r := subOp_one_res r
  refine ⟨(aluToA_eq .deca _ s).trans ?_, (aluToX_eq .decx _ s).trans ?_, (aluToY_eq .decy _ s).trans ?_⟩ <;>
    rw [hflags rfl, hres] <;> rfl

/-- Settles O20: SHLA doubles A and commits Z and O (`State.commit_shlOp`), SHRA halves A and commits Z alone
(`State.commit_shrOp`). -/
theorem shiftInstructions : Obligations.ShiftInstructions := by
  refine ⟨fun rest => ⟨decode_of_lookup_rule (m := .shla) (operands := []) rfl rfl rest,
    decode_of_lookup_rule (m := .shra) (operands := []) rfl rfl rest⟩, fun s href => ⟨?_, ?_⟩⟩
  · refine (aluToA_eq .shla _ s).trans ?_
    rw [State.commit_shlOp href, shlOp_res]
    rfl
  · refine (aluToA_eq .shra _ s).trans ?_
    rw [State.commit_shrOp href]
    rfl

end Sys2Proof.Machine

/-! Data movement (42_data_movement.md R140 to R157): the opcodes, the flags that a load or transfer commits, the memory a
store leaves, and the two composed. -/

namespace Sys2Proof.Machine

/-! ## Loads and transfers in the reference catalog -/

/-- An instruction for which 30_encoding.md R68 declares no flag changes none, whatever values its rule yields (R73). -/
theorem State.commit_of_no_flag {s : State} (href : s.RunsReference) {m : Mnemonic}
    (hm : Mnemonic.referenceFlags m = .empty) (v : FlagValues) : s.flags.commit (s.declared m) v = s.flags := by
  rw [State.declared_reference href, hm, Flags.commit_empty]

theorem moveToA_of_no_flag {s : State} (href : s.RunsReference) {m : Mnemonic} (hm : Mnemonic.referenceFlags m = .empty)
    (v : Byte) : moveToA m v s = .next { s.past m.operandLength s.flags with a := v } := by
  rw [moveToA_eq, State.commit_of_no_flag href hm]

theorem moveToX_of_no_flag {s : State} (href : s.RunsReference) {m : Mnemonic} (hm : Mnemonic.referenceFlags m = .empty)
    (v : Byte) : moveToX m v s = .next { s.past m.operandLength s.flags with x := v } := by
  rw [moveToX_eq, State.commit_of_no_flag href hm]

theorem moveToY_of_no_flag {s : State} (href : s.RunsReference) {m : Mnemonic} (hm : Mnemonic.referenceFlags m = .empty)
    (v : Byte) : moveToY m v s = .next { s.past m.operandLength s.flags with y := v } := by
  rw [moveToY_eq, State.commit_of_no_flag href hm]

/-! ## Stores -/

/-- A store, in every catalog, leaves a memory that reads as the byte stored at the reduced address and as before at every
other (20_memory.md R42). -/
theorem storeAt_reads {s : State} (hwf : Memory.wf s.mem = true) (m : Mnemonic) (ea : Nat) (v : Byte) :
    ∃ mem : Memory, storeAt m ea v s = .next { s.past m.operandLength s.flags with mem := mem } ∧
      ∀ addr, Memory.read mem addr = if addr = s.wrap ea then v else Memory.read s.mem addr :=
  ⟨_, storeAt_eq m ea v s, fun addr => Memory.read_write hwf _ addr v⟩

/-! ## The instructions -/

/-- Settles O26: STAXY changes memory but neither X, Y nor the memory size, so LDAXY reads at the address it stored to
(`Memory.read_write_same`). -/
theorem indexedWriteThenReadReturnsTheByte : Obligations.IndexedWriteThenReadReturnsTheByte := by
  intro s t u v hwf hstore hload
  obtain rfl := Host.Outcome.next.inj ((storeAt_eq .staxy s.eaIndexed s.a s).symm.trans hstore)
  obtain rfl := Host.Outcome.next.inj ((moveToA_eq .ldaxy _ _).symm.trans hload)
  exact ⟨Memory.read_write_same hwf (s.wrap s.eaIndexed) s.a, rfl⟩

/-- Settles O22: each of the four puts in A the immediate byte or the byte at its effective address
(`moveToA_of_no_flag`). -/
theorem accumulatorLoads : Obligations.AccumulatorLoads := by
  refine ⟨fun imm8 hi lo rest => ⟨decode_of_lookup_rule (m := .ldai) (operands := [imm8]) rfl rfl rest,
    decode_of_lookup_rule (m := .ldam) (operands := [hi, lo]) rfl rfl rest,
    decode_of_lookup_rule (m := .ldaxy) (operands := []) rfl rfl rest,
    decode_of_lookup_rule (m := .ldao) (operands := [hi, lo]) rfl rfl rest⟩, ?_⟩
  intro s imm8 addr16 href size
  rw [← State.memRead_eaDirect, ← State.memRead_eaIndexed, ← State.memRead_eaOffset]
  exact ⟨moveToA_of_no_flag href (m := .ldai) rfl _, moveToA_of_no_flag href (m := .ldam) rfl _,
    moveToA_of_no_flag href (m := .ldaxy) rfl _, moveToA_of_no_flag href (m := .ldao) rfl _⟩

/-- Settles O23: each of the four puts in X or Y the immediate byte or the byte at the direct address
(`moveToX_of_no_flag`, `moveToY_of_no_flag`). -/
theorem indexRegisterLoads : Obligations.IndexRegisterLoads := by
  refine ⟨fun imm8 hi lo rest => ⟨decode_of_lookup_rule (m := .ldxi) (operands := [imm8]) rfl rfl rest,
    decode_of_lookup_rule (m := .ldxm) (operands := [hi, lo]) rfl rfl rest,
    decode_of_lookup_rule (m := .ldyi) (operands := [imm8]) rfl rfl rest,
    decode_of_lookup_rule (m := .ldym) (operands := [hi, lo]) rfl rfl rest⟩, ?_⟩
  intro s imm8 addr16 href
  rw [← State.memRead_eaDirect]
  exact ⟨moveToX_of_no_flag href (m := .ldxi) rfl _, moveToX_of_no_flag href (m := .ldxm) rfl _,
    moveToY_of_no_flag href (m := .ldyi) rfl _, moveToY_of_no_flag href (m := .ldym) rfl _⟩

/-- Settles O24: each of the five stores a register's byte (`storeAt_reads`) at an address that is already reduced. -/
theorem storeInstructions : Obligations.StoreInstructions := by
  refine ⟨fun hi lo rest => ⟨decode_of_lookup_rule (m := .stam) (operands := [hi, lo]) rfl rfl rest,
    decode_of_lookup_rule (m := .staxy) (operands := []) rfl rfl rest,
    decode_of_lookup_rule (m := .stao) (operands := [hi, lo]) rfl rfl rest,
    decode_of_lookup_rule (m := .stxm) (operands := [hi, lo]) rfl rfl rest,
    decode_of_lookup_rule (m := .stym) (operands := [hi, lo]) rfl rfl rest⟩, ?_⟩
  intro s addr16 _ hwf size stores
  rw [← State.wrap_eaDirect, ← State.wrap_eaIndexed, ← State.wrap_eaOffset]
  exact ⟨storeAt_reads hwf .stam _ _, storeAt_reads hwf .staxy _ _, storeAt_reads hwf .stao _ _,
    storeAt_reads hwf .stxm _ _, storeAt_reads hwf .stym _ _⟩

/-- Settles O25: each of the four puts one register's byte in another (`moveToA_of_no_flag`, `moveToX_of_no_flag`,
`moveToY_of_no_flag`). -/
theorem transferInstructions : Obligations.TransferInstructions := by
  refine ⟨fun rest => ⟨decode_of_lookup_rule (m := .tax) (operands := []) rfl rfl rest,
    decode_of_lookup_rule (m := .txa) (operands := []) rfl rfl rest,
    decode_of_lookup_rule (m := .tay) (operands := []) rfl rfl rest,
    decode_of_lookup_rule (m := .tya) (operands := []) rfl rfl rest⟩, fun s href => ?_⟩
  exact ⟨moveToX_of_no_flag href (m := .tax) rfl _, moveToA_of_no_flag href (m := .txa) rfl _,
    moveToY_of_no_flag href (m := .tay) rfl _, moveToA_of_no_flag href (m := .tya) rfl _⟩

end Sys2Proof.Machine

/-! Control transfer (43_control.md R180 to R193): the opcodes, what a jump answers when it is taken and when it is not, the
targets of the relative jumps, and the halt. -/

namespace Sys2Proof.Machine

/-! ## Jumps to a direct address -/

/-- A jump whose body is taken, in every catalog: PC is the reduced address (43_control.md R180, R181). -/
theorem finish_jumpTo (m : Mnemonic) (addr16 : Addr16) (s : State) :
    finish m s ((s.advance m).jumpTo addr16) .none =
      .next { s.past m.operandLength s.flags with pc := BitVec.ofNat 16 (addr16.toNat % s.params.memSize) } := by
  rw [finish_none]
  rfl

/-- A conditional jump, in every catalog: not taken, it leaves PC as advanced (43_control.md R180). -/
theorem finish_jumpIf (m : Mnemonic) (cond : Bool) (addr16 : Addr16) (s : State) :
    finish m s ((s.advance m).jumpIf cond addr16) .none =
      .next (if cond = true then
          { s.past m.operandLength s.flags with pc := BitVec.ofNat 16 (addr16.toNat % s.params.memSize) }
        else s.past m.operandLength s.flags) := by
  cases cond with
  | true => exact finish_jumpTo m addr16 s
  | false =>
    rw [finish_none]
    rfl

/-- A jump on a clear flag takes the branches of the jump on the set flag the other way round. -/
theorem finish_jumpIf_not (m : Mnemonic) (flag : Bool) (addr16 : Addr16) (s : State) :
    finish m s ((s.advance m).jumpIf (!flag) addr16) .none =
      .next (if flag = true then s.past m.operandLength s.flags
        else { s.past m.operandLength s.flags with pc := BitVec.ofNat 16 (addr16.toNat % s.params.memSize) }) := by
  rw [finish_jumpIf]
  cases flag <;> rfl

/-- Settles O27: JMP is taken (`finish_jumpTo`), and the others on a set flag (`finish_jumpIf`) or on a clear one
(`finish_jumpIf_not`). -/
theorem directJumps : Obligations.DirectJumps := by
  refine ⟨fun hi lo rest => ⟨decode_of_lookup_rule (m := .jmp) (operands := [hi, lo]) rfl rfl rest,
    decode_of_lookup_rule (m := .jz) (operands := [hi, lo]) rfl rfl rest,
    decode_of_lookup_rule (m := .jnz) (operands := [hi, lo]) rfl rfl rest,
    decode_of_lookup_rule (m := .jn) (operands := [hi, lo]) rfl rfl rest,
    decode_of_lookup_rule (m := .jnn) (operands := [hi, lo]) rfl rfl rest,
    decode_of_lookup_rule (m := .jo) (operands := [hi, lo]) rfl rfl rest,
    decode_of_lookup_rule (m := .jno) (operands := [hi, lo]) rfl rfl rest⟩, ?_⟩
  intro s addr16 _ taken fallsThrough
  exact ⟨finish_jumpTo .jmp addr16 s, finish_jumpIf .jz s.flags.z addr16 s, finish_jumpIf_not .jnz s.flags.z addr16 s,
    finish_jumpIf .jn s.flags.n addr16 s, finish_jumpIf_not .jnn s.flags.n addr16 s,
    finish_jumpIf .jo s.flags.o addr16 s, finish_jumpIf_not .jno s.flags.o addr16 s⟩

/-! ## Relative jumps -/

/-- An integer reduced modulo `MEM_SIZE` fits PC, negative ones included (00_scope.md R11, 10_state.md R24). -/
theorem pc_toNat_of_emod {size : Nat} (target : Int) (h0 : 0 < size) (h : size ≤ 65536) :
    ((BitVec.ofNat 16 (target % (size : Int)).toNat : Addr16).toNat : Int) = target % size := by
  have hnonneg := Int.emod_nonneg target (by omega : (size : Int) ≠ 0)
  have hlt := Int.emod_lt_of_pos target (by omega : 0 < (size : Int))
  rw [BitVec.toNat_ofNat]
  omega

/-- The advanced PC is the sum modulo `MEM_SIZE` (30_encoding.md R71). -/
theorem State.InBounds.advance_pc_toNat {s : State} (h : s.InBounds) (m : Mnemonic) :
    ((s.advance m).pc.toNat : Int) = ((s.pc.toNat : Int) + 1 + m.operandLength) % s.params.memSize := by
  rw [State.advance_pc, pc_toNat_of_mod h.memSize_pos h.memSize_le]
  push_cast
  rfl

/-- The reduction of the advanced PC is absorbed by that of the target. -/
theorem State.InBounds.jumpForward_advance_pc {s : State} (h : s.InBounds) (m : Mnemonic) :
    ((s.advance m).jumpForward.pc.toNat : Int) =
      ((s.pc.toNat : Int) + 1 + m.operandLength + s.x.toNat) % s.params.memSize := by
  rw [State.jumpForward_pc, State.advance_params, pc_toNat_of_mod h.memSize_pos h.memSize_le, Int.natCast_mod,
    Int.natCast_add, h.advance_pc_toNat, State.advance_x, Int.emod_add_emod]

/-- As `State.InBounds.jumpForward_advance_pc`, for a target that may be negative before it is reduced. -/
theorem State.InBounds.jumpBackward_advance_pc {s : State} (h : s.InBounds) (m : Mnemonic) :
    ((s.advance m).jumpBackward.pc.toNat : Int) =
      ((s.pc.toNat : Int) + 1 + m.operandLength - s.x.toNat) % s.params.memSize := by
  rw [State.jumpBackward_pc, State.advance_params, pc_toNat_of_emod _ h.memSize_pos h.memSize_le,
    h.advance_pc_toNat, State.advance_x, Int.emod_sub_emod]

/-- Settles O28: the bodies write PC alone (`finish_none`), and the target counts from the PC as advanced
(`State.InBounds.jumpForward_advance_pc`, `State.InBounds.jumpBackward_advance_pc`). -/
theorem relativeJumps : Obligations.RelativeJumps := by
  refine ⟨fun rest => ⟨decode_of_lookup_rule (m := .jrf) (operands := []) rfl rfl rest,
    decode_of_lookup_rule (m := .jrb) (operands := []) rfl rfl rest⟩, fun s _ hs => ?_⟩
  have hforward := hs.inBounds.jumpForward_advance_pc .jrf
  have hbackward := hs.inBounds.jumpBackward_advance_pc .jrb
  have hlen : ((s.pc.toNat : Int) + 1 + (0 : Nat)) = s.pc.toNat + 1 := Int.add_zero _
  exact ⟨_, _, finish_none .jrf s _, finish_none .jrb s _, hlen ▸ hforward, hlen ▸ hbackward⟩

/-! ## The halt -/

/-- HLT commits H alone, as true (43_control.md R191). -/
theorem State.commit_haltValues {s : State} (href : s.RunsReference) :
    s.flags.commit (s.declared .hlt) haltValues = { s.flags with h := true } := by
  rw [State.declared_reference href]
  exact Flags.commit_only_h _ _

/-- Settles O29: HLT commits H (`State.commit_haltValues`), so the halt check of `finish_eq` sets the status, from which no
step exists (O14). -/
theorem hltHaltsTheEngine : Obligations.HltHaltsTheEngine := by
  refine ⟨decode_of_lookup_rule (m := .hlt) (operands := []) rfl rfl, ?_⟩
  intro s href t
  constructor
  · refine (finish_eq .hlt s (s.advance .hlt) haltValues).trans ?_
    rw [State.commit_haltValues href]
    rfl
  · have hstatus : t.status ≠ .running := nofun
    exact (haltedAndFaultedAreTerminal t hstatus).1

end Sys2Proof.Machine

/-! Block instructions (44_block.md R210 to R214): every run is a list of bytes stored in order, a forward copy included, what
that leaves at each address of memory, and the comparison of two runs. -/

namespace Sys2Proof.Machine

/-! ## The addresses of a run -/

/-- Two indices of a run that is no longer than memory address different bytes (44_block.md R210). -/
theorem run_addr_ne {size i j : Nat} (hi : i < size) (hj : j < size) (hne : i ≠ j) (addr : Nat) :
    (addr + i) % size ≠ (addr + j) % size := fun h =>
  hne (Nat.ModEq.eq_of_lt_of_lt (Nat.ModEq.add_left_cancel' addr h) hi hj)

theorem State.memRead_memWrite_ne {s : State} {addr addr' : Nat} (hne : s.wrap addr' ≠ s.wrap addr) (v : Byte) :
    (s.memWrite addr v).memRead addr' = s.memRead addr' :=
  Memory.read_write_ne _ _ _ v hne

/-- Byte `i` of a list stored to a run no longer than memory stands at index `i` of the run: the bytes stored after it go to
other addresses (`State.storeBytes_read_outside`). -/
theorem State.storeBytes_read_inside {vs : List Byte} {s : State} {addr i : Nat} (hwf : Memory.wf s.mem = true)
    (hlen : vs.length ≤ s.params.memSize) (hi : i < vs.length) :
    Memory.read (s.storeBytes addr vs).mem ((addr + i) % s.params.memSize) = vs[i] := by
  induction vs generalizing s addr i with
  | nil => cases hi
  | cons v vs ih =>
    rw [List.length_cons] at hlen hi
    cases i with
    | zero =>
      have hlater (k : Nat) (hk : k < vs.length) :
          (addr + 0) % s.params.memSize ≠ (addr + 1 + k) % s.params.memSize := by
        rw [Nat.add_assoc]
        exact run_addr_ne (by omega) (by omega) (by omega) addr
      exact (State.storeBytes_read_outside vs (s.memWrite addr v) (addr + 1) _ hlater).trans
        (Memory.read_write_same hwf _ v)
    | succ i =>
      rw [← Nat.add_assoc, Nat.add_right_comm]
      exact ih (s := s.memWrite addr v) (addr := addr + 1) (State.memWrite_wf hwf addr v)
        (Nat.le_of_succ_le hlen) (by omega)

/-! ## Runs as lists of bytes stored in order -/

theorem fillRun_eq_storeBytes (base : Nat) (v : Byte) (n i : Nat) (s : State) :
    fillRun base v n i s = s.storeBytes (base + i) ((List.range' i n).map fun _ => v) := by
  induction n generalizing i s with
  | zero => rfl
  | succ n ih => exact ih (i + 1) (s.memWrite (base + i) v)

theorem readRun_eq_map (base n i : Nat) (s : State) :
    readRun base n i s = (List.range' i n).map fun k => s.memRead (base + k) := by
  induction n generalizing i with
  | zero => rfl
  | succ n ih => rw [readRun, ih, List.range'_succ, List.map_cons]

/-- A forward copy that reads no byte it has written stores the bytes that stood in the source run before it (44_block.md
R214). -/
theorem copyForward_eq_storeBytes_readRun {base dst n i : Nat} {s : State}
    (hfresh : ∀ j k, i ≤ j → j < k → k < i + n → s.wrap (base + k) ≠ s.wrap (dst + j)) :
    copyForward base dst n i s = s.storeBytes (dst + i) (readRun base n i s) := by
  induction n generalizing i s with
  | zero => rfl
  | succ n ih =>
    have hread (v : Byte) : readRun base n (i + 1) (s.memWrite (dst + i) v) = readRun base n (i + 1) s := by
      rw [readRun_eq_map, readRun_eq_map]
      refine List.map_congr_left fun k hk => State.memRead_memWrite_ne ?_ v
      rw [List.mem_range'_1] at hk
      exact hfresh i k le_rfl (by omega) (by omega)
    rw [copyForward, readRun, ih (s := s.memWrite (dst + i) _) fun j k hj hjk hk =>
      hfresh j k (by omega) hjk (by omega), hread]
    rfl

/-- A forward copy whose destination starts `k` bytes inside its source run stores a sequence `f` of period `k`, if the `k`
source bytes it reads next are those of `f`. Each write puts `f i = f (i + k)` at source index `i + k`, so the bytes
that the next iteration reads are those of `f` again (44_block.md R214). -/
theorem copyForward_eq_storeBytes_of_periodic {f : Nat → Byte} {base dst k n i : Nat} {s : State}
    (hwf : Memory.wf s.mem = true) (hk0 : 0 < k) (hk : k < s.params.memSize)
    (hdst : dst % s.params.memSize = (base + k) % s.params.memSize) (hperiod : ∀ j, f (j + k) = f j)
    (hahead : ∀ j, j < k → s.memRead (base + i + j) = f (i + j)) :
    copyForward base dst n i s = s.storeBytes (dst + i) ((List.range' i n).map f) := by
  induction n generalizing i s with
  | zero => rfl
  | succ n ih =>
    have hhere : s.memRead (base + i) = f i := hahead 0 hk0
    have hwrap : s.wrap (dst + i) = s.wrap (base + i + k) := by
      rw [Nat.add_right_comm]
      exact Nat.ModEq.add_right i hdst
    have hnext (j : Nat) (hj : j < k) :
        (s.memWrite (dst + i) (f i)).memRead (base + (i + 1) + j) = f (i + 1 + j) := by
      have haddr : base + (i + 1) + j = base + i + (j + 1) := by omega
      rw [haddr, Nat.add_right_comm i 1 j, Nat.add_assoc i j 1]
      by_cases hlast : j + 1 = k
      · rw [hlast, hperiod]
        exact (congrArg _ hwrap.symm).trans (Memory.read_write_same hwf _ _)
      · rw [← hahead (j + 1) (by omega)]
        refine State.memRead_memWrite_ne ?_ _
        rw [hwrap]
        exact run_addr_ne (by omega) hk hlast (base + i)
    rw [copyForward, hhere]
    exact ih (s := s.memWrite (dst + i) (f i)) (State.memWrite_wf hwf _ _) hk hdst hnext

/-! ## Instructions that store a run -/

/-- An instruction whose body stores the bytes `f 0`, `f 1` and so on, A of them, from `dst` on: they stand at the run's
addresses, every other byte and every register and flag stays. A is at most 255, below the smallest memory, so the
addresses of the run are distinct (44_block.md R210, 00_scope.md R5). -/
theorem finish_storeBytes_run {s body : State} (hs : s.Inv) (m : Mnemonic) (dst : Nat) (f : Nat → Byte)
    (hbody : body = (s.advance m).storeBytes dst ((List.range' 0 s.a.toNat).map f)) :
    ∃ mem : Memory, finish m s body .none = .next { s.past m.operandLength s.flags with mem := mem } ∧
      (∀ i, i < s.a.toNat → Memory.read mem ((dst + i) % s.params.memSize) = f i) ∧
      ∀ addr, (∀ i, i < s.a.toNat → addr ≠ (dst + i) % s.params.memSize) →
        Memory.read mem addr = Memory.read s.mem addr := by
  have hsize := hs.memSize_bounds.1
  have hcount := s.a.isLt
  refine ⟨body.mem, ?_, fun i hi => ?_, fun addr hout => ?_⟩
  · rw [finish_none, hbody, State.storeBytes_eq]
    rfl
  · have hlen : ((List.range' 0 s.a.toNat).map f).length = s.a.toNat := by simp
    rw [hbody]
    refine (State.storeBytes_read_inside (s := s.advance m) hs.mem_wf ?_ (hi.trans_eq hlen.symm)).trans (by simp)
    rw [hlen, State.advance_params]
    omega
  · rw [hbody]
    exact State.storeBytes_read_outside _ (s.advance m) dst addr (by simpa using hout)

/-- Settles O30: a fill stores A times the same byte (`fillRun_eq_storeBytes`, `finish_storeBytes_run`). -/
theorem fillWritesTheRun : Obligations.FillWritesTheRun :=
  ⟨fun imm8 => decode_of_lookup_rule (m := .fill) (operands := [imm8]) rfl rfl,
    fun s imm8 _ hs => finish_storeBytes_run hs .fill s.eaIndexed (fun _ => imm8) (fillRun_eq_storeBytes _ _ _ _ _)⟩

/-- Settles O31: a snapshot copy stores the bytes read from the source run (`readRun_eq_map`, `finish_storeBytes_run`). -/
theorem copySnapshotCopiesTheRun : Obligations.CopySnapshotCopiesTheRun := by
  refine ⟨fun hi lo => decode_of_lookup_rule (m := .copy) (operands := [hi, lo]) rfl rfl, ?_⟩
  intro s addr16 _ hs hmode
  refine finish_storeBytes_run hs .copy (s.eaDirect addr16) (fun i => s.memRead (s.eaIndexed + i)) ?_
  rw [hmode, copyRun, readRun_eq_map]
  rfl

/-- Settles O32: the sequence with entry `j` the source byte at `j % k` has period `k` and begins with the `k` source bytes
before the destination, so the forward copy stores it (`copyForward_eq_storeBytes_of_periodic`). -/
theorem copyForwardRepeatsTheFirstBytes : Obligations.CopyForwardRepeatsTheFirstBytes := by
  intro s addr16 k _ hs hmode base dst hk0 hk hdst
  have hsize := hs.memSize_bounds.1
  have hcount := s.a.isLt
  refine finish_storeBytes_run hs .copy (s.eaDirect addr16) (fun j => s.memRead (s.eaIndexed + j % k)) ?_
  rw [hmode]
  refine copyForward_eq_storeBytes_of_periodic (s := s.advance .copy) hs.mem_wf hk0 ?_ ?_ (fun j => ?_) fun j hj => ?_
  · rw [State.advance_params]
    omega
  · exact (Nat.mod_mod _ _).trans hdst
  · rw [Nat.add_mod_right]
  · rw [Nat.zero_add, Nat.mod_eq_of_lt hj]
    rfl

/-! ## The two values of `COPY_OVERLAP` -/

theorem State.storeBytes_withCopyOverlap (s : State) (mode : CopyOverlap) (addr : Nat) (vs : List Byte) :
    (s.withCopyOverlap mode).storeBytes addr vs = (s.storeBytes addr vs).withCopyOverlap mode := by
  induction vs generalizing s addr with
  | nil => rfl
  | cons v vs ih => exact ih (s.memWrite addr v) _

/-- COPY's body does the same in a state with another value of `COPY_OVERLAP`, which it takes from its argument. -/
theorem copyRun_snapshot_withCopyOverlap (s : State) (mode : CopyOverlap) (base dst n : Nat) :
    copyRun .snapshot base dst n (s.withCopyOverlap mode) = (copyRun .snapshot base dst n s).withCopyOverlap mode := by
  have hread : readRun base n 0 (s.withCopyOverlap mode) = readRun base n 0 s := by
    rw [readRun_eq_map, readRun_eq_map]
    rfl
  rw [copyRun, copyRun, hread, State.storeBytes_withCopyOverlap]

/-- A destination that does not start inside the source run past its first byte meets no source byte at a later index than
its own (44_block.md R214). -/
theorem source_addr_ne_of_not_inside {size base dst n : Nat}
    (hout : ∀ k, 0 < k → k < n → dst % size ≠ (base + k) % size) {j k : Nat} (hjk : j < k) (hk : k < n) :
    (base + k) % size ≠ (dst + j) % size := by
  intro h
  have hsplit : base + k = base + (k - j) + j := by omega
  rw [hsplit] at h
  exact hout (k - j) (by omega) (by omega) (Nat.ModEq.add_right_cancel' j h).symm

/-- Unless the destination starts inside the source run past its first byte, the two values agree (44_block.md R214): a
forward copy reads no byte it has written (`copyForward_eq_storeBytes_readRun`). -/
theorem copyRun_forward_eq_snapshot {base dst n : Nat} {s : State}
    (hout : ∀ k, 0 < k → k < n → s.wrap dst ≠ s.wrap (base + k)) :
    copyRun .forward base dst n s = copyRun .snapshot base dst n s :=
  copyForward_eq_storeBytes_readRun fun _ _ _ hjk hk =>
    source_addr_ne_of_not_inside hout hjk (by simpa using hk)

/-- Settles O33: COPY's body leaves the same memory in both modes (`copyRun_forward_eq_snapshot`), and the parameter reaches
nothing else. -/
theorem copyModesAgreeWithoutOverlap : Obligations.CopyModesAgreeWithoutOverlap := by
  intro s addr16 _ base dst hout
  have hbody : copyRun .forward base dst s.a.toNat ((s.advance .copy).withCopyOverlap .forward) =
      (copyRun .snapshot base dst s.a.toNat ((s.advance .copy).withCopyOverlap .snapshot)).withCopyOverlap .forward := by
    rw [← copyRun_snapshot_withCopyOverlap]
    exact copyRun_forward_eq_snapshot fun k h0 hk h => hout k h0 hk ((Nat.mod_mod _ _).symm.trans h)
  exact ⟨_, _, finish_none .copy _ _, (congrArg (finish .copy _ · _) hbody).trans (finish_none .copy _ _), rfl, rfl⟩

/-! ## The comparison -/

/-- BCMP commits Z alone (44_block.md R213). -/
theorem State.commit_compareValues {s : State} (href : s.RunsReference) (eq : Bool) :
    s.flags.commit (s.declared .bcmp) (compareValues eq) = { s.flags with z := eq } := by
  rw [State.declared_reference href]
  exact Flags.commit_only_z _ _

/-- Settles O34: BCMP commits to Z what `compareRun` answers, which is true exactly when the runs agree at every index
(`compareRun_eq_true`). -/
theorem bcmpComparesTheRuns : Obligations.BcmpComparesTheRuns := by
  refine ⟨fun hi lo => decode_of_lookup_rule (m := .bcmp) (operands := [hi, lo]) rfl rfl, ?_⟩
  intro s addr16 href base dst
  refine ⟨compareRun base dst s.a.toNat 0 s, ?_, ?_⟩
  · refine (finish_eq .bcmp s (s.advance .bcmp) _).trans ?_
    rw [State.commit_compareValues href]
    rfl
  · rw [compareRun_eq_true, Nat.zero_add]
    exact ⟨fun h i => h i (Nat.zero_le i), fun h i _ => h i⟩

end Sys2Proof.Machine

/-! Exceptions (60_exceptions.md R240 to R245): UnknownOpcode, and that nothing else faults. -/

namespace Sys2Proof.Machine

/-- Below `MEM_SIZE` an address is read as it stands (20_memory.md R41). -/
theorem State.memRead_of_lt {s : State} {addr : Nat} (h : addr < s.params.memSize) :
    s.memRead addr = Memory.read s.mem addr :=
  congrArg (Memory.read s.mem) (Nat.mod_eq_of_lt h)

/-- Settles O11: PC is an address of memory, so the byte that fails the lookup is the byte that memory holds there
(`State.memRead_of_lt`); the step then is the exception (`step_eq_of_unknown`), whose record is that of every Faulted state
(`State.faultRecord_eq`). -/
theorem unknownOpcodeFaults : Obligations.UnknownOpcodeFaults := by
  intro s op hs hr hop hd
  have hbyte : s.memRead s.pc.toNat = op := (State.memRead_of_lt hs.pc_lt).trans hop
  refine ⟨step_eq_of_unknown hr (hbyte.symm ▸ hd), ?_, hs.h_of_running hr⟩
  rw [← hbyte]
  exact (State.faultRecord_eq (raiseUnknownOpcode s)).trans (if_pos (raiseUnknownOpcode_status s))

/-- Settles O12: of the four things a step can do (`step_cases`) a Running core does one of the first two. An instruction
counts one step, and its halt check leaves the status other than Faulted (`halted_iff_of_haltCheck`); UnknownOpcode makes
the status Faulted and counts nothing. -/
theorem onlyAnUnknownOpcodeFaults : Obligations.OnlyAnUnknownOpcodeFaults := by
  intro s t hr h
  rcases step_cases s with ⟨-, d, hd, hstep⟩ | ⟨-, hd, hstep⟩ | ⟨hs, -⟩ | ⟨hs, -⟩
  · obtain ⟨-, -, hsteps, hstatus⟩ := execFetched_fields (fetched := ⟨d, _⟩) hd (hstep.symm.trans h)
    have hfault : t.status ≠ .faulted := (halted_iff_of_haltCheck hr hstatus).2
    simp [hd, hfault, hsteps]
  · cases hstep.symm.trans h
    simp [hd]
  · simp [hr] at hs
  · simp [hr] at hs

end Sys2Proof.Machine

/-! Reset, load and run at the host port (70_reset_and_hazards.md R270 to R280): what no operation changes, what a load
answers and leaves in memory, and how far a run goes. -/

namespace Sys2Proof.Machine

/-! ## The parameters -/

/-- Settles O41: of the four things a step can do (`step_cases`) an instruction keeps the parameters (`execFetched_fields`)
and UnknownOpcode changes the status alone; in Halted and in Faulted no step exists. -/
theorem parametersNeverChange : Obligations.ParametersNeverChange := by
  refine ⟨fun s t h => ?_, fun _ => rfl⟩
  rcases step_cases s with ⟨-, d, hd, hstep⟩ | ⟨-, -, hstep⟩ | ⟨-, hstep⟩ | ⟨-, hstep⟩
  · obtain ⟨hparams, -⟩ := execFetched_fields (fetched := ⟨d, _⟩) hd (hstep.symm.trans h)
    exact hparams
  · cases hstep.symm.trans h
    exact raiseUnknownOpcode_params s
  · simp [hstep] at h
  · simp [hstep] at h

/-! ## What a load answers -/

theorem State.beforeFirstStep_iff (s : State) : s.beforeFirstStep = true ↔ s.status = .running ∧ s.steps = 0 := by
  simp [State.beforeFirstStep]

/-- A load before the first step of an image that fits changes memory alone. -/
theorem load_of_fits {s : State} {image : List Byte} (hr : s.status = .running) (h0 : s.steps = 0)
    (hlen : image.length ≤ s.params.memSize) :
    load image s = .ok { s with mem := (s.clearMemory.storeBytes 0 image).mem } := by
  have hfirst : s.beforeFirstStep = true := s.beforeFirstStep_iff.2 ⟨hr, h0⟩
  rw [load, if_neg (by simp [hfirst]), if_neg (Nat.not_lt.2 hlen), State.storeBytes_eq]
  rfl

theorem load_of_too_long {s : State} {image : List Byte} (hr : s.status = .running) (h0 : s.steps = 0)
    (hlen : s.params.memSize < image.length) : load image s = .error .imageTooLong := by
  have hfirst : s.beforeFirstStep = true := s.beforeFirstStep_iff.2 ⟨hr, h0⟩
  rw [load, if_neg (by simp [hfirst]), if_pos hlen]

theorem load_of_late {s : State} (h : ¬ (s.status = .running ∧ s.steps = 0)) (image : List Byte) :
    load image s = .error .loadAfterFirstStep := by
  rw [← State.beforeFirstStep_iff, Bool.not_eq_true] at h
  rw [load, if_pos h]

/-- What a load has accepted: it came before the first step, and it changes memory alone. -/
theorem load_ok {s t : State} {image : List Byte} (h : load image s = .ok t) :
    s.status = .running ∧ t = { s with mem := (s.clearMemory.storeBytes 0 image).mem } := by
  by_cases hfirst : s.status = .running ∧ s.steps = 0
  · obtain ⟨hr, h0⟩ := hfirst
    rcases Nat.lt_or_ge s.params.memSize image.length with hlong | hfits
    · simp [load_of_too_long hr h0 hlong] at h
    · rw [load_of_fits hr h0 hfits] at h
      exact ⟨hr, (Except.ok.inj h).symm⟩
  · simp [load_of_late hfirst] at h

/-- No state that a step leads to is before its first step: a step counts or makes the status Faulted (log 8). -/
theorem not_beforeFirstStep_of_step {s t : State} (h : step s = .next t) : ¬ (t.status = .running ∧ t.steps = 0) := by
  rintro ⟨hstatus, hsteps⟩
  have hr : s.status = .running := by
    by_contra hr
    exact (haltedAndFaultedAreTerminal s hr).1 t h
  obtain ⟨-, hcount⟩ := onlyAnUnknownOpcodeFaults s t hr h
  simp [hstatus, hsteps] at hcount

/-! ## The memory after a load -/

/-- An image no longer than memory, stored at address 0 of cleared memory: its bytes at their own indices, and 0 past its
end (70_reset_and_hazards.md R272). -/
theorem State.read_clearMemory_storeBytes {s : State} {image : List Byte} (hlen : image.length ≤ s.params.memSize)
    (addr : Nat) : Memory.read (s.clearMemory.storeBytes 0 image).mem addr = image.getD addr 0 := by
  have hwrap (i : Nat) (hi : i < image.length) : (0 + i) % s.params.memSize = i := by
    rw [Nat.zero_add, Nat.mod_eq_of_lt (hi.trans_le hlen)]
  rcases Nat.lt_or_ge addr image.length with hin | hout
  · have hread := State.storeBytes_read_inside (addr := 0) s.clearMemory_mem_wf hlen hin
    rw [State.clearMemory_params, hwrap addr hin] at hread
    rw [hread, List.getD_eq_getElem _ _ hin]
  · rw [List.getD_eq_default _ _ hout]
    refine State.storeBytes_read_outside image s.clearMemory 0 addr fun i hi => ?_
    rw [State.clearMemory_params, hwrap i hi]
    omega

/-- Settles O52, one answer of `load` for each clause: the memory of an accepted load is read byte by byte
(`State.read_clearMemory_storeBytes`), and after a step every load is late (`not_beforeFirstStep_of_step`). -/
theorem loadPlacesTheImage : Obligations.LoadPlacesTheImage :=
  ⟨fun _ _ _ hr h0 hlen => ⟨_, load_of_fits hr h0 hlen, State.read_clearMemory_storeBytes hlen⟩,
    fun _ _ hr h0 hlen => load_of_too_long hr h0 hlen,
    fun _ _ image h => load_of_late (not_beforeFirstStep_of_step h) image⟩

/-! ## The invariant and the reachable states -/

/-- Storing bytes keeps PC and memory in bounds. -/
theorem State.InBounds.storeBytes {s : State} (h : s.InBounds) (addr : Nat) (vs : List Byte) :
    (s.storeBytes addr vs).InBounds :=
  State.storeBytes_induct (fun _ a v hs => hs.memWrite a v) vs s addr h

/-- Cleared memory lists no address. -/
theorem State.InBounds.clearMemory {s : State} (h : s.InBounds) : s.clearMemory.InBounds where
  memSize_pos := h.memSize_pos
  memSize_le := h.memSize_le
  pc_lt := h.pc_lt
  mem_wf := s.clearMemory_mem_wf
  mem_within := rfl

/-- The clause of the invariant that ties memory to the status speaks of a Faulted core, so that a Running core may hold any
memory in bounds. -/
theorem State.Inv.of_mem_inBounds {s : State} {mem : Memory} (hs : s.Inv) (hr : s.status = .running)
    (hin : ({ s with mem := mem } : State).InBounds) : ({ s with mem := mem } : State).Inv where
  params_wf := hs.params_wf
  pc_lt := hin.pc_lt
  mem_wf := hin.mem_wf
  mem_within := hin.mem_within
  halted_iff := hs.halted_iff
  faulted_at := fun hf => by simp [hr] at hf

/-- Settles O49: an accepted load stores into a Running core's cleared memory (`load_ok`), which keeps the bounds. -/
theorem loadKeepsTheInvariant : Obligations.LoadKeepsTheInvariant := by
  intro s t image hs h
  obtain ⟨hr, rfl⟩ := load_ok h
  refine hs.of_mem_inBounds hr ?_
  have hin := hs.inBounds.clearMemory.storeBytes 0 image
  rwa [State.storeBytes_eq] at hin

/-- Settles O50, by induction on how the state was reached: construction and reset give a reset state (`State.init_inv`), a
load and a step keep the invariant and the parameters. -/
theorem reachableStatesMeetTheInvariant : Obligations.ReachableStatesMeetTheInvariant := by
  intro p s h
  induction h with
  | built hbuilt =>
    obtain ⟨hp, rfl⟩ := (construct_eq_ok_iff _ _).1 hbuilt
    exact ⟨State.init_inv hp, rfl⟩
  | reset _ ih =>
    obtain ⟨hs, hparams⟩ := ih
    exact ⟨State.init_inv hs.params_wf, hparams⟩
  | loaded _ hload ih =>
    obtain ⟨hs, hparams⟩ := ih
    refine ⟨loadKeepsTheInvariant _ _ _ hs hload, ?_⟩
    obtain ⟨-, rfl⟩ := load_ok hload
    exact hparams
  | stepped _ hstep ih =>
    obtain ⟨hs, hparams⟩ := ih
    exact ⟨stepKeepsTheInvariant _ _ hs hstep, (parametersNeverChange.1 _ _ hstep).trans hparams⟩

/-! ## The first step of empty memory -/

/-- Settles O53: empty memory reads 0 at PC, an opcode that 30_encoding.md R69 leaves unassigned, so the step is the
exception (`step_eq_of_unknown`). -/
theorem emptyMemoryFaultsAtOnce : Obligations.EmptyMemoryFaultsAtOnce := by
  intro p hp
  have hunknown : Catalog.reference.lookup 0 = none := (unassignedOpcodesOfTheReferenceCatalog.1 0).2 rfl
  have hlookup : (State.init p).params.catalog.lookup ((State.init p).memRead (State.init p).pc.toNat) = none :=
    hp ▸ hunknown
  exact ⟨step_eq_of_unknown rfl hlookup, rfl⟩

/-! ## How far a run goes -/

/-- With no budget left a Running core pauses, whatever the stop signal (log 10). -/
theorem run_zero {s : State} (hr : s.status = .running) (stop : List Bool) : run 0 stop s = ⟨s, .budget⟩ := by
  rw [run, hr]

/-- With no stop signal a Running core with budget left takes a step. -/
theorem run_succ_nil {s t : State} (hr : s.status = .running) (h : step s = .next t) (n : Nat) :
    run (n + 1) [] s = run n [] t :=
  (run_succ hr h n []).trans (if_neg Bool.false_ne_true)

/-- Settles O54: the first two clauses are `run_zero` and `run_succ_nil`; the third by induction on the first budget, a core
that is not Running staying where it is (`run_of_not_running`). -/
theorem runResumesWhereItStopped : Obligations.RunResumesWhereItStopped := by
  refine ⟨fun s hr => run_zero hr [], fun n s t hr h => run_succ_nil hr h n, fun m n => ?_⟩
  induction m with
  | zero =>
    intro s
    have hstay : (run 0 [] s).state = s := by
      by_cases hr : s.status = .running
      · rw [run_zero hr]
      · rw [run_of_not_running hr]
    rw [hstay, Nat.zero_add]
  | succ m ih =>
    intro s
    by_cases hr : s.status = .running
    · obtain ⟨t, ht⟩ := runningCoreAlwaysSteps s hr
      rw [Nat.add_right_comm, run_succ_nil hr ht, run_succ_nil hr ht]
      exact ih t
    · simp only [run_of_not_running hr]

/-- Everything a run can do: end at once, by the status, the budget or the first sample of the stop signal, or take a step
and go on with one sample fewer (70_reset_and_hazards.md R276; log 10). -/
theorem run_cases (budget : Nat) (stop : List Bool) (s : State) :
    (s.status ≠ .running ∧ run budget stop s = ⟨s, .notRunning⟩) ∨
    (s.status = .running ∧ budget = 0 ∧ run budget stop s = ⟨s, .budget⟩) ∨
    (s.status = .running ∧ 0 < budget ∧ stop.getD 0 false = true ∧ run budget stop s = ⟨s, .stopSignal⟩) ∨
    ∃ n t, budget = n + 1 ∧ stop.getD 0 false = false ∧ step s = .next t ∧
      run budget stop s = run n stop.tail t := by
  by_cases hr : s.status = .running
  · cases budget with
    | zero => exact .inr (.inl ⟨hr, rfl, run_zero hr stop⟩)
    | succ n =>
      obtain ⟨t, ht⟩ := runningCoreAlwaysSteps s hr
      have hrun := run_succ hr ht n stop
      rw [List.headD_eq_getD] at hrun
      cases hstop : stop.getD 0 false with
      | true => exact .inr (.inr (.inl ⟨hr, n.succ_pos, rfl, hrun.trans (if_pos hstop)⟩))
      | false => exact .inr (.inr (.inr ⟨n, t, rfl, rfl, ht, hrun.trans (if_neg (Bool.eq_false_iff.1 hstop))⟩))
  · exact .inl ⟨hr, run_of_not_running hr budget stop⟩

/-- Sample `j + 1` of the stop signal is sample `j` of what is left of it after one step. -/
theorem stop_getD_tail (stop : List Bool) (j : Nat) : stop.tail.getD j false = stop.getD (j + 1) false := by
  cases stop <;> rfl

/-- Settles O55, by induction on the budget, one case for each thing a run can do (`run_cases`): a run that ends at once
takes 0 steps, and one that takes a step takes one more than the run it goes on with. -/
theorem stopSignalOnlyPauses : Obligations.StopSignalOnlyPauses := by
  intro budget
  induction budget using Nat.strong_induction_on with
  | _ budget ih =>
    intro stop s
    rcases run_cases budget stop s with ⟨hr, hrun⟩ | ⟨hr, hbudget, hrun⟩ | ⟨hr, hbudget, hstop, hrun⟩ |
      ⟨n, t, rfl, hstop, hstep, hrun⟩
    · rw [hrun]
      exact ⟨0, Nat.zero_le _, rfl, nofun, by simp [hr], nofun, nofun⟩
    · rw [hrun]
      exact ⟨0, Nat.zero_le _, rfl, nofun, by simp [hr], fun _ => hbudget.symm, nofun⟩
    · rw [hrun]
      exact ⟨0, Nat.zero_le _, rfl, nofun, by simp [hr], nofun, fun _ => ⟨hbudget, hstop⟩⟩
    · obtain ⟨k, hk, hreach, hlow, hstatus, hbudget, hraised⟩ := ih n n.lt_succ_self stop.tail t
      simp only [stop_getD_tail] at hlow hraised
      rw [hrun]
      refine ⟨k + 1, Nat.succ_le_succ hk, (core_run_succ hstep k).trans hreach, ?_, hstatus, ?_, ?_⟩
      · rintro (_ | j) hj
        · exact hstop
        · exact hlow j (Nat.lt_of_succ_lt_succ hj)
      · exact fun hend => congrArg (· + 1) (hbudget hend)
      · intro hend
        obtain ⟨hlt, hsample⟩ := hraised hend
        exact ⟨Nat.succ_lt_succ hlt, hsample⟩

end Sys2Proof.Machine
